-- ==== Sys2Proof/Word.lean ====
section
/-! DEFINITION. The words and bytes of the YCC block (spec/10_state.md R34, spec/20_memory.md R70). -/

namespace Sys2Proof

/-- A register, a command word, or one sample (a binary32 pattern): 32 bits (R34, R18). -/
abbrev Word := BitVec 32

/-- One byte of memory (R70). -/
abbrev Byte := BitVec 8

end Sys2Proof
end

