-- ==== Sys2Proof/Config.lean ====
section
/-! DEFINITION. The implementation parameters of an instance (spec/00_scope.md R9 to R12) and the values the spec leaves
open, as constants with no body: nothing in Lean can evaluate one or prove a value of it. -/

namespace Sys2Proof

/-- `ADDR_W`: 32 or 64 (R12, D11). -/
inductive AddrWidth where
  | w32
  | w64
  deriving DecidableEq, Repr

/-- The parameters of one instance of the block (R9 to R12). The spec says that a model takes them as arguments; the
form of `exec` is fixed, so the arguments stand in State, and no step changes them (notes/assumptions/1.md). -/
structure Params where
  /-- `W_N`, the narrow lane count (R9). -/
  wN : Nat
  /-- `WIDE_MULT`, with `W_W = WIDE_MULT × W_N` (R10). -/
  wideMult : Nat
  /-- `HAS_FMA_N` (R11). -/
  hasFmaN : Bool
  /-- `HAS_FMA_W` (R11). -/
  hasFmaW : Bool
  /-- `ADDR_W` (R12). -/
  addrW : AddrWidth
  /-- `ID_VALUE` (R12, R35). -/
  idValue : Word
  deriving DecidableEq, Repr

/-- Whether this instance has `HAS_FMA_N`: left OPEN by R11 (notes/assumptions/1.md). -/
opaque Config.hasFmaN : Bool

/-- Whether this instance has `HAS_FMA_W`: left OPEN by R11 (notes/assumptions/1.md). -/
opaque Config.hasFmaW : Bool

/-- `NAN_RESULT` (R12, R23): the pattern from which the n-th draw takes its sign and its fraction
(notes/assumptions/2.md). -/
opaque Config.nanResult : Nat → Word

/-- The n-th byte drawn where the spec says "any value" (R88, R90, R230, R261, R264; notes/assumptions/3.md). -/
opaque Config.anyByte : Nat → Byte

/-- The parameters in `State.reset`: the defaults of R9, R10 and R12, and the OPEN values of R11
(DESIGN CHOICE, notes/assumptions/1.md). -/
def Config.params : Params where
  wN := 8
  wideMult := 2
  hasFmaN := Config.hasFmaN
  hasFmaW := Config.hasFmaW
  addrW := .w64
  idValue := 0x59434331

end Sys2Proof
end

