-- ==== Sys2Proof/Syntax.lean ====
section
/-! DEFINITION. The commands, the fields of a command word, the register names, and the host assembly statements
(spec/30_encoding.md, spec/10_state.md R34). -/

namespace Sys2Proof

/-- The eight commands, one per row of spec/opcode_table.json (R102). No command carries an operand (R105). -/
inductive Instr where
  /-- `cvt.s` (R157). -/
  | cvtS
  /-- `cvt.nn` (R189). -/
  | cvtNn
  /-- `cvt.nn.t` (R191). -/
  | cvtNnT
  /-- `cvt.na` (R198). -/
  | cvtNa
  /-- `cvt.wn` (R190). -/
  | cvtWn
  /-- `cvt.wn.t` (R192). -/
  | cvtWnT
  /-- `cvt.wa` (R199). -/
  | cvtWa
  /-- `slice` (R136). -/
  | slice
  deriving DecidableEq, Repr

/-- The fields of a command word in format CMD32 (R100). -/
structure CmdFields where
  /-- Bits 31:5, reserved. -/
  rsv : BitVec 27
  /-- Bit 4, the tail option. -/
  t : Bool
  /-- Bits 3:0, the operation. -/
  op : BitVec 4
  deriving DecidableEq, Repr

/-- Why a word is no command (R104); each is reported to the host as ILLEGAL_CMD. -/
inductive DecodeError where
  /-- Some bit of RSV is set. -/
  | reservedBits
  /-- OP is 0x0 or 0x7 to 0xF. -/
  | reservedOp
  /-- T = 1 with an OP other than 0x2 and 0x4 (R103). -/
  | tailNotAllowed
  deriving DecidableEq, Repr

/-- The planes that have a base register pair: the spans of the view (R50) and the inputs (R51). -/
inductive Plane where
  | c0
  | c1
  | c2
  | c3
  | r
  | g
  | b
  deriving DecidableEq, Repr

/-- The named registers of the window (R34): 27 words. -/
inductive Reg where
  | id
  | cap
  | cfg
  | half
  | cmd
  | status
  | faultAddrLo
  | faultAddrHi
  | viewCount
  | viewLen
  | baseLo (p : Plane)
  | baseHi (p : Plane)
  | rgbLen
  | sliceStart
  | sliceLen
  deriving DecidableEq, Repr

/-- The statements of the host assembly (R107) and its pseudo-instructions (R108). -/
inductive HostStmt where
  /-- `wr NAME, imm32`. -/
  | wr (name : Reg) (imm : Word)
  /-- `rd NAME`, or `rd NAME, =imm32`, where the author states the value. -/
  | rd (name : Reg) (expected : Option Word)
  /-- A command (R102). -/
  | cmd (i : Instr)
  /-- `wr64 P, imm64`. -/
  | wr64 (p : Plane) (imm : BitVec 64)
  /-- `prec p`. -/
  | prec (p : Word)
  /-- `view n, len, a0, a1, a2, a3`. -/
  | view (n len : Word) (a0 a1 a2 a3 : BitVec 64)
  /-- `rgb ar, ag, ab, len`. -/
  | rgb (ar ag ab : BitVec 64) (len : Word)
  /-- `slice s, n`. -/
  | sliceOf (s n : Word)
  /-- `clr`. -/
  | clr
  /-- `wait`. -/
  | wait
  deriving DecidableEq, Repr

end Sys2Proof
end

