-- ==== Sys2Proof/WellFormed.lean ====
section
/-! DEFINITION. What makes a command word, and an instance's parameters, well-formed (spec/30_encoding.md R100, R103, R104;
spec/00_scope.md R9, R10). -/

namespace Sys2Proof

/-- R100: RSV must be 0. -/
def CmdFields.reservedClear (c : CmdFields) : Bool := c.rsv == 0

/-- R102, R104: OP is 0x1 to 0x6. -/
def CmdFields.opDefined (c : CmdFields) : Bool := 1 ≤ c.op.toNat && c.op.toNat ≤ 6

/-- R103: T is legal only with OP = 0x2 or OP = 0x4. -/
def CmdFields.tailAllowed (c : CmdFields) : Bool := !c.t || c.op == 2 || c.op == 4

/-- A well-formed command word (R102 to R104). -/
def CmdFields.wellFormed (c : CmdFields) : Bool := c.reservedClear && c.opDefined && c.tailAllowed

/-- R9: W_N is a power of two, 2 ≤ W_N ≤ 64. -/
def Params.narrowLegal (p : Params) : Bool := [2, 4, 8, 16, 32, 64].contains p.wN

/-- R10: WIDE_MULT is a power of two, at least 2 (and at most 64, since W_N ≥ 2 and W_W ≤ 128). -/
def Params.multLegal (p : Params) : Bool := [2, 4, 8, 16, 32, 64].contains p.wideMult

/-- R10: W_W ≤ 128. -/
def Params.wideLegal (p : Params) : Bool := p.wideMult * p.wN ≤ 128

/-- The parameter values the spec allows (R9, R10). -/
def Params.legal (p : Params) : Bool := p.narrowLegal && p.multLegal && p.wideLegal

end Sys2Proof
end

