-- ==== Sys2Proof/Decode.lean ====
section
/-! DEFINITION. The decoder of command words, total and rejecting by name, and the encoder (spec/30_encoding.md R100 to R104). -/

namespace Sys2Proof

/-- The fields of a word in format CMD32 (R100). -/
def CmdFields.ofWord (w : Word) : CmdFields where
  rsv := w.extractLsb' 5 27
  t := w.getLsbD 4
  op := w.extractLsb' 0 4

/-- The word of a field triple (R100). -/
def CmdFields.toWord (c : CmdFields) : Word := c.rsv ++ (BitVec.ofBool c.t ++ c.op)

/-- The command that OP and T select (R102); the second half of R104's reasons otherwise. -/
def decodeOp (op : Nat) (t : Bool) : Except DecodeError Instr :=
  match op, t with
  | 1, false => .ok .cvtS
  | 2, false => .ok .cvtNn
  | 2, true => .ok .cvtNnT
  | 3, false => .ok .cvtNa
  | 4, false => .ok .cvtWn
  | 4, true => .ok .cvtWnT
  | 5, false => .ok .cvtWa
  | 6, false => .ok .slice
  | 1, true | 3, true | 5, true | 6, true => .error .tailNotAllowed
  | _, _ => .error .reservedOp

/-- The decoder sees the whole word at once (R101, R102, R104). -/
def decode (w : Word) : Except DecodeError Instr :=
  let c := CmdFields.ofWord w
  if c.rsv = 0 then decodeOp c.op.toNat c.t else .error .reservedBits

/-- The fields of each command (R102). -/
def Instr.fields : Instr → CmdFields
  | .cvtS => ⟨0, false, 0x1⟩
  | .cvtNn => ⟨0, false, 0x2⟩
  | .cvtNnT => ⟨0, true, 0x2⟩
  | .cvtNa => ⟨0, false, 0x3⟩
  | .cvtWn => ⟨0, false, 0x4⟩
  | .cvtWnT => ⟨0, true, 0x4⟩
  | .cvtWa => ⟨0, false, 0x5⟩
  | .slice => ⟨0, false, 0x6⟩

/-- The word of a command (R100, R102). -/
def encode (i : Instr) : Word := i.fields.toWord

/-- A command is well-formed when its fields are; every command is (it carries no operand, R105). -/
def Instr.wellFormed (i : Instr) : Bool := i.fields.wellFormed

/-- What the decoder reads from a table row's bits. A command is one 32-bit word (R101), so a row of more bits is none. -/
def decodeTableWord (nbits w : Nat) : Option Instr :=
  if nbits ≤ 32 then (decode (BitVec.ofNat 32 (w % 2 ^ nbits))).toOption else none

end Sys2Proof
end

