-- ==== Sys2Proof/Machine/Float.lean ====
section
/-! DEFINITION. Binary32 arithmetic (spec/00_scope.md R19 to R23): operands become integers, the exact result is computed,
and one rounding narrows it. Every finite binary32 is an integer multiple of 2^-149. -/

namespace Sys2Proof.Machine

/-- The sign bit (R19). -/
def fsign (f : Word) : Bool := f.getLsbD 31

/-- The biased exponent `e` (R19). -/
def fexp (f : Word) : Nat := f.toNat / 2 ^ 23 % 256

/-- The fraction `m` (R19). -/
def ffrac (f : Word) : Nat := f.toNat % 2 ^ 23

/-- A NaN (R19). -/
def isNaN (f : Word) : Bool := fexp f == 255 && ffrac f != 0

/-- A quiet NaN (R19): bits 30:22 all ones. -/
def isQuietNaN (f : Word) : Bool := isNaN f && f.getLsbD 22

/-- An infinity (R19). -/
def isInf (f : Word) : Bool := fexp f == 255 && ffrac f == 0

/-- A zero (R19). -/
def isZero (f : Word) : Bool := fexp f == 0 && ffrac f == 0

/-- The magnitude of a finite binary32 in units of 2^-149 (R19). -/
def fmag (f : Word) : Nat := if fexp f = 0 then ffrac f else (2 ^ 23 + ffrac f) * 2 ^ (fexp f - 1)

/-- The value of a finite binary32 in units of 2^-149 (R19). -/
def fval (f : Word) : Int := if fsign f then -(fmag f : Int) else (fmag f : Int)

/-- The exponent-and-fraction bits of `round32` on the magnitude `n × 2^-q`, `q ≥ 149` (R20): keep 24 significant bits, but
nothing below 2^-149; round to nearest, ties to even; from 2^128 - 2^103 up, infinity. -/
def roundMag (n q : Nat) : Nat :=
  let drop := max (n.log2 - 23) (q - 149)
  let kept := n / 2 ^ drop
  let rest := n % 2 ^ drop
  let rounded := if 2 ^ drop < 2 * rest ∨ (2 * rest = 2 ^ drop ∧ kept % 2 = 1) then kept + 1 else kept
  min (rounded + (drop - (q - 149)) * 2 ^ 23) 0x7F800000

/-- `round32` of the exact number with this sign and magnitude `n × 2^-q` (R20); a zero keeps the sign. -/
def round32 (neg : Bool) (n q : Nat) : Word := (BitVec.ofBool neg ++ BitVec.ofNat 31 (roundMag n q) : BitVec 32)

/-- `round32` of a signed exact number `x × 2^-q`, with the sign that an exact zero takes (R20, R21). -/
def roundInt (x : Int) (q : Nat) (zeroNeg : Bool) : Word :=
  if x = 0 then round32 zeroNeg 0 q else round32 (x < 0) x.natAbs q

/-- An infinity (R22). -/
def infinity (neg : Bool) : Word := (BitVec.ofBool neg ++ BitVec.ofNat 31 0x7F800000 : BitVec 32)

/-- The result of the operation with draw `d` when it is a NaN: an arbitrary quiet NaN (R23, notes/assumptions/2.md). -/
def quietNaN (d : Nat) : Word := Config.nanResult d ||| 0x7FC00000

/-- `-f` of R21 and R181: bit 31 flipped. -/
def fneg (f : Word) : Word := f ^^^ 0x80000000

/-- `fmul(a, b)` (R21 to R23), with draw `d` for a NaN result. -/
def fmul (d : Nat) (a b : Word) : Word :=
  if isNaN a || isNaN b then quietNaN d
  else if (isZero a && isInf b) || (isInf a && isZero b) then quietNaN d
  else if isInf a || isInf b then infinity (fsign a ^^ fsign b)
  else round32 (fsign a ^^ fsign b) (fmag a * fmag b) 298

/-- `fadd(a, b)` (R21 to R23), with draw `d` for a NaN result. -/
def fadd (d : Nat) (a b : Word) : Word :=
  if isNaN a || isNaN b then quietNaN d
  else if isInf a && isInf b && fsign a != fsign b then quietNaN d
  else if isInf a then infinity (fsign a)
  else if isInf b then infinity (fsign b)
  else roundInt (fval a + fval b) 149 (isZero a && isZero b && fsign a && fsign b)

/-- `fsub(a, b)` (R21). -/
def fsub (d : Nat) (a b : Word) : Word := fadd d a (fneg b)

/-- `ffma(a, b, c)`: the exact `a × b + c`, rounded once (R21 to R23), with draw `d` for a NaN result. -/
def ffma (d : Nat) (a b c : Word) : Word :=
  let neg := fsign a ^^ fsign b
  if isNaN a || isNaN b || isNaN c then quietNaN d
  else if (isZero a && isInf b) || (isInf a && isZero b) then quietNaN d
  else if isInf a || isInf b then
    (if isInf c && fsign c != neg then quietNaN d else infinity neg)
  else if isInf c then infinity (fsign c)
  else roundInt (fval a * fval b + fval c * 2 ^ 149) 298 ((isZero a || isZero b) && neg && isZero c && fsign c)

end Sys2Proof.Machine
end

