-- ==== Sys2Proof/Machine/Lanes.lean ====
section
/-! DEFINITION. The datapath of one sample: the coefficients, the multiply-add primitive, the scalar and the vector lane
function (spec/00_scope.md R13, spec/42_madd.md, spec/41_scalar.md R156, spec/43_vector.md R181). Operation number j of a
lane whose first draw is d takes draw d + j for a NaN result (notes/assumptions/2.md). -/

namespace Sys2Proof.Machine

/-- 0.299 (R13). -/
def kYR : Word := 0x3E991687
/-- 0.587 (R13). -/
def kYG : Word := 0x3F1645A2
/-- 0.114 (R13). -/
def kYB : Word := 0x3DE978D5
/-- 0.168736 (R13). -/
def kCBR : Word := 0x3E2CC921
/-- 0.331264 (R13). -/
def kCBG : Word := 0x3EA99B6F
/-- 0.5 (R13). -/
def kH : Word := 0x3F000000
/-- 0.418688 (R13). -/
def kCRG : Word := 0x3ED65E46
/-- 0.081312 (R13). -/
def kCRB : Word := 0x3DA686E8

/-- The three results of one lane (R156, R181). -/
structure Ycc where
  y : Word
  cb : Word
  cr : Word
  deriving DecidableEq, Repr

/-- `scalar_lane(r, g, b, H)` (R152 to R156): left to right, every operation rounded, never fused. -/
def scalarLane (d : Nat) (r g b h : Word) : Ycc :=
  let t3 := fadd (d + 2) (fmul d kYR r) (fmul (d + 1) kYG g)
  let y := fadd (d + 4) t3 (fmul (d + 3) kYB b)
  let u2 := fsub (d + 6) h (fmul (d + 5) kCBR r)
  let u4 := fsub (d + 8) u2 (fmul (d + 7) kCBG g)
  let cb := fadd (d + 10) u4 (fmul (d + 9) kH b)
  let v2 := fadd (d + 12) h (fmul (d + 11) kH r)
  let v4 := fsub (d + 14) v2 (fmul (d + 13) kCRG g)
  let cr := fsub (d + 16) v4 (fmul (d + 15) kCRB b)
  ⟨y, cb, cr⟩

/-- `madd(acc, a, b, fused)` (R170 to R172): one rounding when fused, two when not. It takes draws `d` and `d + 1`. -/
def madd (d : Nat) (acc a b : Word) (fused : Bool) : Word :=
  if fused then ffma d a b acc else fadd (d + 1) (fmul d a b) acc

/-- `vec_lane(r, g, b, H, f)` (R181 to R183). -/
def vecLane (d : Nat) (r g b h : Word) (f : Bool) : Ycc :=
  let q1 := madd (d + 1) (fmul d b kYB) g kYG f
  let y := madd (d + 3) q1 r kYR f
  let q2 := madd (d + 6) (fmul (d + 5) b kH) g (fneg kCBG) f
  let s2 := madd (d + 8) q2 r (fneg kCBR) f
  let cb := fadd (d + 10) h s2
  let q3 := madd (d + 12) (fmul (d + 11) b (fneg kCRB)) g (fneg kCRG) f
  let s3 := madd (d + 14) q3 r kH f
  let cr := fadd (d + 16) h s3
  ⟨y, cb, cr⟩

/-- The draws set aside for one lane (a lane function takes 17). -/
def drawsPerLane : Nat := 32

/-- A lane function applied lane by lane; no lane reads another (R175, R186). The draws start at `d`. -/
def mapLanes (lane : Nat → Word → Word → Word → Ycc) (d : Nat) : List Word → List Word → List Word → List Ycc
  | r :: rs, g :: gs, b :: bs => lane d r g b :: mapLanes lane (d + drawsPerLane) rs gs bs
  | _, _, _ => []

end Sys2Proof.Machine
end

