-- ==== Sys2Proof/Machine/State.lean ====
section
/-! DEFINITION. The state of the block, of the memory behind its memory port, and of its inputs, as plain data
(spec/10_state.md; INVENTORY.md lists every piece with its rule and its reset value). -/

namespace Sys2Proof.Machine

/-- Memory behind the memory port (R70): (address, byte) pairs at strictly rising addresses, no entry equal to what an
unlisted address reads as (`unlistedByte` of Machine/Memory.lean). -/
abbrev Memory := List Host.Cell

/-- The bytes at `base` to `base + size - 1`; no byte when `size = 0`. -/
structure Region where
  base : Nat
  size : Nat
  deriving DecidableEq, Repr

/-- A register pair `P_LO`, `P_HI` (R47, R50, R51). -/
structure AddrPair where
  lo : Word
  hi : Word
  deriving DecidableEq, Repr

/-- The seven base register pairs (R50, R51). -/
structure Bases where
  c0 : AddrPair
  c1 : AddrPair
  c2 : AddrPair
  c3 : AddrPair
  r : AddrPair
  g : AddrPair
  b : AddrPair
  deriving DecidableEq, Repr

/-- The error codes (R221). Codes 8 to 15 are never produced, so they are no values here (notes/assumptions/18.md). -/
inductive Ecode where
  | none
  | illegalCmd
  | badView
  | badLen
  | sliceRange
  | misaligned
  | addrRange
  | busError
  deriving DecidableEq, Repr

/-- The stored fields of STATUS (R45); BUSY is the phase (R33). -/
structure Status where
  done : Bool
  err : Bool
  ovr : Bool
  ecode : Ecode
  deriving DecidableEq, Repr

/-- The values a conversion latches when it is issued (R33, R187), in the form its loops use: units 0 to `chunks - 1` are
vector chunks of `lanes` samples (R188), then come `tail` scalar elements (R157, R191). -/
structure Plan where
  /-- Access bases of the inputs (R188, R194). -/
  aR : Nat
  aG : Nat
  aB : Nat
  /-- Access bases of the outputs (R188, R194). -/
  a0 : Nat
  a1 : Nat
  a2 : Nat
  /-- The effective bases of the outputs (R33, R131). -/
  e0 : Nat
  e1 : Nat
  e2 : Nat
  /-- The view is grayscale (R132). -/
  gray : Bool
  /-- `H` (R151, R187). -/
  half : Word
  /-- The selector `f` (R106, R173). -/
  fused : Bool
  /-- LEN. -/
  len : Nat
  /-- `W` (R106). -/
  lanes : Nat
  /-- `C` (R185); 0 for `cvt.s`. -/
  chunks : Nat
  /-- Scalar elements after the chunks: L for `cvt.s`, `L - C·W` for the `.t` commands, else 0. -/
  tail : Nat
  deriving DecidableEq, Repr

/-- The six requests of a unit, in the reference order of R82. -/
inductive Stage where
  | readR
  | readG
  | readB
  | writeY
  | writeCb
  | writeCr
  deriving DecidableEq, Repr

/-- The internal command state of a running conversion (R33). -/
structure Run where
  /-- The decoded operation of the current command word, which is `encode cmd`. -/
  cmd : Instr
  plan : Plan
  /-- The loop index: chunks first, then tail elements. -/
  unit : Nat
  /-- The unit's next request, or the one whose answer is outstanding. -/
  stage : Stage
  /-- The samples the current unit has read (R54). -/
  rv : List Word
  gv : List Word
  bv : List Word
  /-- Another agent has broken R90 since the issue (the model's own mark, notes/assumptions/11.md). -/
  raced : Bool
  deriving DecidableEq, Repr

/-- `phase` (R33). `STATUS.BUSY` is 1 exactly in RUN. -/
inductive Phase where
  | idle
  | run (r : Run)
  deriving DecidableEq, Repr

/-- The two kinds of memory request (R79). -/
inductive AccessKind where
  | read
  | write
  deriving DecidableEq, Repr

/-- A request on the memory port: `bytes` bytes from `addr` (R79). -/
structure Request where
  kind : AccessKind
  addr : Nat
  bytes : Nat
  deriving DecidableEq, Repr

/-- What becomes of a request (R79, R235). -/
inductive Answer where
  | ok
  | error
  | never
  deriving DecidableEq, Repr

/-- A row of the platform's answers: a request of this kind that touches the region gets `answer`; a row with
`onlyUnaligned` speaks only of requests whose address is no multiple of their width (R75). -/
structure AnswerRow where
  kind : AccessKind
  region : Region
  onlyUnaligned : Bool
  answer : Answer
  deriving DecidableEq, Repr

/-- What the platform does behind the memory port (R79, R80, R235); an input, not the block's state
(notes/assumptions/8.md). -/
structure Platform where
  /-- The first row that speaks of a request answers it; without one the answer is OK. -/
  answers : List AnswerRow
  /-- Memory whose reads have side effects (R77). -/
  devices : List Region
  /-- Memory that the caller of the commands does not own (R264). -/
  foreign : List Region
  deriving DecidableEq, Repr

/-- A running conversion of another instance of the block: the bytes it reads, the bytes it writes, and whether another
running command or this block's breaks R91 with it (R91; notes/assumptions/23.md). -/
structure PeerRun where
  block : Nat
  reads : List Region
  writes : List Region
  raced : Bool
  deriving DecidableEq, Repr

/-- How far the running command gets before the next input lands (R272, R273; notes/assumptions/6.md). -/
inductive Progress where
  | toEnd
  | actions (n : Nat)
  deriving DecidableEq, Repr

/-- What comes between two polls of a host's `wait`: how many inputs that are no register-port access land, and how far the
running command gets after the second poll (R109, R272; notes/assumptions/19.md). -/
structure Pause where
  others : Nat
  progress : Progress
  deriving DecidableEq, Repr

/-- What the outside does (INVENTORY.md, Host interface). -/
inductive Event where
  /-- A register-port read of `size` bytes at a byte offset of the window (R37). -/
  | regRead (offset : BitVec 8) (size : Nat)
  /-- A register-port write (R37). -/
  | regWrite (offset : BitVec 8) (size : Nat) (value : Word)
  /-- The host's `wait`: poll STATUS until BUSY reads 0 (R108, R109), with what comes before each further poll. -/
  | wait (pauses : List Pause)
  /-- Another agent reads `n` bytes of memory (R84, R90, R91). -/
  | memRead (addr n : Nat)
  /-- Another agent's write to memory is performed (R84, R90, R91). -/
  | memWrite (addr : Nat) (bytes : List Byte)
  /-- A conversion that reads and writes these bytes starts to run in another instance of the block (R91). -/
  | peerStart (block : Nat) (reads writes : List Region)
  /-- The conversion of that instance ends (R91). -/
  | peerEnd (block : Nat)
  /-- `rst_n` is sampled at this level (R260). -/
  | resetPin (level : Bool)
  /-- The platform changes what it does. -/
  | platform (p : Platform)
  deriving DecidableEq, Repr

/-- An input, and how far the running command gets before the one after it. -/
structure Input where
  event : Event
  progress : Progress
  deriving DecidableEq, Repr

/-- The last answer given to the outside (R37; the model's own field, notes/assumptions/16.md). -/
inductive Response where
  /-- No access has been answered since reset. -/
  | none
  | ok
  | error
  | data (value : Word)
  | bytes (values : List Byte)
  deriving DecidableEq, Repr

/-- The machine. -/
structure State where
  /-- The parameters of the instance (R9 to R12). -/
  params : Params
  /-- CFG.PRECISION (R41). -/
  precision : BitVec 6
  /-- STATUS without BUSY (R45). -/
  status : Status
  /-- FAULT_ADDR (R47). -/
  faultAddr : AddrPair
  /-- VIEW_COUNT.COUNT (R48). -/
  viewCount : BitVec 3
  /-- VIEW_LEN (R49). -/
  viewLen : Word
  /-- The base pairs (R50, R51). -/
  bases : Bases
  /-- RGB_LEN (R52). -/
  rgbLen : Word
  /-- SLICE_START (R53). -/
  sliceStart : Word
  /-- SLICE_LEN (R53). -/
  sliceLen : Word
  /-- The internal command state (R33). -/
  phase : Phase
  /-- Memory (R70). -/
  mem : Memory
  /-- The level of the `rst_n` input (R6, R260). -/
  rstN : Bool
  /-- The last answer to the outside. -/
  response : Response
  /-- What the outside does next, in order (R110). -/
  inputs : List Input
  /-- How far the running command gets before the next input lands. -/
  progress : Progress
  /-- The platform behind the memory port. -/
  platform : Platform
  /-- The running conversions of other instances of the block (R91). -/
  peers : List PeerRun
  /-- The next draw of `Config.nanResult` (R23). -/
  nanDraws : Nat
  /-- The next draw of `Config.anyByte` (R88, R90, R230, R261). -/
  byteDraws : Nat
  deriving DecidableEq, Repr

/-- Why the machine stops. The block itself never stops: its errors are next states (R220). -/
inductive Fault where
  /-- Raised by another agent's memory access, or another instance's command, that passes the top of the address
  space (R70). Safe: no such byte exists,
  and the spec does not say what the platform does there (notes/assumptions/11.md). -/
  | memoryAccessBeyondSpace
  deriving DecidableEq, Repr

/-- Why the machine refuses to go on. -/
inductive Refusal where
  /-- Raised by `exec` for an instruction that has no meaning yet; no arm of `exec` is left so. Safe. -/
  | notModelled (mnemonic : String)
  /-- Raised when a running conversion has a plane on memory with read side effects: "a model refuses such a command"
  (R77). Safe (notes/assumptions/10.md). -/
  | planeOnDevice
  /-- Raised by another agent's access, or another instance's command, to memory with read side effects, whose
  behaviour the spec does not give. Safe
  (notes/assumptions/10.md). -/
  | accessToDevice
  deriving DecidableEq, Repr

/-- Everything reset sets, for an instance with parameters `p` (R57, R260): the register fields, the phase; and the
model's own fields at the values of notes/assumptions. -/
def State.resetOf (p : Params) : State where
  params := p
  precision := 32
  status := ⟨false, false, false, .none⟩
  faultAddr := ⟨0, 0⟩
  viewCount := 0
  viewLen := 0
  bases := ⟨⟨0, 0⟩, ⟨0, 0⟩, ⟨0, 0⟩, ⟨0, 0⟩, ⟨0, 0⟩, ⟨0, 0⟩, ⟨0, 0⟩⟩
  rgbLen := 0
  sliceStart := 0
  sliceLen := 0
  phase := .idle
  mem := []
  rstN := true
  response := .none
  inputs := []
  progress := .toEnd
  platform := ⟨[], [], []⟩
  peers := []
  nanDraws := 0
  byteDraws := 0

/-- The machine right after reset (R57, R260, R262). -/
def State.reset : State := State.resetOf Config.params

end Sys2Proof.Machine
end

