-- ==== Sys2Proof/Machine/Memory.lean ====
section
/-! DEFINITION. Memory behind the memory port, little-endian samples, byte regions, and the platform's answers
(spec/20_memory.md). -/

namespace Sys2Proof.Machine

/-- What an address that memory does not list reads as (DESIGN CHOICE, notes/assumptions/4.md). -/
def unlistedByte : Byte := 0

/-- The byte at an address (R70). -/
def Memory.read : Memory → Nat → Byte
  | [], _ => unlistedByte
  | (k, v) :: m, a => if k = a then v else Memory.read m a

/-- Write one byte, keeping the canonical form (R70). -/
def Memory.put : Memory → Nat → Byte → Memory
  | [], a, v => if v = unlistedByte then [] else [(a, v)]
  | (k, w) :: m, a, v =>
    if a < k then (if v = unlistedByte then (k, w) :: m else (a, v) :: (k, w) :: m)
    else if a = k then (if v = unlistedByte then m else (a, v) :: m)
    else (k, w) :: Memory.put m a v

/-- The canonical form from a lower bound on the addresses. -/
def Memory.wfFrom : Nat → Memory → Bool
  | _, [] => true
  | lo, (k, v) :: m => lo ≤ k && v != unlistedByte && Memory.wfFrom (k + 1) m

/-- The canonical form: addresses strictly rising, no entry equal to what an unlisted address reads as. -/
def Memory.wf (m : Memory) : Bool := m.wfFrom 0

/-- Every listed address lies below `top` (R70). -/
def Memory.fits (m : Memory) (top : Nat) : Bool := m.all (fun c => c.1 < top)

/-- `MemRead(a, 4)`: one sample, little-endian (R71). -/
def Memory.readWord (m : Memory) (a : Nat) : Word :=
  (m.read (a + 3) ++ m.read (a + 2) ++ m.read (a + 1) ++ m.read a : BitVec 32)

/-- `MemWrite(a, 4, v)`: one sample, little-endian (R71). -/
def Memory.writeWord (m : Memory) (a : Nat) (v : Word) : Memory :=
  (((m.put a (v.extractLsb' 0 8)).put (a + 1) (v.extractLsb' 8 8)).put (a + 2) (v.extractLsb' 16 8)).put (a + 3)
    (v.extractLsb' 24 8)

/-- The lanes of a vector read: lane `l` is the sample at `a + 4l` (R71). -/
def Memory.readLanes (m : Memory) (a : Nat) : Nat → List Word
  | 0 => []
  | n + 1 => m.readWord a :: m.readLanes (a + 4) n

/-- A vector write: lane `l` goes to `a + 4l` (R71). -/
def Memory.writeLanes (m : Memory) (a : Nat) : List Word → Memory
  | [] => m
  | v :: vs => (m.writeWord a v).writeLanes (a + 4) vs

/-- The bytes at `a` to `a + n - 1`. -/
def Memory.readBytes (m : Memory) (a : Nat) : Nat → List Byte
  | 0 => []
  | n + 1 => m.read a :: m.readBytes (a + 1) n

/-- Write bytes from `a` up. -/
def Memory.writeBytes (m : Memory) (a : Nat) : List Byte → Memory
  | [] => m
  | v :: vs => (m.put a v).writeBytes (a + 1) vs

/-- `n` drawn bytes, the draws from `d` up. -/
def anyBytes (d : Nat) : Nat → List Byte
  | 0 => []
  | n + 1 => Config.anyByte d :: anyBytes (d + 1) n

/-- Does the region hold this address? -/
def Region.holds (g : Region) (a : Nat) : Bool := g.base ≤ a && a < g.base + g.size

/-- Do two regions share a byte? -/
def Region.meets (g h : Region) : Bool :=
  g.size != 0 && h.size != 0 && g.base < h.base + h.size && h.base < g.base + g.size

/-- The bytes two regions share. -/
def Region.inter (g h : Region) : Region :=
  let lo := max g.base h.base
  ⟨lo, min (g.base + g.size) (h.base + h.size) - lo⟩

/-- The region without its first `n` bytes. -/
def Region.dropBytes (g : Region) (n : Nat) : Region := ⟨g.base + n, g.size - n⟩

/-- Does some region of the list hold this address? -/
def regionsHold (gs : List Region) (a : Nat) : Bool := gs.any (·.holds a)

/-- Does some region of one list share a byte with some region of the other? -/
def regionsMeet (gs hs : List Region) : Bool := gs.any (fun g => hs.any (g.meets ·))

/-- How many bytes a list of regions names. -/
def regionsSize (gs : List Region) : Nat := (gs.map (·.size)).sum

/-- Make every byte of the regions any value, the draws from `d` up (notes/assumptions/3.md). -/
def Memory.anyAt (m : Memory) (d : Nat) : List Region → Memory
  | [] => m
  | g :: gs => (m.writeBytes g.base (anyBytes d g.size)).anyAt (d + g.size) gs

/-- The size of the memory space in bytes, `2^ADDR_W` (R56, R70). -/
def addrSpace (p : Params) : Nat :=
  match p.addrW with
  | .w32 => 2 ^ 32
  | .w64 => 2 ^ 64

/-- The bytes of a request (R79). -/
def Request.region (q : Request) : Region := ⟨q.addr, q.bytes⟩

/-- Does a row of the platform's answers speak of this request (R75, R79)? -/
def AnswerRow.speaksOf (row : AnswerRow) (q : Request) : Bool :=
  row.kind == q.kind && row.region.meets q.region && (!row.onlyUnaligned || q.addr % q.bytes != 0)

/-- What becomes of a request (R79, R80, R235). No memory exists beyond the address space to admit one
(notes/assumptions/8.md). -/
def answer (p : Params) (pf : Platform) (q : Request) : Answer :=
  if addrSpace p < q.addr + q.bytes then .error
  else match pf.answers.find? (·.speaksOf q) with
    | none => .ok
    | some row => row.answer

end Sys2Proof.Machine
end

