-- ==== Sys2Proof/Machine/Operands.lean ====
section
/-! DEFINITION. The operands of a command, read from the descriptor registers when it is issued: bases, effective bases,
lengths, HALF, the access bases and loop counts, the accessed ranges (spec/30_encoding.md R105, R106, spec/40_view.md R131,
spec/10_state.md R42, spec/43_vector.md R185, R194 to R197). -/

namespace Sys2Proof.Machine

/-- `2^P - 1` (R42). -/
def maxValue (p : BitVec 6) : Nat := 2 ^ p.toNat - 1

/-- `HALF = ceil(MAX_VALUE / 2)`, in exact integer arithmetic (R42). -/
def halfInt (p : BitVec 6) : Nat := (maxValue p + 1) / 2

/-- The HALF register: the binary32 encoding of that integer (R42). -/
def halfWord (p : BitVec 6) : Word := round32 false (halfInt p * 2 ^ 149) 149

/-- `W_W` (R10). -/
def wideLanes (p : Params) : Nat := p.wideMult * p.wN

/-- The 64-bit value of a register pair (R47, R50). -/
def AddrPair.toNat (a : AddrPair) : Nat := a.hi.toNat * 2 ^ 32 + a.lo.toNat

/-- The register pair that holds an address. -/
def AddrPair.ofNat (n : Nat) : AddrPair := ⟨BitVec.ofNat 32 n, BitVec.ofNat 32 (n / 2 ^ 32)⟩

/-- The pair of a plane (R50, R51). -/
def Bases.get (bs : Bases) : Plane → AddrPair
  | .c0 => bs.c0
  | .c1 => bs.c1
  | .c2 => bs.c2
  | .c3 => bs.c3
  | .r => bs.r
  | .g => bs.g
  | .b => bs.b

/-- Replace the pair of a plane. -/
def Bases.set (bs : Bases) (p : Plane) (a : AddrPair) : Bases :=
  match p with
  | .c0 => { bs with c0 := a }
  | .c1 => { bs with c1 := a }
  | .c2 => { bs with c2 := a }
  | .c3 => { bs with c3 := a }
  | .r => { bs with r := a }
  | .g => { bs with g := a }
  | .b => { bs with b := a }

/-- `base(P)`: the pair truncated to ADDR_W bits (R16). -/
def State.base (s : State) (p : Plane) : Nat := (s.bases.get p).toNat % addrSpace s.params

/-- `n = x[VIEW_COUNT].COUNT` (R131). -/
def State.count (s : State) : Nat := s.viewCount.toNat

/-- `L = x[VIEW_LEN]` (R131). -/
def State.len (s : State) : Nat := s.viewLen.toNat

/-- `gray = (n = 1)` (R132). -/
def State.gray (s : State) : Bool := s.count == 1

/-- `eff0` (R131). -/
def State.eff0 (s : State) : Nat := s.base .c0

/-- `eff1` (R131). -/
def State.eff1 (s : State) : Nat := if 2 ≤ s.count then s.base .c1 else s.base .c0

/-- `eff2` (R131). -/
def State.eff2 (s : State) : Nat := if 3 ≤ s.count then s.base .c2 else s.base .c0

/-- The spans a view has, in order (R131, R136). -/
def State.spans (s : State) : List Plane :=
  [.c0] ++ (if 2 ≤ s.count then [.c1] else []) ++ (if 3 ≤ s.count then [.c2] else []) ++
    (if s.count = 4 then [.c3] else [])

/-- The unrounded bases a conversion uses, in the order of R224: R, G, B, c0, and c1, c2 unless grayscale. -/
def State.usedBases (s : State) : List Nat :=
  [s.base .r, s.base .g, s.base .b, s.eff0] ++ (if s.gray then [] else [s.eff1, s.eff2])

/-- `roundup(a, m)` (R15, R195). -/
def roundup (a m : Nat) : Nat := (a + m - 1) / m * m

/-- The values `cvt.s` latches (R157). -/
def scalarPlan (s : State) : Plan where
  aR := s.base .r
  aG := s.base .g
  aB := s.base .b
  a0 := s.eff0
  a1 := s.eff1
  a2 := s.eff2
  e0 := s.eff0
  e1 := s.eff1
  e2 := s.eff2
  gray := s.gray
  half := halfWord s.precision
  fused := false
  len := s.len
  lanes := 1
  chunks := 0
  tail := s.len

/-- The values a natural vector command with `w` lanes and selector `f` latches (R189 to R192); with `t`, the elements
after the last chunk are the scalar tail. -/
def naturalPlan (s : State) (w : Nat) (f t : Bool) : Plan where
  aR := s.base .r
  aG := s.base .g
  aB := s.base .b
  a0 := s.eff0
  a1 := s.eff1
  a2 := s.eff2
  e0 := s.eff0
  e1 := s.eff1
  e2 := s.eff2
  gray := s.gray
  half := halfWord s.precision
  fused := f
  len := s.len
  lanes := w
  chunks := s.len / w
  tail := if t then s.len - s.len / w * w else 0

/-- The values an alignment-forced command latches (R194, R198, R199). -/
def alignedPlan (s : State) (w : Nat) (f : Bool) : Plan where
  aR := roundup (s.base .r) (4 * w)
  aG := roundup (s.base .g) (4 * w)
  aB := roundup (s.base .b) (4 * w)
  a0 := roundup s.eff0 (4 * w)
  a1 := roundup s.eff1 (4 * w)
  a2 := roundup s.eff2 (4 * w)
  e0 := s.eff0
  e1 := s.eff1
  e2 := s.eff2
  gray := s.gray
  half := halfWord s.precision
  fused := f
  len := s.len
  lanes := w
  chunks := s.len / w
  tail := 0

/-- The units of the loops: chunks, then tail elements (R230). -/
def Plan.units (p : Plan) : Nat := p.chunks + p.tail

/-- The samples of each plane that the command accesses, from its access base (R196, R197). -/
def Plan.samples (p : Plan) : Nat := p.chunks * p.lanes + p.tail

/-- The access bases of the planes used, in the order of R224. -/
def Plan.accessBases (p : Plan) : List Nat :=
  [p.aR, p.aG, p.aB, p.a0] ++ (if p.gray then [] else [p.a1, p.a2])

/-- `RS`: the bytes the command reads (R88, R197). -/
def Plan.readRegions (p : Plan) : List Region :=
  [⟨p.aR, 4 * p.samples⟩, ⟨p.aG, 4 * p.samples⟩, ⟨p.aB, 4 * p.samples⟩]

/-- `WY`, `WCB`, `WCR`: the bytes the command writes (R88, R133, R197). -/
def Plan.writeRegions (p : Plan) : List Region :=
  ⟨p.a0, 4 * p.samples⟩ :: (if p.gray then [] else [⟨p.a1, 4 * p.samples⟩, ⟨p.a2, 4 * p.samples⟩])

/-- Every byte the command accesses. -/
def Plan.regions (p : Plan) : List Region := p.readRegions ++ p.writeRegions

/-- Two of the regions share a byte. -/
def regionsOverlap : List Region → Bool
  | [] => false
  | g :: gs => gs.any (g.meets ·) || regionsOverlap gs

/-- The spans c0, c1 and c2 of the view, each LEN samples from its effective base (R72, R131); c0 alone in a grayscale view,
where c1 and c2 alias it (R138). -/
def Plan.viewSpans (p : Plan) : List Region :=
  ⟨p.e0, 4 * p.len⟩ :: (if p.gray then [] else [⟨p.e1, 4 * p.len⟩, ⟨p.e2, 4 * p.len⟩])

/-- The undefined aliasing: a byte read is also written, or two output planes meet (R88), or two spans of the view overlap,
be it only in samples that the command does not access (R138; notes/assumptions/24.md). -/
def Plan.aliased (p : Plan) : Bool :=
  regionsMeet p.readRegions p.writeRegions || regionsOverlap p.writeRegions || regionsOverlap p.viewSpans

end Sys2Proof.Machine
end

