-- ==== Sys2Proof/Machine/Flags.lean ====
section
/-! DEFINITION. STATUS, the block's only flag state: its word, its write-one-to-clear bits, and the three ways a command
changes it (spec/10_state.md R45, R46; spec/60_exceptions.md R221, R225, R228, R231, R236). -/

namespace Sys2Proof.Machine

/-- The ECODE of an error name (R221). -/
def Ecode.code : Ecode → BitVec 4
  | .none => 0
  | .illegalCmd => 1
  | .badView => 2
  | .badLen => 3
  | .sliceRange => 4
  | .misaligned => 5
  | .addrRange => 6
  | .busError => 7

/-- `STATUS.BUSY`: 1 exactly while phase = RUN (R33, R45). -/
def State.busy (s : State) : Bool :=
  match s.phase with
  | .idle => false
  | .run _ => true

/-- The word read from STATUS (R45). -/
def State.statusWord (s : State) : Word :=
  (0#24 ++ s.status.ecode.code ++ BitVec.ofBool s.status.ovr ++ BitVec.ofBool s.status.err ++
    BitVec.ofBool s.status.done ++ BitVec.ofBool s.busy : BitVec 32)

/-- A write to STATUS (R45): a 1 clears DONE, ERR or OVR; clearing ERR also sets ECODE to 0. -/
def Status.clearedBy (st : Status) (v : Word) : Status where
  done := st.done && !v.getLsbD 1
  err := st.err && !v.getLsbD 2
  ovr := st.ovr && !v.getLsbD 3
  ecode := if v.getLsbD 2 then .none else st.ecode

/-- A discarded write sets OVR (R40). -/
def State.setOvr (s : State) : State := { s with status := { s.status with ovr := true } }

/-- The first effects of an issue: DONE, ERR, ECODE and FAULT_ADDR are cleared (R225). -/
def State.clearedForIssue (s : State) : State :=
  { s with status := { s.status with done := false, err := false, ecode := .none }, faultAddr := ⟨0, 0⟩ }

/-- STATUS after `raise Error(code, …)` (R228). -/
def Status.failed (st : Status) (c : Ecode) : Status := { st with err := true, ecode := c }

/-- STATUS after `EndOK()` (R231). -/
def Status.succeeded (st : Status) : Status := { st with done := true }

/-- The output `cmd_end_o` (R236). -/
def State.cmdEndO (s : State) : Bool := s.status.done || s.status.err

end Sys2Proof.Machine
end

