-- ==== Sys2Proof/Machine/Ops.lean ====
section
/-! DEFINITION. The named operations: ending a command with an error (the block's only exception), the checks of an issue,
the register file behind the register port, reset (spec/60_exceptions.md, spec/10_state.md R34 to R53, spec/40_view.md R136,
spec/70_reset_and_hazards.md R260). -/

namespace Sys2Proof.Machine

/-- `raise Error(code, addr)` (R228): the block's exception. It saves the code in STATUS and the address in FAULT_ADDR, sets
ERR and goes IDLE. There is no handler and no return (R232, R233): the host acknowledges with `Status.clearedBy`. -/
def State.raiseError (s : State) (c : Ecode) (addr : Nat) : State :=
  { s with status := s.status.failed c, faultAddr := AddrPair.ofNat addr, phase := .idle }

/-- `EndOK()` (R231). -/
def State.endOk (s : State) : State := { s with phase := .idle, status := s.status.succeeded }

/-- Every byte of the regions takes any value (R88, R90, R230, R261, R264). -/
def State.anyIn (s : State) (gs : List Region) : State :=
  { s with mem := s.mem.anyAt s.byteDraws gs, byteDraws := s.byteDraws + regionsSize gs }

/-- The view check of every command (R130, R222). -/
def State.badView (s : State) : Bool := s.count < 1 || 4 < s.count || s.len == 0

/-- The first plane base that is not a multiple of 4, in the order of R224. -/
def State.firstMisaligned (s : State) : Option Nat := s.usedBases.find? (fun b => b % 4 != 0)

/-- The base of the first plane whose non-empty range passes the top of the address space, in the order of R224 (R78). -/
def State.firstOutOfRange (s : State) (p : Plan) : Option Nat :=
  ((s.usedBases.zip p.accessBases).find?
    (fun ba => p.samples != 0 && addrSpace s.params < ba.2 + 4 * p.samples)).map (·.1)

/-- The checks of a conversion, in the order of R226 (R222 to R224): the error and its fault address. -/
def State.validate (s : State) (p : Plan) : Option (Ecode × Nat) :=
  if s.badView || s.count == 2 then some (.badView, 0)
  else if s.rgbLen.toNat < s.len then some (.badLen, 0)
  else match s.firstMisaligned with
    | some b => some (.misaligned, b)
    | none =>
      match s.firstOutOfRange p with
      | some b => some (.addrRange, b)
      | none => none

/-- The first present span whose slice would pass the top of the address space (R136). -/
def State.firstSpanOutOfRange (s : State) : Option Plane :=
  s.spans.find? (fun p => addrSpace s.params < s.base p + 4 * (s.sliceStart.toNat + s.sliceLen.toNat))

/-- The checks of SLICE, in the order of R136 and R226; the sum does not wrap. -/
def State.validateSlice (s : State) : Option (Ecode × Nat) :=
  if s.badView then some (.badView, 0)
  else if s.sliceLen.toNat = 0 || s.len < s.sliceStart.toNat + s.sliceLen.toNat then some (.sliceRange, 0)
  else match s.firstSpanOutOfRange with
    | some p => some (.addrRange, s.base p)
    | none => none

/-- The base pairs after SLICE: each present span moves up by `4·s` bytes (R136). -/
def State.slicedBases (s : State) : Bases :=
  s.spans.foldl (fun bs p => bs.set p (AddrPair.ofNat (s.base p + 4 * s.sliceStart.toNat))) s.bases

/-- The effect of a SLICE that passes its checks (R136); BUSY never becomes 1. -/
def State.sliced (s : State) : State :=
  { s with bases := s.slicedBases, viewLen := s.sliceLen, status := s.status.succeeded }

end Sys2Proof.Machine

namespace Sys2Proof

/-- The byte offset of a register (R34). -/
def Reg.offset : Reg → BitVec 8
  | .id => 0x00
  | .cap => 0x04
  | .cfg => 0x08
  | .half => 0x0C
  | .cmd => 0x10
  | .status => 0x14
  | .faultAddrLo => 0x18
  | .faultAddrHi => 0x1C
  | .viewCount => 0x20
  | .viewLen => 0x24
  | .baseLo .c0 => 0x28
  | .baseHi .c0 => 0x2C
  | .baseLo .c1 => 0x30
  | .baseHi .c1 => 0x34
  | .baseLo .c2 => 0x38
  | .baseHi .c2 => 0x3C
  | .baseLo .c3 => 0x40
  | .baseHi .c3 => 0x44
  | .baseLo .r => 0x48
  | .baseHi .r => 0x4C
  | .baseLo .g => 0x50
  | .baseHi .g => 0x54
  | .baseLo .b => 0x58
  | .baseHi .b => 0x5C
  | .rgbLen => 0x60
  | .sliceStart => 0x64
  | .sliceLen => 0x68

/-- The 27 registers of R34, in order. -/
def Reg.all : List Reg :=
  [.id, .cap, .cfg, .half, .cmd, .status, .faultAddrLo, .faultAddrHi, .viewCount, .viewLen,
   .baseLo .c0, .baseHi .c0, .baseLo .c1, .baseHi .c1, .baseLo .c2, .baseHi .c2, .baseLo .c3, .baseHi .c3,
   .baseLo .r, .baseHi .r, .baseLo .g, .baseHi .g, .baseLo .b, .baseHi .b, .rgbLen, .sliceStart, .sliceLen]

/-- The register at a word offset; none at the reserved offsets (R34, R39). -/
def Reg.ofOffset (o : BitVec 8) : Option Reg := Reg.all.find? (fun r => r.offset == o)

/-- The access column of R34 is RW. -/
def Reg.isRW : Reg → Bool
  | .cfg | .viewCount | .viewLen | .baseLo _ | .baseHi _ | .rgbLen | .sliceStart | .sliceLen => true
  | .id | .cap | .half | .cmd | .status | .faultAddrLo | .faultAddrHi => false

end Sys2Proof

namespace Sys2Proof.Machine

/-- The CAP register (R36). -/
def capWord (p : Params) : Word :=
  (0#13 ++ BitVec.ofBool (p.addrW == .w64) ++ BitVec.ofBool p.hasFmaW ++ BitVec.ofBool p.hasFmaN ++
    BitVec.ofNat 8 (wideLanes p) ++ BitVec.ofNat 8 p.wN : BitVec 32)

/-- A `_HI` register reads 0 when ADDR_W = 32 (R47, R50). -/
def hiWord (p : Params) (a : AddrPair) : Word :=
  match p.addrW with
  | .w32 => 0
  | .w64 => a.hi

/-- `x[NAME]`: the word read from a register (R35 to R53); reserved bits read 0 (R38). -/
def State.readReg (s : State) : Reg → Word
  | .id => s.params.idValue
  | .cap => capWord s.params
  | .cfg => s.precision.setWidth 32
  | .half => halfWord s.precision
  | .cmd => 0
  | .status => s.statusWord
  | .faultAddrLo => s.faultAddr.lo
  | .faultAddrHi => hiWord s.params s.faultAddr
  | .viewCount => s.viewCount.setWidth 32
  | .viewLen => s.viewLen
  | .baseLo p => (s.bases.get p).lo
  | .baseHi p => hiWord s.params (s.bases.get p)
  | .rgbLen => s.rgbLen
  | .sliceStart => s.sliceStart
  | .sliceLen => s.sliceLen

/-- Writing the high word of a base pair: ignored when ADDR_W = 32 (R50). -/
def State.writeHi (s : State) (p : Plane) (v : Word) : State :=
  match s.params.addrW with
  | .w32 => s
  | .w64 => { s with bases := s.bases.set p { s.bases.get p with hi := v } }

/-- A write that is not discarded: reserved bits and read-only registers ignore it (R35 to R53, R38). CMD is not stored
(R44): its write issues a command, in Machine/Port.lean. -/
def State.storeReg (s : State) (r : Reg) (v : Word) : State :=
  match r with
  | .id | .cap | .half | .cmd | .faultAddrLo | .faultAddrHi => s
  | .cfg => { s with precision := v.setWidth 6 }
  | .status => { s with status := s.status.clearedBy v }
  | .viewCount => { s with viewCount := v.setWidth 3 }
  | .viewLen => { s with viewLen := v }
  | .baseLo p => { s with bases := s.bases.set p { s.bases.get p with lo := v } }
  | .baseHi p => s.writeHi p v
  | .rgbLen => { s with rgbLen := v }
  | .sliceStart => { s with sliceStart := v }
  | .sliceLen => { s with sliceLen := v }

/-- `x[NAME] <- v` from the register port, for every register but CMD: while BUSY = 1 a write to an RW register is discarded
and sets OVR (R40; with ADDR_W = 32 the `_HI` registers too, notes/assumptions/15.md). -/
def State.writeReg (s : State) (r : Reg) (v : Word) : State :=
  if s.busy && r.isRW then s.setOvr else s.storeReg r v

end Sys2Proof.Machine
end

