-- ==== Sys2Proof/Machine/Engine.lean ====
section
/-! DEFINITION. The command engine: the requests of a running conversion in the reference order, one action at a time, its
ends, and the issue of a conversion (spec/20_memory.md R73, R82, R88; spec/41_scalar.md R157; spec/43_vector.md R188;
spec/60_exceptions.md R225 to R235). -/

namespace Sys2Proof.Machine

/-- Reads come first, then writes (R82). -/
def Stage.kind : Stage → AccessKind
  | .readR | .readG | .readB => .read
  | .writeY | .writeCb | .writeCr => .write

/-- The access base of a stage's plane (R188). -/
def Plan.stageBase (p : Plan) : Stage → Nat
  | .readR => p.aR
  | .readG => p.aG
  | .readB => p.aB
  | .writeY => p.a0
  | .writeCb => p.a1
  | .writeCr => p.a2

/-- How many samples a unit moves: W for a chunk, 1 for an element (R157, R188). -/
def Plan.unitLanes (p : Plan) (u : Nat) : Nat := if u < p.chunks then p.lanes else 1

/-- The index of a unit's first sample, counted from the access base: `W·k` for chunk k, `C·W` on for the tail (R188, R191). -/
def Plan.unitStart (p : Plan) (u : Nat) : Nat :=
  if u < p.chunks then p.lanes * u else p.chunks * p.lanes + (u - p.chunks)

/-- The request of a stage of a unit (R73, R157, R188). -/
def Plan.request (p : Plan) (u : Nat) (st : Stage) : Request :=
  ⟨st.kind, p.stageBase st + 4 * p.unitStart u, 4 * p.unitLanes u⟩

/-- The lane function of a unit: vector in chunks, scalar elsewhere (R157, R181, R191). -/
def Plan.lane (p : Plan) (u d : Nat) (r g b : Word) : Ycc :=
  if u < p.chunks then vecLane d r g b p.half p.fused else scalarLane d r g b p.half

/-- The unit's next request. -/
def Run.request (r : Run) : Request := r.plan.request r.unit r.stage

/-- The unit's results, lane by lane, with the draws from `d` up (R157, R188). -/
def Run.results (r : Run) (d : Nat) : List Ycc := mapLanes (r.plan.lane r.unit) d r.rv r.gv r.bv

/-- The loop goes on to the next unit. -/
def Run.nextUnit (r : Run) : Run := { r with unit := r.unit + 1, stage := .readR, rv := [], gv := [], bv := [] }

/-- The unit is done. -/
def State.endUnit (s : State) (r : Run) : State :=
  { s with phase := .run r.nextUnit, nanDraws := s.nanDraws + drawsPerLane * r.plan.unitLanes r.unit }

/-- The write of one output plane of the unit (R157, R188). -/
def State.storeResults (s : State) (r : Run) (pick : Ycc → Word) : State :=
  { s with mem := s.mem.writeLanes r.request.addr ((r.results s.nanDraws).map pick) }

/-- A request answered OK is performed, and the next one is due (R82); a grayscale view writes Y only (R133). -/
def State.perform (s : State) (r : Run) : State :=
  let q := r.request
  let n := r.plan.unitLanes r.unit
  match r.stage with
  | .readR => { s with phase := .run { r with rv := s.mem.readLanes q.addr n, stage := .readG } }
  | .readG => { s with phase := .run { r with gv := s.mem.readLanes q.addr n, stage := .readB } }
  | .readB => { s with phase := .run { r with bv := s.mem.readLanes q.addr n, stage := .writeY } }
  | .writeY =>
    if r.plan.gray then (s.storeResults r Ycc.y).endUnit r
    else { s.storeResults r Ycc.y with phase := .run { r with stage := .writeCb } }
  | .writeCb => { s.storeResults r Ycc.cb with phase := .run { r with stage := .writeCr } }
  | .writeCr => (s.storeResults r Ycc.cr).endUnit r

/-- The destination bytes that hold any value when a command stops before unit `u` (its end: after the last unit). All of
them under the aliasing of R88 and R138 or a race (R90, R91); else those of unit `u` on (R230, R261) and those in memory that
the caller does not own (R264). -/
def Run.anyRegions (r : Run) (pf : Platform) (u : Nat) : List Region :=
  let ws := r.plan.writeRegions
  if r.plan.aliased || r.raced then ws
  else ws.map (·.dropBytes (4 * r.plan.unitStart u)) ++ ws.flatMap (fun g => pf.foreign.map g.inter)

/-- The successful end of a conversion (R231). -/
def State.finish (s : State) (r : Run) : State := (s.anyIn (r.anyRegions s.platform r.plan.units)).endOk

/-- The end of a conversion whose request was answered ERROR (R229, R230). -/
def State.busError (s : State) (r : Run) : State :=
  (s.anyIn (r.anyRegions s.platform r.unit)).raiseError .busError r.request.addr

/-- One action of the engine: the end of the command, or one request (R80, R229, R231, R235). -/
def State.engineStep (s : State) : State :=
  match s.phase with
  | .idle => s
  | .run r =>
    if r.plan.units ≤ r.unit then s.finish r
    else match answer s.params s.platform r.request with
      | .ok => s.perform r
      | .error => s.busError r
      | .never => s

/-- The engine can act: a command runs, and its request is not one that the platform never answers (R235). -/
def State.canAct (s : State) : Bool :=
  match s.phase with
  | .idle => false
  | .run r => r.plan.units ≤ r.unit || answer s.params s.platform r.request != .never

/-- Up to `n` actions of the engine. -/
def State.advance : Nat → State → State
  | 0, s => s
  | n + 1, s => if s.canAct then s.engineStep.advance n else s

/-- Actions that bring a running command to its end, if every request is answered (R235). -/
def Plan.actions (p : Plan) : Nat := 6 * p.units + 1

/-- How many actions happen before the next input lands (notes/assumptions/6.md). -/
def State.due (s : State) (r : Run) : Nat :=
  match s.progress with
  | .toEnd => r.plan.actions
  | .actions n => n

/-- The running command, if there is one, goes on until the next input lands. A plane on memory with read side effects is
refused (R77). DESIGN CHOICE: only the bytes that the command accesses count, not a part of a plane that it leaves alone,
such as the remainder of CVT.NN (notes/assumptions/10.md). -/
def State.resume (s : State) : Host.Outcome State Fault Refusal :=
  match s.phase with
  | .idle => .next s
  | .run r =>
    if regionsMeet s.platform.devices r.plan.regions then .refused .planeOnDevice else .next (s.advance (s.due r))

/-- Do the byte sets of two commands meet, so that R91 applies to both: what one reads is written by the other, or both write
it? -/
def setsMeet (reads writes reads' writes' : List Region) : Bool :=
  regionsMeet reads writes' || regionsMeet writes reads' || regionsMeet writes writes'

/-- Does this command of another instance meet a command with these byte sets (R91)? -/
def PeerRun.meets (q : PeerRun) (reads writes : List Region) : Bool := setsMeet q.reads q.writes reads writes

/-- Does a running command of another instance meet a command with these byte sets (R91)? -/
def State.peersMeet (s : State) (reads writes : List Region) : Bool := s.peers.any (·.meets reads writes)

/-- R91 applies to the running commands of other instances that a command with these byte sets meets. -/
def State.peersMarked (s : State) (reads writes : List Region) : List PeerRun :=
  s.peers.map (fun q => { q with raced := q.raced || q.meets reads writes })

/-- A conversion that passes its checks goes to RUN with everything latched (R157, R189, R198, R225). Where its byte sets meet
those of a running command of another instance, R91 applies to both from here on. -/
def State.start (s : State) (i : Instr) (p : Plan) : State :=
  { s with
    phase := .run ⟨i, p, 0, .readR, [], [], [], s.peersMeet p.readRegions p.writeRegions⟩
    peers := s.peersMarked p.readRegions p.writeRegions }

/-- The issue of a conversion that latches `p` (R225): discarded while a command runs (R40); else it clears, checks, and
runs, or ends with the first error (R226, R227). -/
def State.convert (s : State) (i : Instr) (p : Plan) : Host.Outcome State Fault Refusal :=
  if s.busy then s.setOvr.resume
  else match s.clearedForIssue.validate p with
    | some e => .next (s.clearedForIssue.raiseError e.1 e.2)
    | none => (s.clearedForIssue.start i p).resume

end Sys2Proof.Machine
end

