-- ==== Sys2Proof/Machine/Scalar.lean ====
section
/-! DEFINITION. The scalar conversion (spec/41_scalar.md R157). -/

namespace Sys2Proof.Machine

/-- CVT.S (R157): every element 0 to L - 1 by the scalar lane function. -/
def execCvtS (s : State) : Host.Outcome State Fault Refusal := s.convert .cvtS (scalarPlan s)

end Sys2Proof.Machine
end

