-- ==== Sys2Proof/Machine/Vector.lean ====
section
/-! DEFINITION. The six vector conversions (spec/43_vector.md R180, R189 to R199). -/

namespace Sys2Proof.Machine

/-- CVT.NN (R189): W = W_N, f = HAS_FMA_N, at the plane bases, no tail. -/
def execCvtNn (s : State) : Host.Outcome State Fault Refusal :=
  s.convert .cvtNn (naturalPlan s s.params.wN s.params.hasFmaN false)

/-- CVT.NN.T (R191): CVT.NN, then the scalar tail. -/
def execCvtNnT (s : State) : Host.Outcome State Fault Refusal :=
  s.convert .cvtNnT (naturalPlan s s.params.wN s.params.hasFmaN true)

/-- CVT.NA (R198): W = W_N, f = HAS_FMA_N, at the bases rounded up to 4·W_N. -/
def execCvtNa (s : State) : Host.Outcome State Fault Refusal :=
  s.convert .cvtNa (alignedPlan s s.params.wN s.params.hasFmaN)

/-- CVT.WN (R190): W = W_W, f = HAS_FMA_W, at the plane bases, no tail. -/
def execCvtWn (s : State) : Host.Outcome State Fault Refusal :=
  s.convert .cvtWn (naturalPlan s (wideLanes s.params) s.params.hasFmaW false)

/-- CVT.WN.T (R192): CVT.WN, then the scalar tail. -/
def execCvtWnT (s : State) : Host.Outcome State Fault Refusal :=
  s.convert .cvtWnT (naturalPlan s (wideLanes s.params) s.params.hasFmaW true)

/-- CVT.WA (R199): W = W_W, f = HAS_FMA_W, at the bases rounded up to 4·W_W. -/
def execCvtWa (s : State) : Host.Outcome State Fault Refusal :=
  s.convert .cvtWa (alignedPlan s (wideLanes s.params) s.params.hasFmaW)

end Sys2Proof.Machine
end

