-- ==== Sys2Proof/Machine/View.lean ====
section
/-! DEFINITION. The SLICE command (spec/40_view.md R136). -/

namespace Sys2Proof.Machine

/-- SLICE (R136): the view becomes its sub-view; an error changes no view register. BUSY stays 0. -/
def execSlice (s : State) : Host.Outcome State Fault Refusal :=
  if s.busy then s.setOvr.resume
  else match s.clearedForIssue.validateSlice with
    | some e => .next (s.clearedForIssue.raiseError e.1 e.2)
    | none => .next s.clearedForIssue.sliced

end Sys2Proof.Machine
end

