-- ==== Sys2Proof/Machine/Dispatch.lean ====
section
/-! DEFINITION. One arm per command: the issue of a legal command word (spec/60_exceptions.md R225). -/

namespace Sys2Proof.Machine

def exec (i : Instr) (s : State) : Host.Outcome State Fault Refusal :=
  match i with
  | .cvtS => Sys2Proof.Machine.execCvtS s
  | .cvtNn => Sys2Proof.Machine.execCvtNn s
  | .cvtNnT => Sys2Proof.Machine.execCvtNnT s
  | .cvtNa => Sys2Proof.Machine.execCvtNa s
  | .cvtWn => Sys2Proof.Machine.execCvtWn s
  | .cvtWnT => Sys2Proof.Machine.execCvtWnT s
  | .cvtWa => Sys2Proof.Machine.execCvtWa s
  | .slice => Sys2Proof.Machine.execSlice s

end Sys2Proof.Machine
end

