-- ==== Sys2Proof/Machine/Port.lean ====
section
/-! DEFINITION. What an input does: register-port accesses (spec/10_state.md R37 to R40, R44), other agents' memory accesses
and commands (spec/20_memory.md R84, R90, R91), the reset pin (spec/70_reset_and_hazards.md R260, R261), the platform. -/

namespace Sys2Proof.Machine

/-- A CMD write of a word that is no command: discarded while a command runs, else ILLEGAL_CMD (R104, R225). -/
def State.illegalCommand (s : State) : Host.Outcome State Fault Refusal :=
  if s.busy then s.setOvr.resume else .next (s.clearedForIssue.raiseError .illegalCmd 0)

/-- A write of a word to CMD (R44, R225): this is where the machine takes its next command from. -/
def State.commandWrite (s : State) (w : Word) : Host.Outcome State Fault Refusal :=
  match decode w with
  | .ok i => exec i s
  | .error _ => s.illegalCommand

/-- A word access at a word offset is answered; every other access gets ERROR (R37). -/
def portLegal (offset : BitVec 8) (size : Nat) : Bool := size == 4 && offset.toNat % 4 == 0

/-- The word at a word offset; a reserved offset reads 0 (R39). -/
def State.readOffset (s : State) (offset : BitVec 8) : Word :=
  match Reg.ofOffset offset with
  | some r => s.readReg r
  | none => 0

/-- A legal word write (R37 to R40); a reserved offset ignores it (R39). -/
def State.writeOffset (s : State) (offset : BitVec 8) (v : Word) : Host.Outcome State Fault Refusal :=
  match Reg.ofOffset offset with
  | some .cmd => s.commandWrite v
  | some r => (s.writeReg r v).resume
  | none => s.resume

/-- A register-port read has no side effect (R37). -/
def State.portRead (s : State) (offset : BitVec 8) (size : Nat) : Host.Outcome State Fault Refusal :=
  if portLegal offset size then State.resume { s with response := .data (s.readOffset offset) }
  else State.resume { s with response := .error }

/-- A register-port write; an illegal one has no effect on any state (R37). -/
def State.portWrite (s : State) (offset : BitVec 8) (size : Nat) (v : Word) : Host.Outcome State Fault Refusal :=
  if portLegal offset size then State.writeOffset { s with response := .ok } offset v
  else State.resume { s with response := .error }

/-- The accesses that are not answered while `rst_n` is 0 (R260). -/
def Event.onRegisterPort : Event → Bool
  | .regRead _ _ | .regWrite _ _ _ | .wait _ => true
  | .memRead _ _ | .memWrite _ _ | .peerStart _ _ _ | .peerEnd _ | .resetPin _ | .platform _ => false

/-- The accesses that a host program makes, one after the other (R84, R267); the pin, the platform and
other instances' commands are not its doing. -/
def Event.byHost : Event → Bool
  | .regRead _ _ | .regWrite _ _ _ | .wait _ | .memRead _ _ | .memWrite _ _ => true
  | .peerStart _ _ _ | .peerEnd _ | .resetPin _ | .platform _ => false

/-- The first input that need not wait, and the others in order. -/
def takeOff (waits : Event → Bool) : List Input → Option (Input × List Input)
  | [] => none
  | i :: is => if waits i.event then (takeOff waits is).map (fun x => (x.1, i :: x.2)) else some (i, is)

/-- Put an access back into the inputs, behind the next `n` that need not wait; the others stay behind it. -/
def putBack (waits : Event → Bool) (w : Input) : Nat → List Input → List Input
  | 0, is => w :: is
  | n + 1, is =>
    match takeOff waits is with
    | none => w :: is
    | some (i, is) => i :: putBack waits w n is

/-- The inputs after a poll that read BUSY = 1 (R109, R272, notes/assumptions/19.md): the next poll of the same `wait` stands
behind its pause. When no pause is left, the command goes on as far as it can before the next poll, so that a `wait` ends if
every request is answered (R235); where a request is never answered, the pin or the platform may change first. -/
def State.pollAgain (s : State) (pauses : List Pause) : List Input :=
  match pauses with
  | [] => putBack Event.byHost ⟨.wait [], .toEnd⟩ (if s.canAct then 0 else 1) s.inputs
  | q :: qs => putBack Event.onRegisterPort ⟨.wait qs, q.progress⟩ q.others s.inputs

/-- The host's `wait` reads STATUS once, and reads it again later if the word read has BUSY = 1 (R108, R109). -/
def State.poll (s : State) (pauses : List Pause) : Host.Outcome State Fault Refusal :=
  let t := { s with response := .data s.statusWord }
  if s.busy then State.resume { t with inputs := s.pollAgain pauses } else t.resume

/-- Does another agent's write of these bytes break R90? -/
def Phase.writeRaces (ph : Phase) (g : Region) : Bool :=
  match ph with
  | .idle => false
  | .run r => regionsMeet [g] r.plan.regions

/-- Does another agent's read of these bytes break R90? -/
def Phase.readRaces (ph : Phase) (g : Region) : Bool :=
  match ph with
  | .idle => false
  | .run r => regionsMeet [g] r.plan.writeRegions

/-- The running command has been raced: its destination bytes hold any value after it (R90). -/
def Phase.markRaced : Phase → Phase
  | .idle => .idle
  | .run r => .run { r with raced := true }

/-- Other agents can touch these bytes: memory exists there (R70) and is no device (notes/assumptions/10.md, 11.md); then
`outcome`. -/
def State.agentTouches (s : State) (gs : List Region) (outcome : Host.Outcome State Fault Refusal) :
    Host.Outcome State Fault Refusal :=
  if gs.any (fun g => addrSpace s.params < g.base + g.size) then .fault .memoryAccessBeyondSpace
  else if regionsMeet s.platform.devices gs then .refused .accessToDevice
  else outcome

/-- Another agent reads memory; a read that races returns any value (R84, R90). -/
def State.agentRead (s : State) (a n : Nat) : Host.Outcome State Fault Refusal :=
  s.agentTouches [⟨a, n⟩] <|
    if s.phase.readRaces ⟨a, n⟩ then
      State.resume
        { s with
          response := .bytes (anyBytes s.byteDraws n)
          byteDraws := s.byteDraws + n
          phase := s.phase.markRaced }
    else State.resume { s with response := .bytes (s.mem.readBytes a n) }

/-- Another agent writes memory (R84, R90). -/
def State.agentWrite (s : State) (a : Nat) (bs : List Byte) : Host.Outcome State Fault Refusal :=
  s.agentTouches [⟨a, bs.length⟩] <|
    State.resume
      { s with
        response := .ok
        mem := s.mem.writeBytes a bs
        phase := if s.phase.writeRaces ⟨a, bs.length⟩ then s.phase.markRaced else s.phase }

/-- Does the running command meet a command with these byte sets (R91)? -/
def Phase.meets (ph : Phase) (reads writes : List Region) : Bool :=
  match ph with
  | .idle => false
  | .run r => setsMeet r.plan.readRegions r.plan.writeRegions reads writes

/-- A conversion starts to run in another instance. Where its byte sets meet those of a running command, R91 applies to both,
whichever of their accesses come before or after the other command. An instance that runs a command starts no other (R40,
R241). -/
def State.peerStart (s : State) (block : Nat) (reads writes : List Region) : Host.Outcome State Fault Refusal :=
  s.agentTouches (reads ++ writes) <|
    if s.peers.any (fun q => q.block == block) then s.resume
    else
      State.resume
        { s with
          phase := if s.phase.meets reads writes then s.phase.markRaced else s.phase
          peers :=
            ⟨block, reads, writes, s.phase.meets reads writes || s.peersMeet reads writes⟩ :: s.peersMarked reads writes }

/-- The conversion of another instance ends: if R91 applied to it, its destination bytes hold any value (R90). -/
def State.peerEnd (s : State) (block : Nat) : Host.Outcome State Fault Refusal :=
  match s.peers.find? (fun q => q.block == block) with
  | none => s.resume
  | some q =>
    let t := { s with peers := s.peers.filter (fun q => q.block != block) }
    if q.raced then s.agentTouches q.writes (t.anyIn q.writes).resume else t.resume

/-- A command abandoned by reset leaves any value in its destination bytes (R261). -/
def State.abandon (s : State) : State :=
  match s.phase with
  | .idle => s
  | .run r => s.anyIn (r.anyRegions s.platform 0)

/-- `rst_n` sampled 0 (R260, R261): every register field at its reset value, IDLE, nothing outstanding; memory but for the
abandoned destinations, the platform, the other instances and the inputs are not the block's to reset. -/
def State.resetNow (s : State) : State :=
  let t := s.abandon
  { State.resetOf s.params with
    mem := t.mem
    rstN := false
    inputs := s.inputs
    progress := s.progress
    platform := s.platform
    peers := s.peers
    nanDraws := s.nanDraws
    byteDraws := t.byteDraws }

/-- What an input does, and then how far the running command gets. -/
def State.handle (s : State) : Event → Host.Outcome State Fault Refusal
  | .regRead o n => s.portRead o n
  | .regWrite o n v => s.portWrite o n v
  | .wait ps => s.poll ps
  | .memRead a n => s.agentRead a n
  | .memWrite a bs => s.agentWrite a bs
  | .peerStart b rs ws => s.peerStart b rs ws
  | .peerEnd b => s.peerEnd b
  | .resetPin false => .next s.resetNow
  | .resetPin true => State.resume { s with rstN := true }
  | .platform p => State.resume { s with platform := p }

/-- The next input to land, and the inputs after it; during reset a register-port access waits (R260,
notes/assumptions/13.md). -/
def State.nextInput (s : State) : Option (Input × List Input) :=
  if s.rstN then
    match s.inputs with
    | [] => none
    | i :: is => some (i, is)
  else takeOff Event.onRegisterPort s.inputs

/-- The next input lands; without one the running command goes on by itself. -/
def State.machineStep (s : State) : Host.Outcome State Fault Refusal :=
  match s.nextInput with
  | none => State.resume { s with progress := .toEnd }
  | some (i, is) => State.handle { s with inputs := is, progress := i.progress } i.event

/-- A command write at the head of the inputs, with the pin released and no command running, so that the next step runs it
(notes/assumptions/7.md). -/
def State.withCommand (s : State) (w : Word) : State :=
  { s with rstN := true, phase := .idle, inputs := ⟨.regWrite Reg.cmd.offset 4 w, .toEnd⟩ :: s.inputs }

end Sys2Proof.Machine
end

