-- ==== Sys2Proof/Machine/HostProgram.lean ====
section
/-! DEFINITION. Host assembly: statements and pseudo-instructions expanded to register-port transactions
(spec/30_encoding.md R107 to R109). -/

namespace Sys2Proof.Machine

/-- `W(offset(NAME), v)` (R107). -/
def writeTo (r : Reg) (v : Word) : Event := .regWrite r.offset 4 v

/-- `wr64 P, imm64` (R108). -/
def write64 (p : Plane) (v : BitVec 64) : List Event :=
  [writeTo (.baseLo p) (v.extractLsb' 0 32), writeTo (.baseHi p) (v.extractLsb' 32 32)]

/-- The register-port transactions of a statement (R107 to R109); `wait` is the polling loop of R109, with these pauses. -/
def expandStmt (pauses : List Pause) : HostStmt → List Event
  | .wr r v => [writeTo r v]
  | .rd r _ => [.regRead r.offset 4]
  | .cmd i => [writeTo .cmd (encode i)]
  | .wr64 p v => write64 p v
  | .prec p => [writeTo .cfg p]
  | .view n len a0 a1 a2 a3 =>
    [writeTo .viewCount n, writeTo .viewLen len] ++ write64 .c0 a0 ++ write64 .c1 a1 ++ write64 .c2 a2 ++ write64 .c3 a3
  | .rgb ar ag ab len => write64 .r ar ++ write64 .g ag ++ write64 .b ab ++ [writeTo .rgbLen len]
  | .sliceOf s n => [writeTo .sliceStart s, writeTo .sliceLen n, writeTo .cmd (encode .slice)]
  | .clr => [writeTo .status 0x0000000E]
  | .wait => [.wait pauses]

/-- How fast the running command goes beside a statement: how far it gets after each of the statement's accesses, in order,
and the pauses of a `wait` (R272: no rule fixes it). -/
structure Pace where
  after : List Progress
  pauses : List Pause
  deriving DecidableEq, Repr

/-- Accesses as inputs, each with how far the running command gets after it. DESIGN CHOICE: where the list of them is shorter
than the accesses, the command goes on as far as it can (notes/assumptions/7.md). -/
def paced : List Event → List Progress → List Input
  | [], _ => []
  | e :: es, [] => ⟨e, .toEnd⟩ :: paced es []
  | e :: es, p :: ps => ⟨e, p⟩ :: paced es ps

/-- A host program (R109) as inputs, each statement with its pace. -/
def hostInputs (program : List (HostStmt × Pace)) : List Input :=
  program.flatMap (fun x => paced (expandStmt x.2.pauses x.1) x.2.after)

end Sys2Proof.Machine
end

