-- ==== Sys2Proof/Safety.lean ====
section
/-! DEFINITION. The terms in which claims speak: what a command latches, when a conversion passes its checks and runs
undisturbed, what it leaves behind, and the invariants of the machine (cited from spec/ at each definition). -/

namespace Sys2Proof.Machine

/-- What each conversion latches when it is issued (R180, R197); SLICE latches nothing (R136). -/
def planOf : Instr → State → Option Plan
  | .cvtS, s => some (scalarPlan s)
  | .cvtNn, s => some (naturalPlan s s.params.wN s.params.hasFmaN false)
  | .cvtNnT, s => some (naturalPlan s s.params.wN s.params.hasFmaN true)
  | .cvtNa, s => some (alignedPlan s s.params.wN s.params.hasFmaN)
  | .cvtWn, s => some (naturalPlan s (wideLanes s.params) s.params.hasFmaW false)
  | .cvtWnT, s => some (naturalPlan s (wideLanes s.params) s.params.hasFmaW true)
  | .cvtWa, s => some (alignedPlan s (wideLanes s.params) s.params.hasFmaW)
  | .slice, _ => none

/-- The requests of a unit, in order (R82, R133). -/
def Plan.stages (p : Plan) : List Stage :=
  [.readR, .readG, .readB, .writeY] ++ (if p.gray then [] else [.writeCb, .writeCr])

/-- No check of R222 to R224 fails for a conversion that latches `p`, and no command runs. -/
structure State.Convertible (s : State) (p : Plan) : Prop where
  idle : s.phase = .idle
  /-- R222, R134: COUNT is 1, 3 or 4. -/
  count : s.count = 1 ∨ s.count = 3 ∨ s.count = 4
  /-- R222: LEN is not 0. -/
  len : s.len ≠ 0
  /-- R223. -/
  rgbLen : s.len ≤ s.rgbLen.toNat
  /-- R224: every plane base used is a multiple of 4. -/
  aligned : ∀ b ∈ s.usedBases, b % 4 = 0
  /-- R224, R78: every range accessed ends below 2^ADDR_W. -/
  inRange : p.samples = 0 ∨ ∀ a ∈ p.accessBases, a + 4 * p.samples ≤ addrSpace s.params

/-- Nothing makes the conversion's result open: every request is answered OK (R79), no plane lies on a device (R77), no byte
written is owned by someone else (R264), the planes do not alias (R88, R138), and no running command of another instance meets
its byte sets (R91). -/
structure State.Undisturbed (s : State) (p : Plan) : Prop where
  answered : ∀ u, u < p.units → ∀ st ∈ p.stages, answer s.params s.platform (p.request u st) = .ok
  ordinary : regionsMeet s.platform.devices p.regions = false
  owned : regionsMeet s.platform.foreign p.writeRegions = false
  apart : p.aliased = false
  alone : s.peersMeet p.readRegions p.writeRegions = false

/-- The state after a command that ended with DONE, with this memory and this many NaN draws; nothing else changed
(R225, R231). -/
def State.endedOk (s : State) (m : Memory) (d : Nat) : State :=
  { s with
    status := ⟨true, false, s.status.ovr, .none⟩
    faultAddr := ⟨0, 0⟩
    mem := m
    nanDraws := d }

/-- The state after a command that ended with an error, in registers (R225, R228). -/
def State.endedWith (s : State) (c : Ecode) (addr : Nat) : State :=
  { s with
    status := ⟨false, true, s.status.ovr, c⟩
    faultAddr := AddrPair.ofNat addr }

/-- In memory `m`, sample `j` of the output planes at `a0`, `a1`, `a2` is what `lane` gives on sample `j` of the input planes
at `aR`, `aG`, `aB` in the state `s`, for some draws of its NaN results (R23); Cb and Cr only if the view is not grayscale
(R133). -/
def SampleHolds (s : State) (m : Memory) (aR aG aB a0 a1 a2 : Nat) (lane : Nat → Word → Word → Word → Ycc) (j : Nat) : Prop :=
  ∃ d,
    let v := lane d (s.mem.readWord (aR + 4 * j)) (s.mem.readWord (aG + 4 * j)) (s.mem.readWord (aB + 4 * j))
    m.readWord (a0 + 4 * j) = v.y ∧
      (s.gray = false → m.readWord (a1 + 4 * j) = v.cb ∧ m.readWord (a2 + 4 * j) = v.cr)

/-- Every byte outside the first `n` samples of the output planes at `a0`, `a1`, `a2` (of `a0` alone in a grayscale view)
reads in `m` as it does in `s` (R70, R133). -/
def OutsideUnchanged (s : State) (m : Memory) (a0 a1 a2 n : Nat) : Prop :=
  ∀ a, ¬ (a0 ≤ a ∧ a < a0 + 4 * n) →
    (s.gray = false → ¬ (a1 ≤ a ∧ a < a1 + 4 * n) ∧ ¬ (a2 ≤ a ∧ a < a2 + 4 * n)) →
    m.read a = s.mem.read a

/-- The byte sets of two commands meet (R91): some byte that one of them writes is read or written by the other. -/
def ByteSetsMeet (reads writes reads' writes' : List Region) : Prop :=
  ∃ a, (regionsHold reads a = true ∧ regionsHold writes' a = true) ∨
    (regionsHold writes a = true ∧ (regionsHold reads' a = true ∨ regionsHold writes' a = true))

/-- The byte is one that the spec lets be any value: some draw (R88, R90, R230, R261). -/
def IsDrawn (b : Byte) : Prop := ∃ k, b = Config.anyByte k

/-- STATUS is one that the rules can leave (R45): DONE and ERR are not both 1, ECODE is 0 exactly when ERR is 0, and both
are 0 while a command runs. -/
def State.statusOk (s : State) : Prop :=
  ¬ (s.status.done = true ∧ s.status.err = true) ∧ (s.status.err = false ↔ s.status.ecode = .none) ∧
    (s.busy = true → s.status.done = false ∧ s.status.err = false)

/-- The samples read so far are those of the requests before the current one, and a request is due only in a unit of the
command (R82, R188). -/
def Run.readSoFar (r : Run) : Prop :=
  let n := r.plan.unitLanes r.unit
  match r.stage with
  | .readR => r.unit ≤ r.plan.units ∧ r.rv = [] ∧ r.gv = [] ∧ r.bv = []
  | .readG => r.unit < r.plan.units ∧ r.rv.length = n ∧ r.gv = [] ∧ r.bv = []
  | .readB => r.unit < r.plan.units ∧ r.rv.length = n ∧ r.gv.length = n ∧ r.bv = []
  | .writeY => r.unit < r.plan.units ∧ r.rv.length = n ∧ r.gv.length = n ∧ r.bv.length = n
  | .writeCb | .writeCr =>
    r.plan.gray = false ∧ r.unit < r.plan.units ∧ r.rv.length = n ∧ r.gv.length = n ∧ r.bv.length = n

/-- A running command holds what its registers say (R33), and has passed its checks (R225). -/
def State.runOk (s : State) : Prop :=
  ∀ r, s.phase = .run r → planOf r.cmd s = some r.plan ∧ s.validate r.plan = none ∧ r.readSoFar

end Sys2Proof.Machine
end

