-- ==== Sys2Proof/Certificates/Slice0/Obligations.lean ====
section
/-! DEFINITION. The statements about the model, for the provers. Each docstring names the rule of spec/ it formalises; what
is the model's own choice is said with its log entry. -/

open Sys2Proof Sys2Proof.Machine

/-! ### Encoding -/

/-- R102: the decoder matches the whole word; the eight words and nothing else are commands. -/
def Obligations.DecoderTakesExactlyTheEightWords : Prop :=
  ∀ (w : Word) (i : Instr), decode w = .ok i ↔
    (w, i) ∈ [((0x00000001 : Word), Instr.cvtS), (0x00000002, .cvtNn), (0x00000012, .cvtNnT), (0x00000003, .cvtNa),
      (0x00000004, .cvtWn), (0x00000014, .cvtWnT), (0x00000005, .cvtWa), (0x00000006, .slice)]

/-- R100, R102: encoding a command and decoding its word gives it back, from the table's bits too. -/
def Obligations.EncodeThenDecodeGivesTheCommandBack : Prop :=
  ∀ i : Instr, i.wellFormed = true → decode (encode i) = .ok i ∧ decodeTableWord 32 (encode i).toNat = some i

/-- R102: words written out bit by bit, RSV then T then OP. -/
def Obligations.WrittenOutWordsDecode : Prop :=
  decode 0b000000000000000000000000000_0_0001#32 = .ok .cvtS ∧
  decode 0b000000000000000000000000000_1_0010#32 = .ok .cvtNnT ∧
  decode 0b000000000000000000000000000_0_0101#32 = .ok .cvtWa ∧
  decode 0b000000000000000000000000000_0_0110#32 = .ok .slice

/-- R104: a word that is none of the eight, written to CMD while no command runs, ends at once with ILLEGAL_CMD, and nothing
else changes. -/
def Obligations.OtherWordsEndWithIllegalCmd : Prop :=
  ∀ (s : State) (w : Word) (p : Progress) (is : List Input),
    s.inputs = ⟨.regWrite 0x10 4 w, p⟩ :: is → s.rstN = true → s.phase = .idle →
    w ∉ [(0x00000001 : Word), 0x00000002, 0x00000012, 0x00000003, 0x00000004, 0x00000014, 0x00000005, 0x00000006] →
    step s = .next (State.endedWith { s with inputs := is, progress := p, response := .ok } .illegalCmd 0)

/-! ### The step -/

/-- R44, R225: when the next input writes a command word to CMD, the step runs that command; around it the step takes the
input off the list, answers OK, and sets how far a running command gets (notes/assumptions/6.md). The word placed by
`withFetchWord` is such an input (notes/assumptions/7.md). -/
def Obligations.StepRunsTheDecodedCommand : Prop :=
  (∀ (s : State) (w : Word) (i : Instr) (p : Progress) (is : List Input),
    s.inputs = ⟨.regWrite 0x10 4 w, p⟩ :: is → s.rstN = true → decode w = .ok i →
    step s = exec i { s with inputs := is, progress := p, response := .ok }) ∧
  (∀ (s : State) (i : Instr),
    step (s.withFetchWord 32 (encode i).toNat) =
      exec i { s with rstN := true, phase := .idle, progress := .toEnd, response := .ok })

/-- R40: while a command runs, a write to CMD or to an RW register is discarded and sets OVR, and a write to STATUS takes
effect. That a `_HI` register is one of them when ADDR_W = 32 too, where R50 says that it ignores writes, is the model's
reading (DEDUCED, notes/assumptions/15.md). -/
def Obligations.WritesWhileBusyAreDiscarded : Prop :=
  ∀ (s : State) (r : Run) (reg : Reg) (v : Word) (p : Progress) (is : List Input),
    s.inputs = ⟨.regWrite reg.offset 4 v, p⟩ :: is → s.rstN = true → s.phase = .run r →
    ((reg ∈ [Reg.cmd, .cfg, .viewCount, .viewLen, .rgbLen, .sliceStart, .sliceLen] ∨
        ∃ pl, reg = .baseLo pl ∨ reg = .baseHi pl) →
      step s = State.resume
        { s with inputs := is, progress := p, response := .ok, status := { s.status with ovr := true } }) ∧
    (reg = .status →
      step s = State.resume
        { s with
          inputs := is
          progress := p
          response := .ok
          status :=
            { done := s.status.done && !v.getLsbD 1
              err := s.status.err && !v.getLsbD 2
              ovr := s.status.ovr && !v.getLsbD 3
              ecode := if v.getLsbD 2 then .none else s.status.ecode } })

/-- R225: a conversion that passes its checks has BUSY = 1 before the next register access is answered: if the engine has not
acted yet, the state is the issued one. -/
def Obligations.AcceptedConversionIsBusy : Prop :=
  ∀ (s : State) (i : Instr) (p : Plan), planOf i s = some p → s.Convertible p →
    regionsMeet s.platform.devices p.regions = false → s.progress = .actions 0 →
    ∃ t, exec i s = .next t ∧ t.busy = true ∧ t.status = ⟨false, false, s.status.ovr, .none⟩ ∧ t.mem = s.mem

/-- R77: a conversion that accesses memory with read side effects is refused. That only the bytes a plane's accesses reach
count, not the part of a plane that the command leaves alone, is the model's choice (DESIGN CHOICE,
notes/assumptions/10.md). -/
def Obligations.PlanesOnDevicesAreRefused : Prop :=
  ∀ (s : State) (i : Instr) (p : Plan), planOf i s = some p → s.Convertible p →
    regionsMeet s.platform.devices p.regions = true → exec i s = .refused .planeOnDevice

/-! ### Registers -/

/-- R34: the byte offset of every register, and that an offset names its register. -/
def Obligations.RegistersStandAtTheirOffsets : Prop :=
  ∀ x ∈ [(Reg.id, (0x00 : BitVec 8)), (.cap, 0x04), (.cfg, 0x08), (.half, 0x0C), (.cmd, 0x10), (.status, 0x14),
      (.faultAddrLo, 0x18), (.faultAddrHi, 0x1C), (.viewCount, 0x20), (.viewLen, 0x24), (.baseLo .c0, 0x28),
      (.baseHi .c0, 0x2C), (.baseLo .c1, 0x30), (.baseHi .c1, 0x34), (.baseLo .c2, 0x38), (.baseHi .c2, 0x3C),
      (.baseLo .c3, 0x40), (.baseHi .c3, 0x44), (.baseLo .r, 0x48), (.baseHi .r, 0x4C), (.baseLo .g, 0x50),
      (.baseHi .g, 0x54), (.baseLo .b, 0x58), (.baseHi .b, 0x5C), (.rgbLen, 0x60), (.sliceStart, 0x64), (.sliceLen, 0x68)],
    x.1.offset = x.2 ∧ Reg.ofOffset x.2 = some x.1

/-- R37: a word read answers the register's value (0 at a reserved offset, R39) without a side effect; an access of another size or off a word boundary
gets ERROR and has no effect. What follows an access is the running command's own progress (`resume`). -/
def Obligations.PortAnswersWordAccessesOnly : Prop :=
  ∀ (s : State) (p : Progress) (is : List Input), s.rstN = true →
    (∀ o : BitVec 8, o.toNat % 4 = 0 → s.inputs = ⟨.regRead o 4, p⟩ :: is →
      step s = State.resume
        { s with
          inputs := is
          progress := p
          response := .data (match Reg.ofOffset o with | some reg => s.readReg reg | none => 0) }) ∧
    (∀ (o : BitVec 8) (n : Nat) (v : Word), ¬ (n = 4 ∧ o.toNat % 4 = 0) →
      s.inputs = ⟨.regRead o n, p⟩ :: is ∨ s.inputs = ⟨.regWrite o n v, p⟩ :: is →
      step s = State.resume { s with inputs := is, progress := p, response := .error })

/-- R39: reserved offsets read 0 and ignore writes. -/
def Obligations.ReservedOffsetsReadZero : Prop :=
  ∀ (s : State) (o : BitVec 8) (v : Word) (p : Progress) (is : List Input), s.rstN = true →
    0x6C ≤ o.toNat → o.toNat % 4 = 0 →
    (s.inputs = ⟨.regRead o 4, p⟩ :: is →
      step s = State.resume { s with inputs := is, progress := p, response := .data 0 }) ∧
    (s.inputs = ⟨.regWrite o 4 v, p⟩ :: is →
      step s = State.resume { s with inputs := is, progress := p, response := .ok })

/-- R38: reserved bits read 0 and ignore writes; read-only registers and fields ignore writes, and OVR is not set. -/
def Obligations.ReservedBitsAndReadOnlyRegisters : Prop :=
  (∀ s : State, (s.readReg .cfg).toNat < 2 ^ 6 ∧ (s.readReg .viewCount).toNat < 2 ^ 3 ∧
    (s.readReg .status).toNat < 2 ^ 8 ∧ (s.readReg .cap).toNat < 2 ^ 19) ∧
  (∀ (s : State) (v : Word), s.writeReg .cfg v = s.writeReg .cfg (v &&& 0x3F) ∧
    s.writeReg .viewCount v = s.writeReg .viewCount (v &&& 0x7) ∧ s.writeReg .status v = s.writeReg .status (v &&& 0xE)) ∧
  (∀ (s : State) (v : Word), (s.writeReg .status v).busy = s.busy ∧
    (v.getLsbD 2 = false → (s.writeReg .status v).status.ecode = s.status.ecode)) ∧
  (∀ (s : State) (reg : Reg) (v : Word) (p : Progress) (is : List Input), s.rstN = true →
    reg ∈ [Reg.id, .cap, .half, .faultAddrLo, .faultAddrHi] → s.inputs = ⟨.regWrite reg.offset 4 v, p⟩ :: is →
    step s = State.resume { s with inputs := is, progress := p, response := .ok })

/-- R37, R41, R48 to R53: a word written to an RW register while no command runs is what the register reads after the step,
its reserved bits 0 (a `_HI` register reads 0 when ADDR_W = 32, R50); no other register changes but HALF, which follows CFG
(R42, R267), and nothing else but what a step takes and answers (notes/assumptions/6.md, 16.md). -/
def Obligations.RegistersReadWhatWasWritten : Prop :=
  ∀ (s : State) (r : Reg) (v : Word) (p : Progress) (is : List Input),
    s.inputs = ⟨.regWrite r.offset 4 v, p⟩ :: is → s.rstN = true → s.phase = .idle → r.isRW = true →
    ∃ t, step s = .next t ∧
      t.readReg r =
        (match r with
          | .cfg => v &&& 0x3F
          | .viewCount => v &&& 0x7
          | .baseHi _ => if s.params.addrW = .w32 then 0 else v
          | _ => v) ∧
      (∀ q, q ≠ r → ¬ (r = .cfg ∧ q = .half) → t.readReg q = s.readReg q) ∧
      t.phase = .idle ∧ t.status = s.status ∧ t.faultAddr = s.faultAddr ∧ t.mem = s.mem ∧ t.params = s.params ∧
      t.rstN = true ∧ t.platform = s.platform ∧ t.peers = s.peers ∧ t.inputs = is ∧ t.progress = p ∧ t.response = .ok

/-- R45: the bits of STATUS, and a step whose input writes STATUS: ones clear DONE, ERR (with ECODE) and OVR, whether or not
a command runs, and nothing else changes; a running command then goes on (`resume`). -/
def Obligations.StatusBitsAndWriteOneToClear : Prop :=
  (∀ s : State,
    (s.readReg .status).getLsbD 0 = s.busy ∧ (s.readReg .status).getLsbD 1 = s.status.done ∧
    (s.readReg .status).getLsbD 2 = s.status.err ∧ (s.readReg .status).getLsbD 3 = s.status.ovr ∧
    (s.readReg .status).extractLsb' 4 4 = s.status.ecode.code ∧ (s.readReg .status).extractLsb' 8 24 = 0) ∧
  ∀ (s : State) (v : Word) (p : Progress) (is : List Input),
    s.inputs = ⟨.regWrite Reg.status.offset 4 v, p⟩ :: is → s.rstN = true →
    let written : State :=
      { s with
        inputs := is
        progress := p
        response := .ok
        status :=
          { done := s.status.done && !v.getLsbD 1
            err := s.status.err && !v.getLsbD 2
            ovr := s.status.ovr && !v.getLsbD 3
            ecode := if v.getLsbD 2 then .none else s.status.ecode } }
    step s = written.resume ∧ (s.phase = .idle → step s = .next written)

/-- R36: the fields of CAP, for every instance the spec allows; writes are ignored. -/
def Obligations.CapHoldsTheParameters : Prop :=
  ∀ s : State, s.params.legal = true →
    ((s.readReg .cap).extractLsb' 0 8).toNat = s.params.wN ∧
    ((s.readReg .cap).extractLsb' 8 8).toNat = s.params.wideMult * s.params.wN ∧
    (s.readReg .cap).getLsbD 16 = s.params.hasFmaN ∧ (s.readReg .cap).getLsbD 17 = s.params.hasFmaW ∧
    (s.readReg .cap).getLsbD 18 = decide (s.params.addrW = .w64) ∧ (s.readReg .cap).extractLsb' 19 13 = 0 ∧
    ∀ v, s.writeReg .cap v = s

/-- R42: HALF is `ceil((2^P - 1) / 2)` in exact integers, which is `2^(P-1)` or 0; the register holds its binary32 encoding,
exactly, and ignores writes. -/
def Obligations.HalfIsTheExactPowerOfTwo : Prop :=
  ∀ s : State,
    halfInt s.precision = (if s.precision = 0 then 0 else 2 ^ (s.precision.toNat - 1)) ∧
    2 ^ s.precision.toNat - 1 ≤ 2 * halfInt s.precision ∧ 2 * halfInt s.precision ≤ 2 ^ s.precision.toNat ∧
    fval (s.readReg .half) = halfInt s.precision * 2 ^ 149 ∧
    s.readReg .half =
      (if s.precision = 0 then 0 else BitVec.ofNat 32 ((s.precision.toNat - 1 + 127) * 2 ^ 23)) ∧
    ∀ v, s.writeReg .half v = s

/-! ### Reset -/

/-- R57: every register field after reset, for every instance. -/
def Obligations.ResetLeavesTheResetValues : Prop :=
  (∀ p : Params,
    let s := State.resetOf p
    s.readReg .id = p.idValue ∧ s.readReg .cap = capWord p ∧ s.readReg .cfg = 32 ∧ s.readReg .half = 0x4F000000 ∧
    s.readReg .status = 0 ∧ s.readReg .faultAddrLo = 0 ∧ s.readReg .faultAddrHi = 0 ∧ s.readReg .viewCount = 0 ∧
    s.readReg .viewLen = 0 ∧ (∀ pl, s.readReg (.baseLo pl) = 0 ∧ s.readReg (.baseHi pl) = 0) ∧ s.readReg .rgbLen = 0 ∧
    s.readReg .sliceStart = 0 ∧ s.readReg .sliceLen = 0 ∧ s.phase = .idle) ∧
  State.reset = State.resetOf Config.params

/-- R260: when `rst_n` is sampled 0, whatever the state, every register goes to its reset value, the phase to IDLE, the
output `cmd_end_o` to 0, and a running command is abandoned. -/
def Obligations.ResetPinResetsEveryRegister : Prop :=
  ∀ (s : State) (p : Progress) (is : List Input), s.inputs = ⟨.resetPin false, p⟩ :: is →
    ∃ t, step s = .next t ∧ t.phase = .idle ∧ t.cmdEndO = false ∧ t.rstN = false ∧ t.inputs = is ∧ t.params = s.params ∧
      (∀ reg, t.readReg reg = (State.resetOf s.params).readReg reg) ∧
      (s.phase = .idle → t.mem = s.mem)

/-- R261: after a reset during a conversion each destination byte holds any value, and no other byte changes. -/
def Obligations.ResetDuringACommandLeavesAnyValue : Prop :=
  ∀ (s : State) (r : Run) (p : Progress) (is : List Input), s.inputs = ⟨.resetPin false, p⟩ :: is → s.phase = .run r →
    s.mem.wf = true →
    ∃ t, step s = .next t ∧
      (∀ a, regionsHold r.plan.writeRegions a = true → IsDrawn (t.mem.read a)) ∧
      (∀ a, regionsHold r.plan.writeRegions a = false → t.mem.read a = s.mem.read a)

/-! ### The view and SLICE -/

/-- R131, R16: the effective bases, and which spans are present. -/
def Obligations.EffectiveBasesFollowTheCount : Prop :=
  ∀ s : State,
    (∀ pl, s.base pl = ((s.bases.get pl).hi.toNat * 2 ^ 32 + (s.bases.get pl).lo.toNat) %
      2 ^ (if s.params.addrW = .w32 then 32 else 64)) ∧
    s.eff0 = s.base .c0 ∧
    (2 ≤ s.count → s.eff1 = s.base .c1) ∧ (s.count < 2 → s.eff1 = s.base .c0) ∧
    (3 ≤ s.count → s.eff2 = s.base .c2) ∧ (s.count < 3 → s.eff2 = s.base .c0) ∧
    (Plane.c1 ∈ s.spans ↔ 2 ≤ s.count) ∧ (Plane.c2 ∈ s.spans ↔ 3 ≤ s.count) ∧ (Plane.c3 ∈ s.spans ↔ s.count = 4)

/-- R136: SLICE. Its three errors, in order, change no view register; a slice that passes moves each present span up by 4·s
bytes, takes LEN to m, sets DONE, and changes nothing else. -/
def Obligations.SliceReplacesTheView : Prop :=
  encode .slice = 0x00000006 ∧ ∀ s : State, s.phase = .idle →
    let n := s.count
    let m := s.sliceLen.toNat
    let start := s.sliceStart.toNat
    let present : Plane → Prop := fun pl =>
      pl = .c0 ∨ (pl = .c1 ∧ 2 ≤ n) ∨ (pl = .c2 ∧ 3 ≤ n) ∨ (pl = .c3 ∧ n = 4)
    let fits : Plane → Prop := fun pl => s.base pl + 4 * (start + m) ≤ addrSpace s.params
    (n < 1 ∨ 4 < n ∨ s.len = 0 → exec .slice s = .next (s.endedWith .badView 0)) ∧
    (1 ≤ n ∧ n ≤ 4 ∧ s.len ≠ 0 → m = 0 ∨ s.len < start + m → exec .slice s = .next (s.endedWith .sliceRange 0)) ∧
    (1 ≤ n ∧ n ≤ 4 ∧ s.len ≠ 0 → m ≠ 0 ∧ start + m ≤ s.len →
      (∀ pl, present pl → (∀ q, present q → q.ctorIdx < pl.ctorIdx → fits q) → ¬ fits pl →
        exec .slice s = .next (s.endedWith .addrRange (s.base pl))) ∧
      ((∀ pl, present pl → fits pl) →
        ∃ bs, exec .slice s = .next
            { s with
              bases := bs
              viewLen := s.sliceLen
              status := ⟨true, false, s.status.ovr, .none⟩
              faultAddr := ⟨0, 0⟩ } ∧
          (∀ pl, present pl → (bs.get pl).toNat = s.base pl + 4 * start) ∧
          (∀ pl, ¬ present pl → bs.get pl = s.bases.get pl)))

/-- R137: after a SLICE that ends with DONE, sample j of a present span is sample s + j of the old span, and aliased spans
stay aliased. -/
def Obligations.SlicedSamplesAreOldSamples : Prop :=
  ∀ s t : State, s.phase = .idle → exec .slice s = .next t → t.status.done = true →
    (∀ pl ∈ s.spans, ∀ j < s.sliceLen.toNat, t.base pl + 4 * j = s.base pl + 4 * (s.sliceStart.toNat + j)) ∧
    t.len = s.sliceLen.toNat ∧ t.count = s.count ∧
    (s.count < 2 → t.eff1 = t.eff0) ∧ (s.count < 3 → t.eff2 = t.eff0)

/-! ### Checks and errors -/

/-- R222: ILLEGAL_CMD for a word that is no command; BAD_VIEW for a bad view, and for a conversion with COUNT = 2. -/
def Obligations.BadViewIsReported : Prop :=
  ∀ s : State, s.phase = .idle →
    (∀ w : Word, w ∉ [(0x00000001 : Word), 0x00000002, 0x00000012, 0x00000003, 0x00000004, 0x00000014, 0x00000005,
        0x00000006] → s.commandWrite w = .next (s.endedWith .illegalCmd 0)) ∧
    (∀ i : Instr, s.count < 1 ∨ 4 < s.count ∨ s.len = 0 → exec i s = .next (s.endedWith .badView 0)) ∧
    (∀ i : Instr, i ≠ .slice → s.count = 2 → exec i s = .next (s.endedWith .badView 0))

/-- R223: BAD_LEN for a conversion, SLICE_RANGE for SLICE, when the view is valid. -/
def Obligations.BadLengthsAreReported : Prop :=
  ∀ s : State, s.phase = .idle → s.len ≠ 0 →
    (∀ i : Instr, i ≠ .slice → s.count = 1 ∨ s.count = 3 ∨ s.count = 4 → s.rgbLen.toNat < s.len →
      exec i s = .next (s.endedWith .badLen 0)) ∧
    (1 ≤ s.count → s.count ≤ 4 → s.sliceLen.toNat = 0 ∨ s.len < s.sliceStart.toNat + s.sliceLen.toNat →
      exec .slice s = .next (s.endedWith .sliceRange 0))

/-- R224: the first plane, in the order R, G, B, c0, c1, c2 (c1 and c2 not in a grayscale view), whose base is misaligned;
if none is, the first whose non-empty range passes the top of the address space, reported by its base. -/
def Obligations.FirstBadPlaneIsReported : Prop :=
  ∀ (s : State) (i : Instr) (p : Plan), planOf i s = some p → s.phase = .idle →
    s.count = 1 ∨ s.count = 3 ∨ s.count = 4 → s.len ≠ 0 → s.len ≤ s.rgbLen.toNat →
    let bases := [s.base .r, s.base .g, s.base .b, s.eff0] ++ (if s.count = 1 then [] else [s.eff1, s.eff2])
    let access := [p.aR, p.aG, p.aB, p.a0] ++ (if s.count = 1 then [] else [p.a1, p.a2])
    (∀ pre b post, bases = pre ++ b :: post → (∀ x ∈ pre, x % 4 = 0) → b % 4 ≠ 0 →
      exec i s = .next (s.endedWith .misaligned b)) ∧
    ((∀ x ∈ bases, x % 4 = 0) → p.samples ≠ 0 →
      ∀ pre b a post, bases.zip access = pre ++ (b, a) :: post →
        (∀ x ∈ pre, x.2 + 4 * p.samples - 1 ≤ addrSpace s.params - 1) → addrSpace s.params - 1 < a + 4 * p.samples - 1 →
        exec i s = .next (s.endedWith .addrRange b))

/-- R227: a command word, legal or not, that ends with an error other than BUS_ERROR has no effect on memory, nor on any register but STATUS and
FAULT_ADDR. -/
def Obligations.EarlyErrorsTouchNothingElse : Prop :=
  ∀ (s t : State) (w : Word), s.phase = .idle → s.commandWrite w = .next t → t.status.err = true →
    t.status.ecode ≠ .busError → t = { s with status := t.status, faultAddr := t.faultAddr }

/-! ### What a conversion accesses -/

/-- R197 and R157: the byte range of each plane that each conversion accesses, with C = L // W. -/
def Obligations.ConversionsAccessTheStatedRanges : Prop :=
  ∀ s : State,
    let ranges : (Nat → Nat) → Nat → List Region × List Region := fun up n =>
      ([⟨up (s.base .r), 4 * n⟩, ⟨up (s.base .g), 4 * n⟩, ⟨up (s.base .b), 4 * n⟩],
        ⟨up s.eff0, 4 * n⟩ :: (if s.count = 1 then [] else [⟨up s.eff1, 4 * n⟩, ⟨up s.eff2, 4 * n⟩]))
    let wn := s.params.wN
    let ww := s.params.wideMult * s.params.wN
    let next : Nat → Nat → Nat := fun w a => (a + 4 * w - 1) / (4 * w) * (4 * w)
    ∀ (i : Instr) (p : Plan), planOf i s = some p →
      (p.readRegions, p.writeRegions) =
        (match i with
          | .cvtNn => ranges id (s.len / wn * wn)
          | .cvtWn => ranges id (s.len / ww * ww)
          | .cvtNa => ranges (next wn) (s.len / wn * wn)
          | .cvtWa => ranges (next ww) (s.len / ww * ww)
          | .cvtS | .cvtNnT | .cvtWnT | .slice => ranges id s.len)

/-- R195: rounding up is the mask operation, leaves a multiple alone, and skips fewer than W samples. -/
def Obligations.RoundupIsTheNextBoundary : Prop :=
  ∀ (p k : Nat),
    let a := 4 * 2 ^ k
    roundup p a = (p + a - 1) / a * a ∧ roundup p a = Nat.ldiff (p + a - 1) (a - 1) ∧
    (p % a = 0 → roundup p a = p) ∧
    (p % 4 = 0 → (roundup p a - p) % 4 = 0 ∧ p ≤ roundup p a ∧ (roundup p a - p) / 4 ≤ 2 ^ k - 1)

/-- R73: the widths and alignments of the requests that each running command issues. R70, R197: a read lies in the range that
the command reads of its plane, a write in the range that it writes of its plane. -/
def Obligations.RequestsHaveTheStatedWidths : Prop :=
  ∀ (s : State) (r : Run), s.params.legal = true → s.runOk → s.phase = .run r → r.unit < r.plan.units →
    let q := r.request
    let narrow := 4 * s.params.wN
    let wide := 4 * (s.params.wideMult * s.params.wN)
    let own : AccessKind × Option Region :=
      match r.stage with
      | .readR => (.read, r.plan.readRegions[0]?)
      | .readG => (.read, r.plan.readRegions[1]?)
      | .readB => (.read, r.plan.readRegions[2]?)
      | .writeY => (.write, r.plan.writeRegions[0]?)
      | .writeCb => (.write, r.plan.writeRegions[1]?)
      | .writeCr => (.write, r.plan.writeRegions[2]?)
    q.addr % 4 = 0 ∧
    (match r.cmd with
      | .cvtS => q.bytes = 4
      | .cvtNn => q.bytes = narrow
      | .cvtNnT => if r.unit < s.len / s.params.wN then q.bytes = narrow else q.bytes = 4
      | .cvtNa => q.bytes = narrow ∧ q.addr % narrow = 0
      | .cvtWn => q.bytes = wide
      | .cvtWnT => if r.unit < s.len / (s.params.wideMult * s.params.wN) then q.bytes = wide else q.bytes = 4
      | .cvtWa => q.bytes = wide ∧ q.addr % wide = 0
      | .slice => False) ∧
    q.kind = own.1 ∧ ∃ g, own.2 = some g ∧ g.base ≤ q.addr ∧ q.addr + q.bytes ≤ g.base + g.size

/-- R70, R31, R135: a conversion issued while no command runs writes no byte but those of its output ranges, and no register
but STATUS and FAULT_ADDR, of STATUS not OVR; whatever the platform answers and however far it gets. Of the commands of other instances
it changes at most their mark of R91. -/
def Obligations.ConversionsWriteOnlyTheirOutputs : Prop :=
  ∀ (s t : State) (i : Instr) (p : Plan), planOf i s = some p → s.phase = .idle → exec i s = .next t →
    (∀ a, regionsHold p.writeRegions a = false → t.mem.read a = s.mem.read a) ∧
    (∀ reg, reg ≠ .status → reg ≠ .faultAddrLo → reg ≠ .faultAddrHi → t.readReg reg = s.readReg reg) ∧
    t.status.ovr = s.status.ovr ∧ t.params = s.params ∧ t.inputs = s.inputs ∧ t.platform = s.platform ∧
    t.response = s.response ∧ t.rstN = s.rstN ∧
    t.peers.map (fun q => (q.block, q.reads, q.writes)) = s.peers.map (fun q => (q.block, q.reads, q.writes))

/-- R193: CVT.NN and CVT.WN leave destination samples C·W to L - 1 as they were (where the full output planes do not overlap
one another), and neither read nor write any sample from C·W on. -/
def Obligations.RemainderIsUntouched : Prop :=
  ∀ (s t : State) (i : Instr) (p : Plan), i = .cvtNn ∨ i = .cvtWn → planOf i s = some p → s.phase = .idle →
    exec i s = .next t →
    let w := if i = .cvtNn then s.params.wN else s.params.wideMult * s.params.wN
    let outs := s.eff0 :: (if s.count = 1 then [] else [s.eff1, s.eff2])
    outs.Pairwise (fun a b => a + 4 * s.len ≤ b ∨ b + 4 * s.len ≤ a) →
    (∀ e ∈ outs, ∀ j, s.len / w * w ≤ j → j < s.len → t.mem.readWord (e + 4 * j) = s.mem.readWord (e + 4 * j)) ∧
    (∀ u < p.units, ∀ st ∈ p.stages,
      (p.request u st).addr + (p.request u st).bytes ≤ p.stageBase st + 4 * (s.len / w * w))

/-! ### Conversions complete -/

/-- R157: CVT.S ends with DONE, and every sample 0 to L - 1 holds the scalar lane's results; nothing else changes. -/
def Obligations.CvtSConvertsEverySample : Prop :=
  ∀ s : State, s.Convertible (scalarPlan s) → s.Undisturbed (scalarPlan s) → s.progress = .toEnd → s.mem.wf = true →
    ∃ m d, exec .cvtS s = .next (s.endedOk m d) ∧
      (∀ j < s.len,
        SampleHolds s m (s.base .r) (s.base .g) (s.base .b) s.eff0 s.eff1 s.eff2
          (fun k r g b => scalarLane k r g b (s.readReg .half)) j) ∧
      OutsideUnchanged s m s.eff0 s.eff1 s.eff2 s.len

/-- R189: CVT.NN ends with DONE, and samples 0 to C·W_N - 1 hold the vector lane's results. -/
def Obligations.CvtNnConvertsEveryChunk : Prop :=
  ∀ s : State,
    let p := naturalPlan s s.params.wN s.params.hasFmaN false
    s.Convertible p → s.Undisturbed p → s.progress = .toEnd → s.mem.wf = true →
    ∃ m d, exec .cvtNn s = .next (s.endedOk m d) ∧
      (∀ j < s.len / s.params.wN * s.params.wN,
        SampleHolds s m (s.base .r) (s.base .g) (s.base .b) s.eff0 s.eff1 s.eff2
          (fun k r g b => vecLane k r g b (s.readReg .half) s.params.hasFmaN) j) ∧
      OutsideUnchanged s m s.eff0 s.eff1 s.eff2 (s.len / s.params.wN * s.params.wN)

/-- R191: CVT.NN.T ends with DONE; samples 0 to C·W_N - 1 hold the vector lane's results, the rest the scalar lane's. -/
def Obligations.CvtNnTConvertsChunksAndTail : Prop :=
  ∀ s : State,
    let p := naturalPlan s s.params.wN s.params.hasFmaN true
    s.Convertible p → s.Undisturbed p → s.progress = .toEnd → s.mem.wf = true →
    ∃ m d, exec .cvtNnT s = .next (s.endedOk m d) ∧
      (∀ j < s.len / s.params.wN * s.params.wN,
        SampleHolds s m (s.base .r) (s.base .g) (s.base .b) s.eff0 s.eff1 s.eff2
          (fun k r g b => vecLane k r g b (s.readReg .half) s.params.hasFmaN) j) ∧
      (∀ j, s.len / s.params.wN * s.params.wN ≤ j → j < s.len →
        SampleHolds s m (s.base .r) (s.base .g) (s.base .b) s.eff0 s.eff1 s.eff2
          (fun k r g b => scalarLane k r g b (s.readReg .half)) j) ∧
      OutsideUnchanged s m s.eff0 s.eff1 s.eff2 s.len

/-- R198, R200: CVT.NA ends with DONE; counted from the bases rounded up to 4·W_N, each plane on its own, samples 0 to
C·W_N - 1 hold the vector lane's results. -/
def Obligations.CvtNaConvertsFromRoundedBases : Prop :=
  ∀ s : State,
    let p := alignedPlan s s.params.wN s.params.hasFmaN
    let up := fun a => (a + 4 * s.params.wN - 1) / (4 * s.params.wN) * (4 * s.params.wN)
    s.Convertible p → s.Undisturbed p → s.progress = .toEnd → s.mem.wf = true →
    ∃ m d, exec .cvtNa s = .next (s.endedOk m d) ∧
      (∀ j < s.len / s.params.wN * s.params.wN,
        SampleHolds s m (up (s.base .r)) (up (s.base .g)) (up (s.base .b)) (up s.eff0) (up s.eff1) (up s.eff2)
          (fun k r g b => vecLane k r g b (s.readReg .half) s.params.hasFmaN) j) ∧
      OutsideUnchanged s m (up s.eff0) (up s.eff1) (up s.eff2) (s.len / s.params.wN * s.params.wN)

/-- R190: CVT.WN ends with DONE, and samples 0 to C·W_W - 1 hold the vector lane's results. -/
def Obligations.CvtWnConvertsEveryChunk : Prop :=
  ∀ s : State,
    let w := s.params.wideMult * s.params.wN
    let p := naturalPlan s w s.params.hasFmaW false
    s.Convertible p → s.Undisturbed p → s.progress = .toEnd → s.mem.wf = true →
    ∃ m d, exec .cvtWn s = .next (s.endedOk m d) ∧
      (∀ j < s.len / w * w,
        SampleHolds s m (s.base .r) (s.base .g) (s.base .b) s.eff0 s.eff1 s.eff2
          (fun k r g b => vecLane k r g b (s.readReg .half) s.params.hasFmaW) j) ∧
      OutsideUnchanged s m s.eff0 s.eff1 s.eff2 (s.len / w * w)

/-- R192: CVT.WN.T ends with DONE; samples 0 to C·W_W - 1 hold the vector lane's results, the rest the scalar lane's. -/
def Obligations.CvtWnTConvertsChunksAndTail : Prop :=
  ∀ s : State,
    let w := s.params.wideMult * s.params.wN
    let p := naturalPlan s w s.params.hasFmaW true
    s.Convertible p → s.Undisturbed p → s.progress = .toEnd → s.mem.wf = true →
    ∃ m d, exec .cvtWnT s = .next (s.endedOk m d) ∧
      (∀ j < s.len / w * w,
        SampleHolds s m (s.base .r) (s.base .g) (s.base .b) s.eff0 s.eff1 s.eff2
          (fun k r g b => vecLane k r g b (s.readReg .half) s.params.hasFmaW) j) ∧
      (∀ j, s.len / w * w ≤ j → j < s.len →
        SampleHolds s m (s.base .r) (s.base .g) (s.base .b) s.eff0 s.eff1 s.eff2
          (fun k r g b => scalarLane k r g b (s.readReg .half)) j) ∧
      OutsideUnchanged s m s.eff0 s.eff1 s.eff2 s.len

/-- R199, R200: CVT.WA ends with DONE; counted from the bases rounded up to 4·W_W, each plane on its own, samples 0 to
C·W_W - 1 hold the vector lane's results. -/
def Obligations.CvtWaConvertsFromRoundedBases : Prop :=
  ∀ s : State,
    let w := s.params.wideMult * s.params.wN
    let p := alignedPlan s w s.params.hasFmaW
    let up := fun a => (a + 4 * w - 1) / (4 * w) * (4 * w)
    s.Convertible p → s.Undisturbed p → s.progress = .toEnd → s.mem.wf = true →
    ∃ m d, exec .cvtWa s = .next (s.endedOk m d) ∧
      (∀ j < s.len / w * w,
        SampleHolds s m (up (s.base .r)) (up (s.base .g)) (up (s.base .b)) (up s.eff0) (up s.eff1) (up s.eff2)
          (fun k r g b => vecLane k r g b (s.readReg .half) s.params.hasFmaW) j) ∧
      OutsideUnchanged s m (up s.eff0) (up s.eff1) (up s.eff2) (s.len / w * w)

/-! ### How else a conversion ends -/

/-- R230 (and R229 for the address): the first request answered ERROR, in the reference order, ends the command. The units
before it hold their results; the destination bytes of its unit and of later units hold any value, as draws
(notes/assumptions/3.md); nothing else changes. (With aliasing, or R91, all of them do: AliasingLeavesAnyValue.) -/
def Obligations.BusErrorKeepsEarlierUnits : Prop :=
  ∀ (s : State) (i : Instr) (p : Plan) (u : Nat) (st : Stage), planOf i s = some p → s.Convertible p →
    regionsMeet s.platform.devices p.regions = false → regionsMeet s.platform.foreign p.writeRegions = false →
    p.aliased = false → s.peersMeet p.readRegions p.writeRegions = false → s.progress = .toEnd → s.mem.wf = true →
    u < p.units → st ∈ p.stages → answer s.params s.platform (p.request u st) = .error →
    (∀ u' < u, ∀ st' ∈ p.stages, answer s.params s.platform (p.request u' st') = .ok) →
    (∀ st' ∈ p.stages, st'.ctorIdx < st.ctorIdx → answer s.params s.platform (p.request u st') = .ok) →
    ∃ t, exec i s = .next t ∧ t.phase = .idle ∧ t.status = ⟨false, true, s.status.ovr, .busError⟩ ∧
      t.faultAddr = AddrPair.ofNat (p.request u st).addr ∧
      (∀ j < p.unitStart u,
        SampleHolds s t.mem p.aR p.aG p.aB p.a0 p.a1 p.a2
          (fun k r g b => if j < p.chunks * p.lanes then vecLane k r g b p.half p.fused else scalarLane k r g b p.half) j) ∧
      (∀ a, regionsHold (p.writeRegions.map (·.dropBytes (4 * p.unitStart u))) a = true → IsDrawn (t.mem.read a)) ∧
      OutsideUnchanged s t.mem p.a0 p.a1 p.a2 p.samples

/-- R88: when a byte read is also written, or two output planes share a byte, every destination byte holds any value once the
command has ended (as draws, notes/assumptions/3.md), and no other byte changes. R138: the same when two of the view's spans
c0, c1, c2, of LEN samples each, share a byte, accessed or not (notes/assumptions/24.md). R91: the same when the command's byte sets
meet those of a command that runs in another instance when it is issued, whatever either of them accesses afterwards; that
other command is marked too (notes/assumptions/23.md). That this holds of a command that ends early
with BUS_ERROR too, and of the units before its failing request, is the model's reading (DEDUCED,
notes/assumptions/22.md). The ending status is what it would be without the aliasing: DONE when every request is answered OK
(R231), BUS_ERROR at the address of the first request, in the reference order, that is answered ERROR (R229). -/
def Obligations.AliasingLeavesAnyValue : Prop :=
  ∀ (s : State) (i : Instr) (p : Plan), planOf i s = some p → s.Convertible p → s.mem.wf = true → s.progress = .toEnd →
    regionsMeet s.platform.devices p.regions = false →
    (∃ a, (regionsHold p.readRegions a = true ∧ regionsHold p.writeRegions a = true) ∨
      ∃ (x y : Nat) (g h : Region), x < y ∧ p.writeRegions[x]? = some g ∧ p.writeRegions[y]? = some h ∧
        g.holds a = true ∧ h.holds a = true) ∨
      (s.count ≠ 1 ∧ ∃ (x y e f a : Nat), x < y ∧ [s.eff0, s.eff1, s.eff2][x]? = some e ∧
        [s.eff0, s.eff1, s.eff2][y]? = some f ∧ e ≤ a ∧ a < e + 4 * s.len ∧ f ≤ a ∧ a < f + 4 * s.len) ∨
      (∃ q ∈ s.peers, ByteSetsMeet q.reads q.writes p.readRegions p.writeRegions) →
    (∀ t, exec i s = .next t → ∀ q ∈ s.peers, ByteSetsMeet q.reads q.writes p.readRegions p.writeRegions →
      { q with raced := true } ∈ t.peers) ∧
    (∀ t, exec i s = .next t → t.phase = .idle →
      (∀ a, regionsHold p.writeRegions a = true → IsDrawn (t.mem.read a)) ∧
      (∀ a, regionsHold p.writeRegions a = false → t.mem.read a = s.mem.read a)) ∧
    ((∀ u, u < p.units → ∀ st ∈ p.stages, answer s.params s.platform (p.request u st) = .ok) →
      ∃ t, exec i s = .next t ∧ t.phase = .idle ∧ t.status = ⟨true, false, s.status.ovr, .none⟩ ∧ t.faultAddr = ⟨0, 0⟩) ∧
    (∀ (u : Nat) (st : Stage), u < p.units → st ∈ p.stages → answer s.params s.platform (p.request u st) = .error →
      (∀ u' < u, ∀ st' ∈ p.stages, answer s.params s.platform (p.request u' st') = .ok) →
      (∀ st' ∈ p.stages, st'.ctorIdx < st.ctorIdx → answer s.params s.platform (p.request u st') = .ok) →
      ∃ t, exec i s = .next t ∧ t.phase = .idle ∧ t.status = ⟨false, true, s.status.ovr, .busError⟩ ∧
        t.faultAddr = AddrPair.ofNat (p.request u st).addr)

/-- R90: another agent's write to a byte the running command reads or writes, or its read of a byte the command writes, is
marked, the read returning any bytes; the mark stays while the command runs; and when a marked command ends, in whichever
way, every destination byte holds any value. R91: a command that starts in another instance and whose byte sets meet those of
the running command, or of a third instance's command, is marked, and so is the command it meets; one whose sets are disjoint
from all of them leaves them alone; when it ends, its destination bytes hold any value if it is marked, and memory is left
alone if not (notes/assumptions/23.md). -/
def Obligations.RacesLeaveAnyValue : Prop :=
  (∀ (s : State) (r : Run), s.phase = .run r →
    (∀ (a : Nat) (bs : List Byte) (p : Progress) (is : List Input), s.rstN = true →
      s.inputs = ⟨.memWrite a bs, p⟩ :: is → a + bs.length ≤ addrSpace s.params →
      regionsMeet s.platform.devices [⟨a, bs.length⟩] = false → regionsMeet [⟨a, bs.length⟩] r.plan.regions = true →
      step s = State.resume
        { s with
          inputs := is
          progress := p
          response := .ok
          mem := s.mem.writeBytes a bs
          phase := .run { r with raced := true } }) ∧
    (∀ (a n : Nat) (p : Progress) (is : List Input), s.rstN = true → s.inputs = ⟨.memRead a n, p⟩ :: is →
      a + n ≤ addrSpace s.params → regionsMeet s.platform.devices [⟨a, n⟩] = false →
      regionsMeet [⟨a, n⟩] r.plan.writeRegions = true →
      ∃ bs, bs.length = n ∧ (∀ b ∈ bs, IsDrawn b) ∧
        step s = State.resume
          { s with
            inputs := is
            progress := p
            response := .bytes bs
            byteDraws := s.byteDraws + n
            phase := .run { r with raced := true } }) ∧
    (r.raced = true → s.mem.wf = true →
      (∀ r', s.engineStep.phase = .run r' → r'.raced = true ∧ r'.plan = r.plan) ∧
      (s.engineStep.phase = .idle →
        ∀ a, regionsHold r.plan.writeRegions a = true → IsDrawn (s.engineStep.mem.read a)) ∧
      (∀ a, regionsHold r.plan.writeRegions a = true → IsDrawn (s.resetNow.mem.read a)))) ∧
  (∀ (s : State) (b : Nat) (rs ws : List Region) (p : Progress) (is : List Input), s.rstN = true →
    s.inputs = ⟨.peerStart b rs ws, p⟩ :: is → (∀ g ∈ rs ++ ws, g.base + g.size ≤ addrSpace s.params) →
    regionsMeet s.platform.devices (rs ++ ws) = false → (∀ q ∈ s.peers, q.block ≠ b) →
    ∃ (ph : Phase) (q : PeerRun) (qs : List PeerRun),
      step s = State.resume { s with inputs := is, progress := p, phase := ph, peers := q :: qs } ∧
      q.block = b ∧ q.reads = rs ∧ q.writes = ws ∧
      (∀ r, s.phase = .run r → ByteSetsMeet rs ws r.plan.readRegions r.plan.writeRegions →
        ph = .run { r with raced := true } ∧ q.raced = true) ∧
      (∀ q' ∈ s.peers, ByteSetsMeet rs ws q'.reads q'.writes → { q' with raced := true } ∈ qs ∧ q.raced = true) ∧
      ((∀ r, s.phase = .run r → ¬ ByteSetsMeet rs ws r.plan.readRegions r.plan.writeRegions) →
        ph = s.phase ∧ ((∀ q' ∈ s.peers, ¬ ByteSetsMeet rs ws q'.reads q'.writes) → q.raced = false ∧ qs = s.peers))) ∧
  (∀ (s : State) (q : PeerRun) (p : Progress) (is : List Input), s.rstN = true → s.mem.wf = true →
    s.inputs = ⟨.peerEnd q.block, p⟩ :: is → s.peers.find? (fun q' => q'.block == q.block) = some q →
    (∀ g ∈ q.writes, g.base + g.size ≤ addrSpace s.params) → regionsMeet s.platform.devices q.writes = false →
    ∃ (m : Memory) (d : Nat),
      step s = State.resume
        { s with
          inputs := is
          progress := p
          peers := s.peers.filter (fun q' => q'.block != q.block)
          mem := m
          byteDraws := d } ∧
      (q.raced = true → ∀ a, regionsHold q.writes a = true → IsDrawn (m.read a)) ∧
      (∀ a, q.raced = false ∨ regionsHold q.writes a = false → m.read a = s.mem.read a))

/-- R235: a request that the platform never answers leaves the command where it is, however long it is given. -/
def Obligations.UnansweredRequestKeepsBusy : Prop :=
  ∀ (s : State) (r : Run), s.phase = .run r → r.unit < r.plan.units →
    answer s.params s.platform r.request = .never → regionsMeet s.platform.devices r.plan.regions = false →
    s.resume = .next s ∧ s.busy = true

/-- R235: a running command ends with DONE or ERR within six requests a unit and its end, if every request is answered. -/
def Obligations.AnsweredCommandsEnd : Prop :=
  ∀ (s : State) (r : Run), s.phase = .run r → (∀ row ∈ s.platform.answers, row.answer ≠ .never) →
    (s.advance (6 * r.plan.units + 1)).phase = .idle ∧
    ((s.advance (6 * r.plan.units + 1)).status.done = true ∨ (s.advance (6 * r.plan.units + 1)).status.err = true)

/-- R82, R272, R273: how often a running command is interrupted makes no difference to it. Two reads, with m actions after the
first and n after the second, leave what one read with m + n actions after it leaves, but for the inputs' own progress and
answer (notes/assumptions/6.md, 16.md). -/
def Obligations.PausesDoNotMatter : Prop :=
  ∀ (s : State) (r : Run) (o o' : BitVec 8) (k k' m n : Nat) (is : List Input),
    s.phase = .run r → s.rstN = true → regionsMeet s.platform.devices r.plan.regions = false →
    s.inputs = ⟨.regRead o k, .actions m⟩ :: ⟨.regRead o' k', .actions n⟩ :: is →
    ∃ t u v, step s = .next t ∧ step t = .next u ∧
      step { s with inputs := ⟨.regRead o k, .actions (m + n)⟩ :: is } = .next v ∧
      u = { v with progress := .actions n, response := u.response }

/-! ### Invariants -/

/-- R70: every step keeps memory in its canonical form. -/
def Obligations.StepKeepsMemoryCanonical : Prop :=
  ∀ s t : State, s.mem.wf = true → step s = .next t → t.mem.wf = true

/-- R45, R46: every step keeps STATUS consistent. -/
def Obligations.StepKeepsStatusConsistent : Prop :=
  ∀ s t : State, s.statusOk → step s = .next t → t.statusOk

/-- R33, R266: every step keeps the latched values of a running command equal to what its registers say; R225: and its checks
passed. -/
def Obligations.StepKeepsTheLatchedValues : Prop :=
  ∀ s t : State, s.runOk → step s = .next t → t.runOk

/-- R70, R78: no step lists a byte beyond the address space. -/
def Obligations.StepStaysInsideTheAddressSpace : Prop :=
  ∀ s t : State, s.runOk → s.mem.fits (addrSpace s.params) = true → step s = .next t →
    t.mem.fits (addrSpace t.params) = true

/-- R174, R9 to R12: no step changes a parameter of the instance. -/
def Obligations.StepKeepsTheParameters : Prop :=
  ∀ s t : State, step s = .next t → t.params = s.params

/-- The reset state meets the invariants (R57; that reset memory lists nothing is the model's choice,
notes/assumptions/4.md). -/
def Obligations.ResetMeetsTheInvariants : Prop :=
  State.reset.mem.wf = true ∧ State.reset.statusOk ∧ State.reset.runOk ∧
    State.reset.mem.fits (addrSpace State.reset.params) = true ∧ State.reset.params.legal = true

/-! ### Arithmetic -/

/-- R20: `round32` gives the nearest binary32, a tie to the even one, infinity from 2^128 - 2^103 up, with the sign of the
exact number. The number is `n × 2^-q`; the magnitude code `c` below 0x7F800000 stands for `fmag c × 2^-149`. -/
def Obligations.Round32IsNearestTiesToEven : Prop :=
  ∀ (neg : Bool) (n q : Nat), 149 ≤ q →
    let c := roundMag n q
    let error : Nat → Int := fun k => |(fmag (BitVec.ofNat 32 k) * 2 ^ (q - 149) : Int) - n|
    fsign (round32 neg n q) = neg ∧ (round32 neg n q).toNat % 2 ^ 31 = c ∧
    ((2 ^ 128 - 2 ^ 103) * 2 ^ q ≤ n → c = 0x7F800000) ∧
    (n < (2 ^ 128 - 2 ^ 103) * 2 ^ q →
      c < 0x7F800000 ∧ ∀ k < 0x7F800000, error c ≤ error k ∧ (k ≠ c → error c = error k → c % 2 = 0))

/-- R21: for finite operands each operation rounds the exact result once, with the stated sign of a zero result. -/
def Obligations.FiniteOperationsRoundTheExactResult : Prop :=
  ∀ (d : Nat) (a b c : Word), fexp a ≠ 255 → fexp b ≠ 255 → fexp c ≠ 255 →
    let zero : Bool → Word := fun neg => if neg then 0x80000000 else 0
    let rounded : Int → Nat → Bool → Word := fun x q neg =>
      if x = 0 then zero neg else round32 (decide (x < 0)) x.natAbs q
    fmul d a b = rounded (fval a * fval b) 298 (fsign a ^^ fsign b) ∧
    fadd d a b = rounded (fval a + fval b) 149 (a == 0x80000000 && b == 0x80000000) ∧
    fsub d a b = fadd d a (b ^^^ 0x80000000) ∧
    ffma d a b c = rounded (fval a * fval b + fval c * 2 ^ 149) 298
      (decide (fval a * fval b = 0) && (fsign a ^^ fsign b) && c == 0x80000000)

/-- R22: infinities, for operands that are not NaNs. -/
def Obligations.InfinitiesFollowTheirRules : Prop :=
  ∀ (d : Nat) (a b c : Word), isNaN a = false → isNaN b = false → isNaN c = false →
    let inf : Bool → Word := fun neg => if neg then 0xFF800000 else 0x7F800000
    let zeroTimesInf := (isZero a = true ∧ isInf b = true) ∨ (isInf a = true ∧ isZero b = true)
    let productInf := isInf a = true ∨ isInf b = true
    let neg := fsign a ^^ fsign b
    (zeroTimesInf → isNaN (fmul d a b) = true ∧ isNaN (ffma d a b c) = true) ∧
    (¬ zeroTimesInf → productInf → fmul d a b = inf neg) ∧
    (isInf a = true → isInf b = true → fsign a ≠ fsign b → isNaN (fadd d a b) = true) ∧
    (isInf a = true → ¬ (isInf b = true ∧ fsign a ≠ fsign b) → fadd d a b = inf (fsign a)) ∧
    (isInf b = true → ¬ (isInf a = true ∧ fsign a ≠ fsign b) → fadd d a b = inf (fsign b)) ∧
    (¬ zeroTimesInf → productInf → isInf c = true → fsign c ≠ neg → isNaN (ffma d a b c) = true) ∧
    (¬ zeroTimesInf → productInf → ¬ (isInf c = true ∧ fsign c ≠ neg) → ffma d a b c = inf neg) ∧
    (¬ productInf → isInf c = true → ffma d a b c = inf (fsign c))

/-- R23: a NaN operand gives a NaN, and every NaN result is a quiet NaN (which one is a draw, notes/assumptions/2.md). -/
def Obligations.NaNResultsAreQuietNaNs : Prop :=
  ∀ (d : Nat) (a b c : Word),
    (isNaN a = true ∨ isNaN b = true → isNaN (fmul d a b) = true ∧ isNaN (fadd d a b) = true ∧ isNaN (fsub d a b) = true) ∧
    (isNaN a = true ∨ isNaN b = true ∨ isNaN c = true → isNaN (ffma d a b c) = true) ∧
    (∀ x ∈ [fmul d a b, fadd d a b, fsub d a b, ffma d a b c],
      isNaN x = true → isQuietNaN x = true ∧ x.extractLsb' 22 9 = 0x1FF)

/-- R154, R172: the order of the operands of a product or a sum makes no difference to its value. The rules except which NaN
is returned; that a NaN result is the same draw in both orders is the model's (DEDUCED, notes/assumptions/2.md). -/
def Obligations.OperandOrderDoesNotMatter : Prop :=
  ∀ (d : Nat) (a b : Word), fmul d a b = fmul d b a ∧ fadd d a b = fadd d b a

/-- R171, R172: the two forms of the multiply-add, the second with two draws. R156, R181: y, cb and cr of the scalar and of
the vector lane, operation by operation, in the order and with the operands that the rules give. Which operation takes which
draw of a NaN result (the first argument of each) is the model's (DEDUCED, notes/assumptions/2.md). -/
def Obligations.LanesFollowTheirFormulas : Prop :=
  (∀ (d : Nat) (acc a b : Word),
    madd d acc a b true = ffma d a b acc ∧ madd d acc a b false = fadd (d + 1) (fmul d a b) acc) ∧
  (∀ (d : Nat) (r g b h : Word),
    (scalarLane d r g b h).y = fadd (d + 4) (fadd (d + 2) (fmul d kYR r) (fmul (d + 1) kYG g)) (fmul (d + 3) kYB b) ∧
    (scalarLane d r g b h).cb =
      fadd (d + 10) (fsub (d + 8) (fsub (d + 6) h (fmul (d + 5) kCBR r)) (fmul (d + 7) kCBG g)) (fmul (d + 9) kH b) ∧
    (scalarLane d r g b h).cr =
      fsub (d + 16) (fsub (d + 14) (fadd (d + 12) h (fmul (d + 11) kH r)) (fmul (d + 13) kCRG g)) (fmul (d + 15) kCRB b)) ∧
  (∀ (d : Nat) (r g b h : Word) (f : Bool),
    (vecLane d r g b h f).y = madd (d + 3) (madd (d + 1) (fmul d b kYB) g kYG f) r kYR f ∧
    (vecLane d r g b h f).cb =
      fadd (d + 10) h (madd (d + 8) (madd (d + 6) (fmul (d + 5) b kH) g (fneg kCBG) f) r (fneg kCBR) f) ∧
    (vecLane d r g b h f).cr =
      fadd (d + 16) h (madd (d + 14) (madd (d + 12) (fmul (d + 11) b (fneg kCRB)) g (fneg kCRG) f) r kH f))

/-- R13: the bit patterns and the exact values of the eight coefficients; each is strictly nearer to its literal (here in
millionths) than any other finite binary32, and its negation only flips bit 31. -/
def Obligations.CoefficientsAreTheNearestBinary32 : Prop :=
  ∀ x ∈ [(kYR, (0x3E991687 : Word), (299000 : Int), (10032775 : Int), 25), (kYG, 0x3F1645A2, 587000, 4924113, 23),
      (kYB, 0x3DE978D5, 114000, 15300821, 27), (kCBR, 0x3E2CC921, 168736, 11323681, 26),
      (kCBG, 0x3EA99B6F, 331264, 11115375, 25), (kH, 0x3F000000, 500000, 1, 1), (kCRG, 0x3ED65E46, 418688, 7024419, 24),
      (kCRB, 0x3DA686E8, 81312, 1364189, 24)],
    let (k, bits, literal, num, den) := x
    k = bits ∧ fval k * 2 ^ den = num * 2 ^ 149 ∧ fneg k = k ||| 0x80000000 ∧ fval (fneg k) = -fval k ∧
      ∀ w : Word, fexp w ≠ 255 → w ≠ k → |fval k * 10 ^ 6 - literal * 2 ^ 149| < |fval w * 10 ^ 6 - literal * 2 ^ 149|

/-- AVX512S property 4: black gives Y = 0 and Cb = Cr = HALF, on every path and for every PRECISION. -/
def Obligations.BlackGivesZeroAndHalf : Prop :=
  ∀ (d : Nat) (p : BitVec 6) (f : Bool),
    scalarLane d 0 0 0 (halfWord p) = ⟨0, halfWord p, halfWord p⟩ ∧
    vecLane d 0 0 0 (halfWord p) f = ⟨0, halfWord p, halfWord p⟩

/-! ### Memory -/

/-- R71: samples are little-endian, lane 0 is lowest, and a written sample shows its bytes in that order. -/
def Obligations.SamplesAreLittleEndian : Prop :=
  (∀ (m : Memory) (a : Nat),
    m.readWord a = ((m.read a).setWidth 32 ||| (m.read (a + 1)).setWidth 32 <<< 8 ||| (m.read (a + 2)).setWidth 32 <<< 16 |||
      (m.read (a + 3)).setWidth 32 <<< 24)) ∧
  (∀ (m : Memory) (a w l : Nat), l < w → (m.readLanes a w)[l]? = some (m.readWord (a + 4 * l))) ∧
  (∀ (m : Memory) (a l : Nat) (vs : List Word) (v : Word), m.wf = true → vs[l]? = some v → ∀ k < 4,
    (m.writeLanes a vs).read (a + 4 * l + k) = v.extractLsb' (8 * k) 8) ∧
  (∀ (m : Memory) (a b : Nat) (vs : List Word), b < a ∨ a + 4 * vs.length ≤ b → (m.writeLanes a vs).read b = m.read b)

/-! ### The host -/

/-- R109, R272: `wait` reads STATUS; it is over when the word read has BUSY = 0, else it reads again, and before that the
inputs that its pause lets pass can land, such as the reset pin. The number of reads is not fixed: there is a `wait` for every
number of them. A `wait` ends, with the command, if every request is answered (R235). The pauses, and that the command goes
on as far as it can when none is left, are the model's form of it (notes/assumptions/19.md). -/
def Obligations.WaitPollsUntilIdle : Prop :=
  ∀ (s : State) (ps : List Pause) (p : Progress) (is : List Input), s.rstN = true → s.inputs = ⟨.wait ps, p⟩ :: is →
    (s.phase = .idle →
      step s = .next { s with inputs := is, progress := p, response := .data (s.readReg .status) }) ∧
    (∀ (r : Run) (q : Progress) (qs : List Pause), s.phase = .run r → ps = ⟨0, q⟩ :: qs →
      step s = State.resume
        { s with inputs := ⟨.wait qs, q⟩ :: is, progress := p, response := .data (s.readReg .status) }) ∧
    (∀ (r : Run) (q p' : Progress) (qs : List Pause) (e : Event) (is' : List Input), s.phase = .run r →
      ps = ⟨1, q⟩ :: qs → is = ⟨e, p'⟩ :: is' → e.onRegisterPort = false →
      step s = State.resume
        { s with inputs := ⟨e, p'⟩ :: ⟨.wait qs, q⟩ :: is', progress := p, response := .data (s.readReg .status) }) ∧
    (∀ (r : Run) (n : Nat), s.phase = .run r → regionsMeet s.platform.devices r.plan.regions = false →
      ps = List.replicate (n + 1) ⟨0, .actions 0⟩ → p = .actions 0 →
      core.run (n + 1) s =
        .next { s with
          inputs := ⟨.wait [], .actions 0⟩ :: is
          progress := .actions 0
          response := .data (s.readReg .status) }) ∧
    (∀ r : Run, s.phase = .run r → regionsMeet s.platform.devices r.plan.regions = false →
      (∀ row ∈ s.platform.answers, row.answer ≠ .never) → is = [] →
      ∃ (k : Nat) (t : State), k ≤ ps.length + 3 ∧ core.run k s = .next t ∧ t.inputs = [] ∧ t.phase = .idle ∧
        t.response = .data (t.readReg .status))
end

