-- ==== Sys2Proof/Laws/Memory.lean ====
section
/-! SUPPORT. What every memory operation does: read after write, everything else unchanged, and the canonical form kept. -/

namespace Sys2Proof.Machine

/-! ### One byte -/

theorem Memory.wfFrom_mono {m : Memory} {lo lo' : Nat} (h : m.wfFrom lo = true) (hl : lo' ≤ lo) : m.wfFrom lo' = true := by
  cases m with
  | nil => rfl
  | cons c m =>
    simp only [Memory.wfFrom, Bool.and_eq_true, decide_eq_true_eq] at h ⊢
    exact ⟨⟨by omega, h.1.2⟩, h.2⟩

theorem Memory.read_under_wfFrom {m : Memory} {lo a : Nat} (h : m.wfFrom lo = true) (ha : a < lo) : m.read a = unlistedByte := by
  induction m generalizing lo with
  | nil => rfl
  | cons c m ih =>
    obtain ⟨k, v⟩ := c
    simp only [Memory.wfFrom, Bool.and_eq_true, decide_eq_true_eq] at h
    rw [Memory.read, if_neg (by omega)]
    exact ih h.2 (by omega)

theorem Memory.read_put_self {m : Memory} {lo : Nat} (h : m.wfFrom lo = true) (a : Nat) (v : Byte) : (m.put a v).read a = v := by
  induction m generalizing lo with
  | nil => by_cases hv : v = unlistedByte <;> simp [Memory.put, Memory.read, hv]
  | cons c m ih =>
    obtain ⟨k, w⟩ := c
    have h' := h
    simp only [Memory.wfFrom, Bool.and_eq_true, decide_eq_true_eq] at h'
    by_cases h1 : a < k
    · by_cases hv : v = unlistedByte
      · simp only [Memory.put, if_pos h1, if_pos hv]
        rw [Memory.read, if_neg (by omega), Memory.read_under_wfFrom h'.2 (by omega), hv]
      · simp [Memory.put, h1, hv, Memory.read]
    · by_cases h2 : a = k
      · by_cases hv : v = unlistedByte
        · simp only [Memory.put, if_neg h1, if_pos h2, if_pos hv]
          rw [Memory.read_under_wfFrom h'.2 (by omega), hv]
        · simp [Memory.put, h2, hv, Memory.read]
      · simp only [Memory.put, if_neg h1, if_neg h2]
        rw [Memory.read, if_neg (by omega)]
        exact ih h'.2

theorem Memory.read_put_other (m : Memory) {a b : Nat} (v : Byte) (hb : b ≠ a) : (m.put a v).read b = m.read b := by
  induction m with
  | nil => by_cases hv : v = unlistedByte <;> simp [Memory.put, Memory.read, hv, hb.symm]
  | cons c m ih =>
    obtain ⟨k, w⟩ := c
    by_cases h1 : a < k
    · by_cases hv : v = unlistedByte <;> simp [Memory.put, h1, hv, Memory.read, hb.symm]
    · by_cases h2 : a = k
      · subst h2
        by_cases hv : v = unlistedByte <;> simp [Memory.put, hv, Memory.read, hb.symm]
      · simp only [Memory.put, if_neg h1, if_neg h2, Memory.read, ih]

theorem Memory.put_wfFrom {m : Memory} {lo : Nat} (h : m.wfFrom lo = true) {a : Nat} (ha : lo ≤ a) (v : Byte) :
    (m.put a v).wfFrom lo = true := by
  induction m generalizing lo with
  | nil => by_cases hv : v = unlistedByte <;> simp [Memory.put, Memory.wfFrom, hv, ha]
  | cons c m ih =>
    obtain ⟨k, w⟩ := c
    have h' := h
    simp only [Memory.wfFrom, Bool.and_eq_true, decide_eq_true_eq] at h'
    by_cases h1 : a < k
    · by_cases hv : v = unlistedByte
      · simpa [Memory.put, h1, hv] using h
      · simp only [Memory.put, if_pos h1, if_neg hv, Memory.wfFrom, Bool.and_eq_true, decide_eq_true_eq]
        exact ⟨⟨ha, by simpa using hv⟩, ⟨by omega, h'.1.2⟩, h'.2⟩
    · by_cases h2 : a = k
      · by_cases hv : v = unlistedByte
        · simp only [Memory.put, if_neg h1, if_pos h2, if_pos hv]
          exact Memory.wfFrom_mono h'.2 (by omega)
        · simp only [Memory.put, if_neg h1, if_pos h2, if_neg hv, Memory.wfFrom, Bool.and_eq_true, decide_eq_true_eq]
          exact ⟨⟨ha, by simpa using hv⟩, h2 ▸ h'.2⟩
      · simp only [Memory.put, if_neg h1, if_neg h2, Memory.wfFrom, Bool.and_eq_true, decide_eq_true_eq]
        exact ⟨h'.1, ih h'.2 (by omega)⟩

theorem Memory.put_wf {m : Memory} (h : m.wf = true) (a : Nat) (v : Byte) : (m.put a v).wf = true :=
  Memory.put_wfFrom h (Nat.zero_le a) v

theorem Memory.put_fits {m : Memory} {top : Nat} (h : m.fits top = true) {a : Nat} (ha : a < top) (v : Byte) :
    (m.put a v).fits top = true := by
  induction m with
  | nil => by_cases hv : v = unlistedByte <;> simp [Memory.put, Memory.fits, hv, ha]
  | cons c m ih =>
    obtain ⟨k, w⟩ := c
    have h' : k < top ∧ Memory.fits m top = true := by simpa [Memory.fits] using h
    by_cases h1 : a < k
    · by_cases hv : v = unlistedByte
      · simpa [Memory.put, h1, hv] using h
      · simp only [Memory.put, if_pos h1, if_neg hv, Memory.fits, List.all_cons, Bool.and_eq_true, decide_eq_true_eq]
        exact ⟨ha, h'.1, h'.2⟩
    · by_cases h2 : a = k
      · by_cases hv : v = unlistedByte
        · simpa [Memory.put, h2, hv] using h'.2
        · simp only [Memory.put, if_neg h1, if_pos h2, if_neg hv, Memory.fits, List.all_cons, Bool.and_eq_true,
            decide_eq_true_eq]
          exact ⟨ha, h'.2⟩
      · simp only [Memory.put, if_neg h1, if_neg h2, Memory.fits, List.all_cons, Bool.and_eq_true, decide_eq_true_eq]
        exact ⟨h'.1, ih h'.2⟩

/-! ### One sample -/

theorem Memory.writeWord_wf {m : Memory} (h : m.wf = true) (a : Nat) (v : Word) : (m.writeWord a v).wf = true := by
  unfold Memory.writeWord
  exact Memory.put_wf (Memory.put_wf (Memory.put_wf (Memory.put_wf h _ _) _ _) _ _) _ _

theorem Memory.writeWord_fits {m : Memory} {top : Nat} (h : m.fits top = true) {a : Nat} (ha : a + 4 ≤ top) (v : Word) :
    (m.writeWord a v).fits top = true := by
  unfold Memory.writeWord
  exact Memory.put_fits (Memory.put_fits (Memory.put_fits (Memory.put_fits h (by omega) _) (by omega) _) (by omega) _)
    (by omega) _

theorem Memory.read_writeWord_outside (m : Memory) {a b : Nat} (v : Word) (hb : b < a ∨ a + 4 ≤ b) :
    (m.writeWord a v).read b = m.read b := by
  unfold Memory.writeWord
  rw [Memory.read_put_other _ _ (by omega), Memory.read_put_other _ _ (by omega), Memory.read_put_other _ _ (by omega),
    Memory.read_put_other _ _ (by omega)]

theorem Memory.readWord_congr {m n : Memory} {a : Nat} (h : ∀ b, a ≤ b → b < a + 4 → m.read b = n.read b) :
    m.readWord a = n.readWord a := by
  unfold Memory.readWord
  rw [h a (by omega) (by omega), h (a + 1) (by omega) (by omega), h (a + 2) (by omega) (by omega),
    h (a + 3) (by omega) (by omega)]

theorem bytes_append (v : Word) :
    (v.extractLsb' 24 8 ++ v.extractLsb' 16 8 ++ v.extractLsb' 8 8 ++ v.extractLsb' 0 8 : BitVec 32) = v := by
  apply BitVec.eq_of_getLsbD_eq
  intro i hi
  simp only [BitVec.getLsbD_append, BitVec.getLsbD_extractLsb']
  split_ifs <;> simp <;> grind

theorem Memory.readWord_writeWord_self {m : Memory} (h : m.wf = true) (a : Nat) (v : Word) :
    (m.writeWord a v).readWord a = v := by
  have w1 := Memory.put_wf h a (v.extractLsb' 0 8)
  have w2 := Memory.put_wf w1 (a + 1) (v.extractLsb' 8 8)
  have w3 := Memory.put_wf w2 (a + 2) (v.extractLsb' 16 8)
  unfold Memory.readWord Memory.writeWord
  rw [Memory.read_put_self w3, Memory.read_put_other _ _ (by omega), Memory.read_put_self w2,
    Memory.read_put_other _ _ (by omega), Memory.read_put_other _ _ (by omega), Memory.read_put_self w1,
    Memory.read_put_other _ _ (by omega), Memory.read_put_other _ _ (by omega), Memory.read_put_other _ _ (by omega),
    Memory.read_put_self h]
  exact bytes_append v

theorem Memory.readWord_writeWord_apart (m : Memory) {a b : Nat} (v : Word) (hb : b + 4 ≤ a ∨ a + 4 ≤ b) :
    (m.writeWord a v).readWord b = m.readWord b :=
  Memory.readWord_congr fun c h1 h2 => Memory.read_writeWord_outside m v (by omega)

/-! ### Vectors -/

@[simp] theorem Memory.readLanes_length (m : Memory) (a n : Nat) : (m.readLanes a n).length = n := by
  induction n generalizing a with
  | zero => rfl
  | succ n ih => simp [Memory.readLanes, ih]

theorem Memory.readLanes_getElem (m : Memory) (a n l : Nat) (hl : l < (m.readLanes a n).length) :
    (m.readLanes a n)[l] = m.readWord (a + 4 * l) := by
  induction n generalizing a l with
  | zero => simp at hl
  | succ n ih =>
    cases l with
    | zero => simp [Memory.readLanes]
    | succ l =>
      simp only [Memory.readLanes, List.getElem_cons_succ]
      rw [ih (a + 4) l (by simpa [Memory.readLanes] using hl)]
      congr 1; omega

theorem Memory.writeLanes_wf {m : Memory} (h : m.wf = true) (a : Nat) (vs : List Word) : (m.writeLanes a vs).wf = true := by
  induction vs generalizing m a with
  | nil => exact h
  | cons v vs ih => exact ih (Memory.writeWord_wf h a v) _

theorem Memory.writeLanes_fits {m : Memory} {top : Nat} (h : m.fits top = true) {a : Nat} {vs : List Word}
    (ha : a + 4 * vs.length ≤ top) : (m.writeLanes a vs).fits top = true := by
  induction vs generalizing m a with
  | nil => exact h
  | cons v vs ih =>
    simp only [List.length_cons] at ha
    exact ih (Memory.writeWord_fits h (by omega) v) (by omega)

theorem Memory.read_writeLanes_outside (m : Memory) {a b : Nat} {vs : List Word} (hb : b < a ∨ a + 4 * vs.length ≤ b) :
    (m.writeLanes a vs).read b = m.read b := by
  induction vs generalizing m a with
  | nil => rfl
  | cons v vs ih =>
    simp only [List.length_cons] at hb
    rw [Memory.writeLanes, ih _ (by omega), Memory.read_writeWord_outside _ _ (by omega)]

theorem Memory.readWord_writeLanes {m : Memory} (h : m.wf = true) (a : Nat) (vs : List Word) (l : Nat) (hl : l < vs.length) :
    (m.writeLanes a vs).readWord (a + 4 * l) = vs[l] := by
  induction vs generalizing m a l with
  | nil => simp at hl
  | cons v vs ih =>
    cases l with
    | zero =>
      rw [Memory.writeLanes, Memory.readWord_congr (n := m.writeWord a v)
        (fun c h1 h2 => Memory.read_writeLanes_outside _ (by omega))]
      exact Memory.readWord_writeWord_self h a v
    | succ l =>
      have hi := ih (Memory.writeWord_wf h a v) (a + 4) l (by simpa using hl)
      simp only [Memory.writeLanes, List.getElem_cons_succ]
      rw [← hi]; congr 1; omega

/-! ### Bytes and drawn bytes -/

@[simp] theorem anyBytes_length (d n : Nat) : (anyBytes d n).length = n := by
  induction n generalizing d with
  | zero => rfl
  | succ n ih => simp [anyBytes, ih]

theorem anyBytes_getElem (d n i : Nat) (hi : i < (anyBytes d n).length) : (anyBytes d n)[i] = Config.anyByte (d + i) := by
  induction n generalizing d i with
  | zero => simp at hi
  | succ n ih =>
    cases i with
    | zero => rfl
    | succ i =>
      simp only [anyBytes, List.getElem_cons_succ]
      rw [ih (d + 1) i (by simpa [anyBytes] using hi)]
      congr 1; omega

theorem Memory.writeBytes_wf {m : Memory} (h : m.wf = true) (a : Nat) (vs : List Byte) : (m.writeBytes a vs).wf = true := by
  induction vs generalizing m a with
  | nil => exact h
  | cons v vs ih => exact ih (Memory.put_wf h a v) _

theorem Memory.writeBytes_fits {m : Memory} {top : Nat} (h : m.fits top = true) {a : Nat} {vs : List Byte}
    (ha : a + vs.length ≤ top) : (m.writeBytes a vs).fits top = true := by
  induction vs generalizing m a with
  | nil => exact h
  | cons v vs ih =>
    simp only [List.length_cons] at ha
    exact ih (Memory.put_fits h (by omega) v) (by omega)

theorem Memory.read_writeBytes_outside (m : Memory) {a b : Nat} {vs : List Byte} (hb : b < a ∨ a + vs.length ≤ b) :
    (m.writeBytes a vs).read b = m.read b := by
  induction vs generalizing m a with
  | nil => rfl
  | cons v vs ih =>
    simp only [List.length_cons] at hb
    rw [Memory.writeBytes, ih _ (by omega), Memory.read_put_other _ _ (by omega)]

theorem Memory.read_writeBytes {m : Memory} (h : m.wf = true) (a : Nat) (vs : List Byte) (i : Nat) (hi : i < vs.length) :
    (m.writeBytes a vs).read (a + i) = vs[i] := by
  induction vs generalizing m a i with
  | nil => simp at hi
  | cons v vs ih =>
    cases i with
    | zero =>
      rw [Memory.writeBytes, Memory.read_writeBytes_outside _ (by omega)]
      exact Memory.read_put_self h a v
    | succ i =>
      have hj := ih (Memory.put_wf h a v) (a + 1) i (by simpa using hi)
      simp only [Memory.writeBytes, List.getElem_cons_succ]
      rw [← hj]; congr 1; omega

theorem Memory.anyAt_wf {m : Memory} (h : m.wf = true) (d : Nat) (gs : List Region) : (m.anyAt d gs).wf = true := by
  induction gs generalizing m d with
  | nil => exact h
  | cons g gs ih => exact ih (Memory.writeBytes_wf h _ _) _

theorem Memory.anyAt_fits {m : Memory} {top : Nat} (h : m.fits top = true) (d : Nat) {gs : List Region}
    (hg : ∀ g ∈ gs, g.size = 0 ∨ g.base + g.size ≤ top) : (m.anyAt d gs).fits top = true := by
  induction gs generalizing m d with
  | nil => exact h
  | cons g gs ih =>
    refine ih ?_ _ (fun x hx => hg x (by simp [hx]))
    rcases hg g (by simp) with h0 | h1
    · simpa [h0, anyBytes, Memory.writeBytes] using h
    · exact Memory.writeBytes_fits h (by simpa using h1)

theorem regionsHold_cons (g : Region) (gs : List Region) (a : Nat) :
    regionsHold (g :: gs) a = (g.holds a || regionsHold gs a) := rfl

theorem Region.holds_iff (g : Region) (a : Nat) : g.holds a = true ↔ g.base ≤ a ∧ a < g.base + g.size := by
  simp [Region.holds]

theorem Memory.read_anyAt_outside (m : Memory) (d : Nat) {gs : List Region} {a : Nat} (ha : regionsHold gs a = false) :
    (m.anyAt d gs).read a = m.read a := by
  induction gs generalizing m d with
  | nil => rfl
  | cons g gs ih =>
    rw [regionsHold_cons, Bool.or_eq_false_iff] at ha
    have hg : ¬ (g.base ≤ a ∧ a < g.base + g.size) := fun h => by simp [(g.holds_iff a).2 h] at ha
    rw [Memory.anyAt, ih _ _ ha.2, Memory.read_writeBytes_outside _ (by simp; omega)]

/-- A byte of the regions reads as some draw. -/
theorem Memory.read_anyAt_inside {m : Memory} (h : m.wf = true) (d : Nat) {gs : List Region} {a : Nat}
    (ha : regionsHold gs a = true) : ∃ k, (m.anyAt d gs).read a = Config.anyByte k := by
  induction gs generalizing m d with
  | nil => simp [regionsHold] at ha
  | cons g gs ih =>
    have hw := Memory.writeBytes_wf h g.base (anyBytes d g.size)
    by_cases hr : regionsHold gs a = true
    · exact ih hw _ hr
    · have hg : g.holds a = true := by
        rw [regionsHold_cons] at ha; simpa [Bool.not_eq_true _ ▸ hr] using ha
      obtain ⟨h1, h2⟩ := (g.holds_iff a).1 hg
      refine ⟨d + (a - g.base), ?_⟩
      rw [Memory.anyAt, Memory.read_anyAt_outside _ _ (by simpa using hr)]
      have := Memory.read_writeBytes h g.base (anyBytes d g.size) (a - g.base) (by simp; omega)
      rw [anyBytes_getElem, Nat.add_sub_cancel' h1] at this
      exact this

/-- Regions without a byte change nothing. -/
theorem Memory.anyAt_empty (m : Memory) (d : Nat) {gs : List Region} (h : ∀ g ∈ gs, g.size = 0) : m.anyAt d gs = m := by
  induction gs generalizing m d with
  | nil => rfl
  | cons g gs ih =>
    have hg := h g (by simp)
    rw [Memory.anyAt, hg]
    exact ih m _ (fun x hx => h x (by simp [hx]))

theorem regionsSize_empty {gs : List Region} (h : ∀ g ∈ gs, g.size = 0) : regionsSize gs = 0 := by
  induction gs with
  | nil => rfl
  | cons g gs ih =>
    simp only [regionsSize, List.map_cons, List.sum_cons]
    rw [h g (by simp), show (gs.map (·.size)).sum = 0 from ih (fun x hx => h x (by simp [hx]))]

/-! ### Regions -/

theorem Region.meets_false_iff (g h : Region) :
    g.meets h = false ↔ g.size = 0 ∨ h.size = 0 ∨ h.base + h.size ≤ g.base ∨ g.base + g.size ≤ h.base := by
  unfold Region.meets
  rw [← Bool.not_eq_true]
  simp only [Bool.and_eq_true, bne_iff_ne, ne_eq, decide_eq_true_eq]
  omega

theorem Region.inter_size_zero {g h : Region} (hm : h.meets g = false) : (g.inter h).size = 0 := by
  rw [Region.meets_false_iff] at hm
  unfold Region.inter
  simp only
  omega

theorem regionsMeet_false {gs hs : List Region} (h : regionsMeet gs hs = false) {a b : Region} (ha : a ∈ gs) (hb : b ∈ hs) :
    a.meets b = false := by
  simp only [regionsMeet, List.any_eq_false] at h
  simpa using fun hc => h a ha (List.any_eq_true.2 ⟨b, hb, hc⟩)

end Sys2Proof.Machine
end

