-- ==== Sys2Proof/Laws/State.lean ====
section
/-! SUPPORT. One lemma per field per named update of State, true by rfl, so that no proof unfolds a record update; and the
base pairs as a store: reading after writing. -/

namespace Sys2Proof.Machine

/-! ### `setOvr` -/

@[simp] theorem State.setOvr_params (s : State) : s.setOvr.params = s.params := rfl
@[simp] theorem State.setOvr_precision (s : State) : s.setOvr.precision = s.precision := rfl
@[simp] theorem State.setOvr_status (s : State) : s.setOvr.status = { s.status with ovr := true } := rfl
@[simp] theorem State.setOvr_faultAddr (s : State) : s.setOvr.faultAddr = s.faultAddr := rfl
@[simp] theorem State.setOvr_viewCount (s : State) : s.setOvr.viewCount = s.viewCount := rfl
@[simp] theorem State.setOvr_viewLen (s : State) : s.setOvr.viewLen = s.viewLen := rfl
@[simp] theorem State.setOvr_bases (s : State) : s.setOvr.bases = s.bases := rfl
@[simp] theorem State.setOvr_rgbLen (s : State) : s.setOvr.rgbLen = s.rgbLen := rfl
@[simp] theorem State.setOvr_sliceStart (s : State) : s.setOvr.sliceStart = s.sliceStart := rfl
@[simp] theorem State.setOvr_sliceLen (s : State) : s.setOvr.sliceLen = s.sliceLen := rfl
@[simp] theorem State.setOvr_phase (s : State) : s.setOvr.phase = s.phase := rfl
@[simp] theorem State.setOvr_mem (s : State) : s.setOvr.mem = s.mem := rfl
@[simp] theorem State.setOvr_rstN (s : State) : s.setOvr.rstN = s.rstN := rfl
@[simp] theorem State.setOvr_response (s : State) : s.setOvr.response = s.response := rfl
@[simp] theorem State.setOvr_inputs (s : State) : s.setOvr.inputs = s.inputs := rfl
@[simp] theorem State.setOvr_progress (s : State) : s.setOvr.progress = s.progress := rfl
@[simp] theorem State.setOvr_platform (s : State) : s.setOvr.platform = s.platform := rfl
@[simp] theorem State.setOvr_peers (s : State) : s.setOvr.peers = s.peers := rfl
@[simp] theorem State.setOvr_nanDraws (s : State) : s.setOvr.nanDraws = s.nanDraws := rfl
@[simp] theorem State.setOvr_byteDraws (s : State) : s.setOvr.byteDraws = s.byteDraws := rfl

/-! ### `clearedForIssue` -/

@[simp] theorem State.clearedForIssue_params (s : State) : s.clearedForIssue.params = s.params := rfl
@[simp] theorem State.clearedForIssue_precision (s : State) : s.clearedForIssue.precision = s.precision := rfl
@[simp] theorem State.clearedForIssue_status (s : State) : s.clearedForIssue.status = { s.status with done := false, err := false, ecode := .none } := rfl
@[simp] theorem State.clearedForIssue_faultAddr (s : State) : s.clearedForIssue.faultAddr = ⟨0, 0⟩ := rfl
@[simp] theorem State.clearedForIssue_viewCount (s : State) : s.clearedForIssue.viewCount = s.viewCount := rfl
@[simp] theorem State.clearedForIssue_viewLen (s : State) : s.clearedForIssue.viewLen = s.viewLen := rfl
@[simp] theorem State.clearedForIssue_bases (s : State) : s.clearedForIssue.bases = s.bases := rfl
@[simp] theorem State.clearedForIssue_rgbLen (s : State) : s.clearedForIssue.rgbLen = s.rgbLen := rfl
@[simp] theorem State.clearedForIssue_sliceStart (s : State) : s.clearedForIssue.sliceStart = s.sliceStart := rfl
@[simp] theorem State.clearedForIssue_sliceLen (s : State) : s.clearedForIssue.sliceLen = s.sliceLen := rfl
@[simp] theorem State.clearedForIssue_phase (s : State) : s.clearedForIssue.phase = s.phase := rfl
@[simp] theorem State.clearedForIssue_mem (s : State) : s.clearedForIssue.mem = s.mem := rfl
@[simp] theorem State.clearedForIssue_rstN (s : State) : s.clearedForIssue.rstN = s.rstN := rfl
@[simp] theorem State.clearedForIssue_response (s : State) : s.clearedForIssue.response = s.response := rfl
@[simp] theorem State.clearedForIssue_inputs (s : State) : s.clearedForIssue.inputs = s.inputs := rfl
@[simp] theorem State.clearedForIssue_progress (s : State) : s.clearedForIssue.progress = s.progress := rfl
@[simp] theorem State.clearedForIssue_platform (s : State) : s.clearedForIssue.platform = s.platform := rfl
@[simp] theorem State.clearedForIssue_peers (s : State) : s.clearedForIssue.peers = s.peers := rfl
@[simp] theorem State.clearedForIssue_nanDraws (s : State) : s.clearedForIssue.nanDraws = s.nanDraws := rfl
@[simp] theorem State.clearedForIssue_byteDraws (s : State) : s.clearedForIssue.byteDraws = s.byteDraws := rfl

/-! ### `raiseError` -/

@[simp] theorem State.raiseError_params (s : State) (c : Ecode) (a : Nat) : (s.raiseError c a).params = s.params := rfl
@[simp] theorem State.raiseError_precision (s : State) (c : Ecode) (a : Nat) : (s.raiseError c a).precision = s.precision := rfl
@[simp] theorem State.raiseError_status (s : State) (c : Ecode) (a : Nat) : (s.raiseError c a).status = s.status.failed c := rfl
@[simp] theorem State.raiseError_faultAddr (s : State) (c : Ecode) (a : Nat) : (s.raiseError c a).faultAddr = AddrPair.ofNat a := rfl
@[simp] theorem State.raiseError_viewCount (s : State) (c : Ecode) (a : Nat) : (s.raiseError c a).viewCount = s.viewCount := rfl
@[simp] theorem State.raiseError_viewLen (s : State) (c : Ecode) (a : Nat) : (s.raiseError c a).viewLen = s.viewLen := rfl
@[simp] theorem State.raiseError_bases (s : State) (c : Ecode) (a : Nat) : (s.raiseError c a).bases = s.bases := rfl
@[simp] theorem State.raiseError_rgbLen (s : State) (c : Ecode) (a : Nat) : (s.raiseError c a).rgbLen = s.rgbLen := rfl
@[simp] theorem State.raiseError_sliceStart (s : State) (c : Ecode) (a : Nat) : (s.raiseError c a).sliceStart = s.sliceStart := rfl
@[simp] theorem State.raiseError_sliceLen (s : State) (c : Ecode) (a : Nat) : (s.raiseError c a).sliceLen = s.sliceLen := rfl
@[simp] theorem State.raiseError_phase (s : State) (c : Ecode) (a : Nat) : (s.raiseError c a).phase = .idle := rfl
@[simp] theorem State.raiseError_mem (s : State) (c : Ecode) (a : Nat) : (s.raiseError c a).mem = s.mem := rfl
@[simp] theorem State.raiseError_rstN (s : State) (c : Ecode) (a : Nat) : (s.raiseError c a).rstN = s.rstN := rfl
@[simp] theorem State.raiseError_response (s : State) (c : Ecode) (a : Nat) : (s.raiseError c a).response = s.response := rfl
@[simp] theorem State.raiseError_inputs (s : State) (c : Ecode) (a : Nat) : (s.raiseError c a).inputs = s.inputs := rfl
@[simp] theorem State.raiseError_progress (s : State) (c : Ecode) (a : Nat) : (s.raiseError c a).progress = s.progress := rfl
@[simp] theorem State.raiseError_platform (s : State) (c : Ecode) (a : Nat) : (s.raiseError c a).platform = s.platform := rfl
@[simp] theorem State.raiseError_peers (s : State) (c : Ecode) (a : Nat) : (s.raiseError c a).peers = s.peers := rfl
@[simp] theorem State.raiseError_nanDraws (s : State) (c : Ecode) (a : Nat) : (s.raiseError c a).nanDraws = s.nanDraws := rfl
@[simp] theorem State.raiseError_byteDraws (s : State) (c : Ecode) (a : Nat) : (s.raiseError c a).byteDraws = s.byteDraws := rfl

/-! ### `endOk` -/

@[simp] theorem State.endOk_params (s : State) : s.endOk.params = s.params := rfl
@[simp] theorem State.endOk_precision (s : State) : s.endOk.precision = s.precision := rfl
@[simp] theorem State.endOk_status (s : State) : s.endOk.status = s.status.succeeded := rfl
@[simp] theorem State.endOk_faultAddr (s : State) : s.endOk.faultAddr = s.faultAddr := rfl
@[simp] theorem State.endOk_viewCount (s : State) : s.endOk.viewCount = s.viewCount := rfl
@[simp] theorem State.endOk_viewLen (s : State) : s.endOk.viewLen = s.viewLen := rfl
@[simp] theorem State.endOk_bases (s : State) : s.endOk.bases = s.bases := rfl
@[simp] theorem State.endOk_rgbLen (s : State) : s.endOk.rgbLen = s.rgbLen := rfl
@[simp] theorem State.endOk_sliceStart (s : State) : s.endOk.sliceStart = s.sliceStart := rfl
@[simp] theorem State.endOk_sliceLen (s : State) : s.endOk.sliceLen = s.sliceLen := rfl
@[simp] theorem State.endOk_phase (s : State) : s.endOk.phase = .idle := rfl
@[simp] theorem State.endOk_mem (s : State) : s.endOk.mem = s.mem := rfl
@[simp] theorem State.endOk_rstN (s : State) : s.endOk.rstN = s.rstN := rfl
@[simp] theorem State.endOk_response (s : State) : s.endOk.response = s.response := rfl
@[simp] theorem State.endOk_inputs (s : State) : s.endOk.inputs = s.inputs := rfl
@[simp] theorem State.endOk_progress (s : State) : s.endOk.progress = s.progress := rfl
@[simp] theorem State.endOk_platform (s : State) : s.endOk.platform = s.platform := rfl
@[simp] theorem State.endOk_peers (s : State) : s.endOk.peers = s.peers := rfl
@[simp] theorem State.endOk_nanDraws (s : State) : s.endOk.nanDraws = s.nanDraws := rfl
@[simp] theorem State.endOk_byteDraws (s : State) : s.endOk.byteDraws = s.byteDraws := rfl

/-! ### `anyIn` -/

@[simp] theorem State.anyIn_params (s : State) (gs : List Region) : (s.anyIn gs).params = s.params := rfl
@[simp] theorem State.anyIn_precision (s : State) (gs : List Region) : (s.anyIn gs).precision = s.precision := rfl
@[simp] theorem State.anyIn_status (s : State) (gs : List Region) : (s.anyIn gs).status = s.status := rfl
@[simp] theorem State.anyIn_faultAddr (s : State) (gs : List Region) : (s.anyIn gs).faultAddr = s.faultAddr := rfl
@[simp] theorem State.anyIn_viewCount (s : State) (gs : List Region) : (s.anyIn gs).viewCount = s.viewCount := rfl
@[simp] theorem State.anyIn_viewLen (s : State) (gs : List Region) : (s.anyIn gs).viewLen = s.viewLen := rfl
@[simp] theorem State.anyIn_bases (s : State) (gs : List Region) : (s.anyIn gs).bases = s.bases := rfl
@[simp] theorem State.anyIn_rgbLen (s : State) (gs : List Region) : (s.anyIn gs).rgbLen = s.rgbLen := rfl
@[simp] theorem State.anyIn_sliceStart (s : State) (gs : List Region) : (s.anyIn gs).sliceStart = s.sliceStart := rfl
@[simp] theorem State.anyIn_sliceLen (s : State) (gs : List Region) : (s.anyIn gs).sliceLen = s.sliceLen := rfl
@[simp] theorem State.anyIn_phase (s : State) (gs : List Region) : (s.anyIn gs).phase = s.phase := rfl
@[simp] theorem State.anyIn_mem (s : State) (gs : List Region) : (s.anyIn gs).mem = s.mem.anyAt s.byteDraws gs := rfl
@[simp] theorem State.anyIn_rstN (s : State) (gs : List Region) : (s.anyIn gs).rstN = s.rstN := rfl
@[simp] theorem State.anyIn_response (s : State) (gs : List Region) : (s.anyIn gs).response = s.response := rfl
@[simp] theorem State.anyIn_inputs (s : State) (gs : List Region) : (s.anyIn gs).inputs = s.inputs := rfl
@[simp] theorem State.anyIn_progress (s : State) (gs : List Region) : (s.anyIn gs).progress = s.progress := rfl
@[simp] theorem State.anyIn_platform (s : State) (gs : List Region) : (s.anyIn gs).platform = s.platform := rfl
@[simp] theorem State.anyIn_peers (s : State) (gs : List Region) : (s.anyIn gs).peers = s.peers := rfl
@[simp] theorem State.anyIn_nanDraws (s : State) (gs : List Region) : (s.anyIn gs).nanDraws = s.nanDraws := rfl
@[simp] theorem State.anyIn_byteDraws (s : State) (gs : List Region) : (s.anyIn gs).byteDraws = s.byteDraws + regionsSize gs := rfl

/-! ### `sliced` -/

@[simp] theorem State.sliced_params (s : State) : s.sliced.params = s.params := rfl
@[simp] theorem State.sliced_precision (s : State) : s.sliced.precision = s.precision := rfl
@[simp] theorem State.sliced_status (s : State) : s.sliced.status = s.status.succeeded := rfl
@[simp] theorem State.sliced_faultAddr (s : State) : s.sliced.faultAddr = s.faultAddr := rfl
@[simp] theorem State.sliced_viewCount (s : State) : s.sliced.viewCount = s.viewCount := rfl
@[simp] theorem State.sliced_viewLen (s : State) : s.sliced.viewLen = s.sliceLen := rfl
@[simp] theorem State.sliced_bases (s : State) : s.sliced.bases = s.slicedBases := rfl
@[simp] theorem State.sliced_rgbLen (s : State) : s.sliced.rgbLen = s.rgbLen := rfl
@[simp] theorem State.sliced_sliceStart (s : State) : s.sliced.sliceStart = s.sliceStart := rfl
@[simp] theorem State.sliced_sliceLen (s : State) : s.sliced.sliceLen = s.sliceLen := rfl
@[simp] theorem State.sliced_phase (s : State) : s.sliced.phase = s.phase := rfl
@[simp] theorem State.sliced_mem (s : State) : s.sliced.mem = s.mem := rfl
@[simp] theorem State.sliced_rstN (s : State) : s.sliced.rstN = s.rstN := rfl
@[simp] theorem State.sliced_response (s : State) : s.sliced.response = s.response := rfl
@[simp] theorem State.sliced_inputs (s : State) : s.sliced.inputs = s.inputs := rfl
@[simp] theorem State.sliced_progress (s : State) : s.sliced.progress = s.progress := rfl
@[simp] theorem State.sliced_platform (s : State) : s.sliced.platform = s.platform := rfl
@[simp] theorem State.sliced_peers (s : State) : s.sliced.peers = s.peers := rfl
@[simp] theorem State.sliced_nanDraws (s : State) : s.sliced.nanDraws = s.nanDraws := rfl
@[simp] theorem State.sliced_byteDraws (s : State) : s.sliced.byteDraws = s.byteDraws := rfl

/-! ### `start` -/

@[simp] theorem State.start_params (s : State) (i : Instr) (p : Plan) : (s.start i p).params = s.params := rfl
@[simp] theorem State.start_precision (s : State) (i : Instr) (p : Plan) : (s.start i p).precision = s.precision := rfl
@[simp] theorem State.start_status (s : State) (i : Instr) (p : Plan) : (s.start i p).status = s.status := rfl
@[simp] theorem State.start_faultAddr (s : State) (i : Instr) (p : Plan) : (s.start i p).faultAddr = s.faultAddr := rfl
@[simp] theorem State.start_viewCount (s : State) (i : Instr) (p : Plan) : (s.start i p).viewCount = s.viewCount := rfl
@[simp] theorem State.start_viewLen (s : State) (i : Instr) (p : Plan) : (s.start i p).viewLen = s.viewLen := rfl
@[simp] theorem State.start_bases (s : State) (i : Instr) (p : Plan) : (s.start i p).bases = s.bases := rfl
@[simp] theorem State.start_rgbLen (s : State) (i : Instr) (p : Plan) : (s.start i p).rgbLen = s.rgbLen := rfl
@[simp] theorem State.start_sliceStart (s : State) (i : Instr) (p : Plan) : (s.start i p).sliceStart = s.sliceStart := rfl
@[simp] theorem State.start_sliceLen (s : State) (i : Instr) (p : Plan) : (s.start i p).sliceLen = s.sliceLen := rfl
@[simp] theorem State.start_phase (s : State) (i : Instr) (p : Plan) :
    (s.start i p).phase = .run ⟨i, p, 0, .readR, [], [], [], s.peersMeet p.readRegions p.writeRegions⟩ := rfl
@[simp] theorem State.start_mem (s : State) (i : Instr) (p : Plan) : (s.start i p).mem = s.mem := rfl
@[simp] theorem State.start_rstN (s : State) (i : Instr) (p : Plan) : (s.start i p).rstN = s.rstN := rfl
@[simp] theorem State.start_response (s : State) (i : Instr) (p : Plan) : (s.start i p).response = s.response := rfl
@[simp] theorem State.start_inputs (s : State) (i : Instr) (p : Plan) : (s.start i p).inputs = s.inputs := rfl
@[simp] theorem State.start_progress (s : State) (i : Instr) (p : Plan) : (s.start i p).progress = s.progress := rfl
@[simp] theorem State.start_platform (s : State) (i : Instr) (p : Plan) : (s.start i p).platform = s.platform := rfl
@[simp] theorem State.start_peers (s : State) (i : Instr) (p : Plan) :
    (s.start i p).peers = s.peersMarked p.readRegions p.writeRegions := rfl
@[simp] theorem State.start_nanDraws (s : State) (i : Instr) (p : Plan) : (s.start i p).nanDraws = s.nanDraws := rfl
@[simp] theorem State.start_byteDraws (s : State) (i : Instr) (p : Plan) : (s.start i p).byteDraws = s.byteDraws := rfl

/-! ### `endUnit` -/

@[simp] theorem State.endUnit_params (s : State) (r : Run) : (s.endUnit r).params = s.params := rfl
@[simp] theorem State.endUnit_precision (s : State) (r : Run) : (s.endUnit r).precision = s.precision := rfl
@[simp] theorem State.endUnit_status (s : State) (r : Run) : (s.endUnit r).status = s.status := rfl
@[simp] theorem State.endUnit_faultAddr (s : State) (r : Run) : (s.endUnit r).faultAddr = s.faultAddr := rfl
@[simp] theorem State.endUnit_viewCount (s : State) (r : Run) : (s.endUnit r).viewCount = s.viewCount := rfl
@[simp] theorem State.endUnit_viewLen (s : State) (r : Run) : (s.endUnit r).viewLen = s.viewLen := rfl
@[simp] theorem State.endUnit_bases (s : State) (r : Run) : (s.endUnit r).bases = s.bases := rfl
@[simp] theorem State.endUnit_rgbLen (s : State) (r : Run) : (s.endUnit r).rgbLen = s.rgbLen := rfl
@[simp] theorem State.endUnit_sliceStart (s : State) (r : Run) : (s.endUnit r).sliceStart = s.sliceStart := rfl
@[simp] theorem State.endUnit_sliceLen (s : State) (r : Run) : (s.endUnit r).sliceLen = s.sliceLen := rfl
@[simp] theorem State.endUnit_phase (s : State) (r : Run) : (s.endUnit r).phase = .run r.nextUnit := rfl
@[simp] theorem State.endUnit_mem (s : State) (r : Run) : (s.endUnit r).mem = s.mem := rfl
@[simp] theorem State.endUnit_rstN (s : State) (r : Run) : (s.endUnit r).rstN = s.rstN := rfl
@[simp] theorem State.endUnit_response (s : State) (r : Run) : (s.endUnit r).response = s.response := rfl
@[simp] theorem State.endUnit_inputs (s : State) (r : Run) : (s.endUnit r).inputs = s.inputs := rfl
@[simp] theorem State.endUnit_progress (s : State) (r : Run) : (s.endUnit r).progress = s.progress := rfl
@[simp] theorem State.endUnit_platform (s : State) (r : Run) : (s.endUnit r).platform = s.platform := rfl
@[simp] theorem State.endUnit_peers (s : State) (r : Run) : (s.endUnit r).peers = s.peers := rfl
@[simp] theorem State.endUnit_nanDraws (s : State) (r : Run) : (s.endUnit r).nanDraws = s.nanDraws + drawsPerLane * r.plan.unitLanes r.unit := rfl
@[simp] theorem State.endUnit_byteDraws (s : State) (r : Run) : (s.endUnit r).byteDraws = s.byteDraws := rfl

/-! ### `storeResults` -/

@[simp] theorem State.storeResults_params (s : State) (r : Run) (f : Ycc → Word) : (s.storeResults r f).params = s.params := rfl
@[simp] theorem State.storeResults_precision (s : State) (r : Run) (f : Ycc → Word) : (s.storeResults r f).precision = s.precision := rfl
@[simp] theorem State.storeResults_status (s : State) (r : Run) (f : Ycc → Word) : (s.storeResults r f).status = s.status := rfl
@[simp] theorem State.storeResults_faultAddr (s : State) (r : Run) (f : Ycc → Word) : (s.storeResults r f).faultAddr = s.faultAddr := rfl
@[simp] theorem State.storeResults_viewCount (s : State) (r : Run) (f : Ycc → Word) : (s.storeResults r f).viewCount = s.viewCount := rfl
@[simp] theorem State.storeResults_viewLen (s : State) (r : Run) (f : Ycc → Word) : (s.storeResults r f).viewLen = s.viewLen := rfl
@[simp] theorem State.storeResults_bases (s : State) (r : Run) (f : Ycc → Word) : (s.storeResults r f).bases = s.bases := rfl
@[simp] theorem State.storeResults_rgbLen (s : State) (r : Run) (f : Ycc → Word) : (s.storeResults r f).rgbLen = s.rgbLen := rfl
@[simp] theorem State.storeResults_sliceStart (s : State) (r : Run) (f : Ycc → Word) : (s.storeResults r f).sliceStart = s.sliceStart := rfl
@[simp] theorem State.storeResults_sliceLen (s : State) (r : Run) (f : Ycc → Word) : (s.storeResults r f).sliceLen = s.sliceLen := rfl
@[simp] theorem State.storeResults_phase (s : State) (r : Run) (f : Ycc → Word) : (s.storeResults r f).phase = s.phase := rfl
@[simp] theorem State.storeResults_mem (s : State) (r : Run) (f : Ycc → Word) : (s.storeResults r f).mem = s.mem.writeLanes r.request.addr ((r.results s.nanDraws).map f) := rfl
@[simp] theorem State.storeResults_rstN (s : State) (r : Run) (f : Ycc → Word) : (s.storeResults r f).rstN = s.rstN := rfl
@[simp] theorem State.storeResults_response (s : State) (r : Run) (f : Ycc → Word) : (s.storeResults r f).response = s.response := rfl
@[simp] theorem State.storeResults_inputs (s : State) (r : Run) (f : Ycc → Word) : (s.storeResults r f).inputs = s.inputs := rfl
@[simp] theorem State.storeResults_progress (s : State) (r : Run) (f : Ycc → Word) : (s.storeResults r f).progress = s.progress := rfl
@[simp] theorem State.storeResults_platform (s : State) (r : Run) (f : Ycc → Word) : (s.storeResults r f).platform = s.platform := rfl
@[simp] theorem State.storeResults_peers (s : State) (r : Run) (f : Ycc → Word) : (s.storeResults r f).peers = s.peers := rfl
@[simp] theorem State.storeResults_nanDraws (s : State) (r : Run) (f : Ycc → Word) : (s.storeResults r f).nanDraws = s.nanDraws := rfl
@[simp] theorem State.storeResults_byteDraws (s : State) (r : Run) (f : Ycc → Word) : (s.storeResults r f).byteDraws = s.byteDraws := rfl

/-! ### Base pairs -/

@[simp] theorem Bases.get_set_self (bs : Bases) (p : Plane) (a : AddrPair) : (bs.set p a).get p = a := by cases p <;> rfl

theorem Bases.get_set_other (bs : Bases) {p q : Plane} (a : AddrPair) (h : q ≠ p) : (bs.set p a).get q = bs.get q := by
  cases p <;> cases q <;> first | rfl | exact absurd rfl h

/-! ### STATUS -/

@[simp] theorem Status.failed_done (st : Status) (c : Ecode) : (st.failed c).done = st.done := rfl
@[simp] theorem Status.failed_err (st : Status) (c : Ecode) : (st.failed c).err = true := rfl
@[simp] theorem Status.failed_ovr (st : Status) (c : Ecode) : (st.failed c).ovr = st.ovr := rfl
@[simp] theorem Status.failed_ecode (st : Status) (c : Ecode) : (st.failed c).ecode = c := rfl
@[simp] theorem Status.succeeded_done (st : Status) : st.succeeded.done = true := rfl
@[simp] theorem Status.succeeded_err (st : Status) : st.succeeded.err = st.err := rfl
@[simp] theorem Status.succeeded_ovr (st : Status) : st.succeeded.ovr = st.ovr := rfl
@[simp] theorem Status.succeeded_ecode (st : Status) : st.succeeded.ecode = st.ecode := rfl

theorem State.busy_of_idle {s : State} (h : s.phase = .idle) : s.busy = false := by unfold State.busy; rw [h]

theorem State.busy_of_run {s : State} {r : Run} (h : s.phase = .run r) : s.busy = true := by unfold State.busy; rw [h]

theorem State.idle_of_not_busy {s : State} (h : s.busy = false) : s.phase = .idle := by
  cases hp : s.phase with
  | idle => rfl
  | run r => rw [State.busy_of_run hp] at h; cases h

end Sys2Proof.Machine
end

