-- ==== Sys2Proof/Laws/Engine.lean ====
section
/-! SUPPORT. What the engine can do: one inversion lemma per operation, the induction over its actions, and what an action
leaves unchanged. -/

namespace Sys2Proof.Machine

/-! ### One action -/

/-- The cases of an action of the engine. -/
theorem State.engineStep_cases (s : State) :
    (s.phase = .idle ∧ s.engineStep = s) ∨
    ∃ r, s.phase = .run r ∧
      ((r.plan.units ≤ r.unit ∧ s.engineStep = s.finish r) ∨
       (r.unit < r.plan.units ∧ answer s.params s.platform r.request = .ok ∧ s.engineStep = s.perform r) ∨
       (r.unit < r.plan.units ∧ answer s.params s.platform r.request = .error ∧ s.engineStep = s.busError r) ∨
       (r.unit < r.plan.units ∧ answer s.params s.platform r.request = .never ∧ s.engineStep = s)) := by
  cases hp : s.phase with
  | idle => left; simp [State.engineStep, hp]
  | run r =>
    refine .inr ⟨r, rfl, ?_⟩
    by_cases hu : r.plan.units ≤ r.unit
    · left; simp [State.engineStep, hp, hu]
    · right
      cases ha : answer s.params s.platform r.request <;> simp [State.engineStep, hp, hu, ha] <;> omega

theorem State.canAct_eq_false {s : State} (h : s.canAct = false) : s.engineStep = s := by
  rcases s.engineStep_cases with ⟨_, h'⟩ | ⟨r, hp, h'⟩
  · exact h'
  · simp only [State.canAct, hp, Bool.or_eq_false_iff, decide_eq_false_iff_not, bne_eq_false_iff_eq] at h
    rcases h' with ⟨hu, _⟩ | ⟨_, ha, _⟩ | ⟨_, ha, _⟩ | ⟨_, _, he⟩
    · exact absurd hu h.1
    · rw [ha] at h; cases h.2
    · rw [ha] at h; cases h.2
    · exact he

/-- A request answered OK leads to the next one or to the next unit; memory changes by the unit's results only. -/
theorem State.perform_cases (s : State) (r : Run) :
    (∃ r', s.perform r = { s with phase := .run r' } ∧ r'.plan = r.plan ∧ r'.cmd = r.cmd ∧ r'.raced = r.raced) ∨
    (∃ f r' n, s.perform r = { s.storeResults r f with phase := .run r', nanDraws := n } ∧ r.stage.kind = .write ∧
      r'.plan = r.plan ∧ r'.cmd = r.cmd ∧ r'.raced = r.raced) := by
  cases hs : r.stage with
  | readR =>
    exact .inl ⟨{ r with rv := s.mem.readLanes r.request.addr (r.plan.unitLanes r.unit), stage := .readG },
      by simp only [State.perform, hs], rfl, rfl, rfl⟩
  | readG =>
    exact .inl ⟨{ r with gv := s.mem.readLanes r.request.addr (r.plan.unitLanes r.unit), stage := .readB },
      by simp only [State.perform, hs], rfl, rfl, rfl⟩
  | readB =>
    exact .inl ⟨{ r with bv := s.mem.readLanes r.request.addr (r.plan.unitLanes r.unit), stage := .writeY },
      by simp only [State.perform, hs], rfl, rfl, rfl⟩
  | writeY =>
    right
    cases hg : r.plan.gray with
    | true =>
      exact ⟨Ycc.y, r.nextUnit, _, by simp only [State.perform, hs, hg, if_true]; rfl, rfl, rfl, rfl, rfl⟩
    | false =>
      exact ⟨Ycc.y, { r with stage := .writeCb }, s.nanDraws, by simp [State.perform, hs, hg, State.storeResults], rfl, rfl,
        rfl, rfl⟩
  | writeCb =>
    exact .inr ⟨Ycc.cb, { r with stage := .writeCr }, s.nanDraws, by simp [State.perform, hs, State.storeResults], rfl, rfl,
      rfl, rfl⟩
  | writeCr => exact .inr ⟨Ycc.cr, r.nextUnit, _, by simp only [State.perform, hs]; rfl, rfl, rfl, rfl, rfl⟩

/-! ### Any number of actions -/

@[simp] theorem State.advance_zero (s : State) : s.advance 0 = s := rfl

theorem State.advance_succ (s : State) (n : Nat) : s.advance (n + 1) = s.engineStep.advance n := by
  cases h : s.canAct with
  | true => simp [State.advance, h]
  | false =>
    have hs := State.canAct_eq_false h
    have stuck : ∀ k, s.advance k = s := fun k => by cases k <;> simp [State.advance, h]
    rw [hs, stuck, stuck]

/-- What every action keeps, any number of actions keeps. -/
theorem State.advance_keeps {P : State → Prop} (step : ∀ s, P s → P s.engineStep) {s : State} (h : P s) (n : Nat) :
    P (s.advance n) := by
  induction n generalizing s with
  | zero => exact h
  | succ n ih => rw [State.advance_succ]; exact ih (step s h)

theorem State.advance_idle {s : State} (h : s.phase = .idle) (n : Nat) : s.advance n = s := by
  cases n with
  | zero => rfl
  | succ n => simp [State.advance, State.canAct, h]

/-! ### What the engine leaves unchanged -/

/-- Two states agree on everything but what a running command may change: STATUS but OVR, FAULT_ADDR, the internal command
state, memory and the draws. -/
def State.sameButCommand (s t : State) : Prop :=
  t = { s with
    status := ⟨t.status.done, t.status.err, s.status.ovr, t.status.ecode⟩
    faultAddr := t.faultAddr
    phase := t.phase
    mem := t.mem
    nanDraws := t.nanDraws
    byteDraws := t.byteDraws }

theorem State.sameButCommand_refl (s : State) : s.sameButCommand s := rfl

theorem State.sameButCommand_trans {s t u : State} (h : s.sameButCommand t) (k : t.sameButCommand u) : s.sameButCommand u := by
  unfold State.sameButCommand at *
  rw [h] at k
  rw [k]

theorem State.engineStep_same (s : State) : s.sameButCommand s.engineStep := by
  rcases s.engineStep_cases with ⟨_, h⟩ | ⟨r, _, ⟨_, h⟩ | ⟨_, _, h⟩ | ⟨_, _, h⟩ | ⟨_, _, h⟩⟩ <;> rw [h]
  · rfl
  · rfl
  · rcases s.perform_cases r with ⟨r', h', _⟩ | ⟨f, r', n, h', _⟩ <;> rw [h'] <;> rfl
  · rfl
  · rfl

theorem State.advance_same (s : State) (n : Nat) : s.sameButCommand (s.advance n) :=
  State.advance_keeps (P := s.sameButCommand) (fun t h => State.sameButCommand_trans h t.engineStep_same)
    s.sameButCommand_refl n

/-! ### Going on, and issuing -/

/-- If `resume` answers a next state, then no command runs and nothing changes, or the engine has acted. -/
theorem State.resume_next {s t : State} (h : s.resume = .next t) :
    (s.phase = .idle ∧ t = s) ∨
    ∃ r, s.phase = .run r ∧ regionsMeet s.platform.devices r.plan.regions = false ∧ t = s.advance (s.due r) := by
  unfold State.resume at h
  cases hp : s.phase with
  | idle => rw [hp] at h; injection h with h; exact .inl ⟨rfl, h.symm⟩
  | run r =>
    simp only [hp] at h
    cases hd : regionsMeet s.platform.devices r.plan.regions with
    | true => rw [hd] at h; cases h
    | false =>
      simp only [hd, Bool.false_eq_true, if_false, Host.Outcome.next.injEq] at h
      exact .inr ⟨r, rfl, hd, h.symm⟩

theorem State.resume_idle {s : State} (h : s.phase = .idle) : s.resume = .next s := by simp [State.resume, h]

theorem State.resume_run {s : State} {r : Run} (h : s.phase = .run r)
    (hd : regionsMeet s.platform.devices r.plan.regions = false) : s.resume = .next (s.advance (s.due r)) := by
  simp [State.resume, h, hd]

/-- What every action keeps, `resume` keeps. -/
theorem State.resume_keeps {P : State → Prop} (step : ∀ s, P s → P s.engineStep) {s t : State} (h : P s)
    (hr : s.resume = .next t) : P t := by
  rcases State.resume_next hr with ⟨_, rfl⟩ | ⟨r, _, _, rfl⟩
  · exact h
  · exact State.advance_keeps step h _

theorem State.resume_same {s t : State} (h : s.resume = .next t) : s.sameButCommand t := by
  rcases State.resume_next h with ⟨_, rfl⟩ | ⟨r, _, _, rfl⟩
  · rfl
  · exact s.advance_same _

theorem State.convert_busy {s : State} (h : s.busy = true) (i : Instr) (p : Plan) : s.convert i p = s.setOvr.resume := by
  simp [State.convert, h]

theorem State.convert_error {s : State} (h : s.busy = false) (i : Instr) {p : Plan} {e : Ecode × Nat}
    (he : s.clearedForIssue.validate p = some e) :
    s.convert i p = .next (s.clearedForIssue.raiseError e.1 e.2) := by
  simp [State.convert, h, he]

theorem State.convert_ok {s : State} (h : s.busy = false) (i : Instr) {p : Plan}
    (he : s.clearedForIssue.validate p = none) : s.convert i p = (s.clearedForIssue.start i p).resume := by
  simp [State.convert, h, he]

/-- The cases of an issue. -/
theorem State.convert_next {s t : State} {i : Instr} {p : Plan} (h : s.convert i p = .next t) :
    (s.busy = true ∧ s.setOvr.resume = .next t) ∨
    (s.busy = false ∧ ∃ e, s.clearedForIssue.validate p = some e ∧ t = s.clearedForIssue.raiseError e.1 e.2) ∨
    (s.busy = false ∧ s.clearedForIssue.validate p = none ∧ (s.clearedForIssue.start i p).resume = .next t) := by
  cases hb : s.busy with
  | true => exact .inl ⟨rfl, by rw [← h, State.convert_busy hb]⟩
  | false =>
    cases hv : s.clearedForIssue.validate p with
    | some e =>
      rw [State.convert_error hb i hv] at h
      injection h with h
      exact .inr (.inl ⟨rfl, e, rfl, h.symm⟩)
    | none => exact .inr (.inr ⟨rfl, rfl, by rw [← h, State.convert_ok hb i hv]⟩)

/-! ### The engine does not see the schedule -/

/-- The same machine with other inputs, another schedule and another last answer. -/
def State.rescheduled (s : State) (is : List Input) (p : Progress) (x : Response) : State :=
  { s with inputs := is, progress := p, response := x }

theorem State.engineStep_rescheduled (s : State) (is : List Input) (p : Progress) (x : Response) :
    (s.rescheduled is p x).engineStep = s.engineStep.rescheduled is p x := by
  rcases s.engineStep_cases with ⟨hp, h⟩ | ⟨r, hp, ⟨hu, h⟩ | ⟨hu, ha, h⟩ | ⟨hu, ha, h⟩ | ⟨hu, ha, h⟩⟩ <;> rw [h]
  · simp [State.engineStep, State.rescheduled, hp]
  · simp only [State.engineStep, State.rescheduled, hp, hu, if_true]; rfl
  · have hu := Nat.not_le.2 hu
    simp only [State.engineStep, State.rescheduled, hp, hu, if_false, ha]
    unfold State.perform
    cases r.stage <;> try rfl
    cases r.plan.gray <;> rfl
  · have hu := Nat.not_le.2 hu
    simp only [State.engineStep, State.rescheduled, hp, hu, if_false, ha]; rfl
  · have hu := Nat.not_le.2 hu
    simp only [State.engineStep, State.rescheduled, hp, hu, if_false, ha]

theorem State.advance_rescheduled (s : State) (is : List Input) (p : Progress) (x : Response) (n : Nat) :
    (s.rescheduled is p x).advance n = (s.advance n).rescheduled is p x := by
  induction n generalizing s with
  | zero => rfl
  | succ n ih => rw [State.advance_succ, State.advance_succ, State.engineStep_rescheduled, ih]

theorem State.advance_add (s : State) (m n : Nat) : s.advance (m + n) = (s.advance m).advance n := by
  induction m generalizing s with
  | zero => rw [Nat.zero_add]; rfl
  | succ m ih => rw [Nat.succ_add, State.advance_succ, State.advance_succ, ih]

/-- An action of the engine ends the command, or leaves it with the plan it has latched (R33). -/
theorem State.engineStep_plan {s : State} {r r' : Run} (h : s.phase = .run r) (h' : s.engineStep.phase = .run r') :
    r'.plan = r.plan := by
  rcases s.engineStep_cases with ⟨hp, _⟩ | ⟨r₀, hp, hc⟩
  · rw [h] at hp; cases hp
  · rw [h] at hp; cases hp
    rcases hc with ⟨_, he⟩ | ⟨_, _, he⟩ | ⟨_, _, he⟩ | ⟨_, _, he⟩ <;> rw [he] at h'
    · cases h'
    · rcases s.perform_cases r with ⟨r₁, hq, hp, _⟩ | ⟨f, r₁, n, hq, _, hp, _⟩ <;> rw [hq] at h' <;> cases h' <;> exact hp
    · cases h'
    · rw [h] at h'; cases h'; rfl

theorem State.advance_plan {s : State} {r r' : Run} (h : s.phase = .run r) (n : Nat) (h' : (s.advance n).phase = .run r') :
    r'.plan = r.plan := by
  have := State.advance_keeps (P := fun t => ∀ q, t.phase = .run q → q.plan = r.plan)
    (fun t ht q hq => by
      cases hp : t.phase with
      | idle =>
        rcases t.engineStep_cases with ⟨_, he⟩ | ⟨_, hr, _⟩
        · rw [he, hp] at hq; cases hq
        · rw [hp] at hr; cases hr
      | run q₀ => rw [State.engineStep_plan hp hq, ht q₀ hp])
    (s := s) (fun q hq => by rw [h] at hq; cases hq; rfl) n
  exact this r' h'

/-- Where no running command of another instance meets these byte sets, R91 leaves all of them as they are. -/
theorem State.peersMarked_alone {s : State} {rs ws : List Region} (h : s.peersMeet rs ws = false) :
    s.peersMarked rs ws = s.peers := by
  unfold State.peersMeet at h
  unfold State.peersMarked
  rw [List.any_eq_false] at h
  conv => rhs; rw [← List.map_id s.peers]
  exact List.map_congr_left fun q hq => by simp [h q hq]

/-- A running command that keeps clear of devices goes on, and then no command runs or it still does so. -/
theorem State.resume_runs {s : State} {r : Run} (h : s.phase = .run r)
    (hd : regionsMeet s.platform.devices r.plan.regions = false) :
    s.resume = .next (s.advance (s.due r)) ∧
      ∀ r', (s.advance (s.due r)).phase = .run r' →
        regionsMeet (s.advance (s.due r)).platform.devices r'.plan.regions = false := by
  refine ⟨State.resume_run h hd, fun r' h' => ?_⟩
  have hs := s.advance_same (s.due r)
  unfold State.sameButCommand at hs
  rw [State.advance_plan h _ h', show (s.advance (s.due r)).platform = s.platform by rw [hs]]
  exact hd
/-- The same for a rescheduled state: the engine acts as it would in the state itself. -/
theorem State.resume_rescheduled {s : State} {r : Run} (h : s.phase = .run r)
    (hd : regionsMeet s.platform.devices r.plan.regions = false) (is : List Input) (p : Progress) (x : Response) :
    (s.rescheduled is p x).resume = .next ((s.advance ((s.rescheduled is p x).due r)).rescheduled is p x) := by
  rw [State.resume_run (s := s.rescheduled is p x) (r := r) h hd, State.advance_rescheduled]

end Sys2Proof.Machine
end

