-- ==== Sys2Proof/Laws/Float.lean ====
section
/-! SUPPORT. The fields of a binary32 as bit fields, and which operations can give a NaN. -/

namespace Sys2Proof.Machine

theorem fexp_eq (f : Word) : fexp f = (f.extractLsb' 23 8).toNat := by
  rw [BitVec.extractLsb'_toNat, Nat.shiftRight_eq_div_pow]
  rfl

theorem ffrac_eq (f : Word) : ffrac f = (f.extractLsb' 0 23).toNat := by
  rw [BitVec.extractLsb'_toNat]
  rfl

/-- A drawn NaN is a quiet NaN, whatever the draw (R23). -/
theorem quietNaN_isQuietNaN (d : Nat) : isQuietNaN (quietNaN d) = true := by
  have h1 : fexp (quietNaN d) = 255 := by
    rw [fexp_eq, show (quietNaN d).extractLsb' 23 8 = 255#8 from ?_]
    · rfl
    · apply BitVec.eq_of_getLsbD_eq
      intro i hi
      have : (0x7FC00000 : Word).getLsbD (23 + i) = true := by interval_cases i <;> decide
      have h' : (255#8).getLsbD i = true := by interval_cases i <;> decide
      simp only [quietNaN, BitVec.getLsbD_extractLsb', BitVec.getLsbD_or, this, h', hi, Bool.or_true, decide_true,
        Bool.true_and]
  have h2 : (quietNaN d).getLsbD 22 = true := by
    simp only [quietNaN, BitVec.getLsbD_or, show (0x7FC00000 : Word).getLsbD 22 = true by decide, Bool.or_true]
  have h3 : ffrac (quietNaN d) ≠ 0 := by
    intro h0
    have := congrArg (fun n => n.testBit 22) h0
    simp only [ffrac, Nat.testBit_mod_two_pow, Nat.zero_testBit] at this
    rw [← BitVec.getLsbD, h2] at this
    simp at this
  simp [isQuietNaN, isNaN, h1, h2, h3]

/-- A rounded magnitude is at most an infinity (R20). -/
theorem roundMag_le (n q : Nat) : roundMag n q ≤ 0x7F800000 := Nat.min_le_right _ _

theorem round32_toNat (neg : Bool) (n q : Nat) : (round32 neg n q).toNat % 2 ^ 31 = roundMag n q := by
  have := roundMag_le n q
  have h : (round32 neg n q).toNat = (BitVec.ofBool neg).toNat * 2 ^ 31 + (BitVec.ofNat 31 (roundMag n q)).toNat := by
    unfold round32
    rw [BitVec.toNat_append, Nat.shiftLeft_eq, Nat.mul_comm, ← Nat.two_pow_add_eq_or_of_lt (BitVec.isLt _)]
  rw [h, BitVec.toNat_ofNat]
  omega

/-- Rounding never gives a NaN (R20). -/
theorem round32_not_nan (neg : Bool) (n q : Nat) : isNaN (round32 neg n q) = false := by
  have h1 := round32_toNat neg n q
  have h2 := roundMag_le n q
  have e1 : fexp (round32 neg n q) = roundMag n q / 2 ^ 23 := by unfold fexp; omega
  have e2 : ffrac (round32 neg n q) = roundMag n q % 2 ^ 23 := by unfold ffrac; omega
  rw [isNaN, e1, e2, Bool.and_eq_false_iff]
  by_cases h : roundMag n q / 2 ^ 23 = 255
  · right
    simp
    omega
  · left
    simp
    omega

theorem roundInt_not_nan (x : Int) (q : Nat) (neg : Bool) : isNaN (roundInt x q neg) = false := by
  unfold roundInt
  split <;> exact round32_not_nan _ _ _

theorem infinity_not_nan (neg : Bool) : isNaN (infinity neg) = false := by cases neg <;> decide

end Sys2Proof.Machine
end

