-- ==== Sys2Proof/Laws/Port.lean ====
section
/-! SUPPORT. What a step can do, said once: the issue of a command, register-port accesses, and the inversion of a step. -/

namespace Sys2Proof.Machine

/-! ### Byte sets -/

theorem Region.meets_iff (g h : Region) : g.meets h = true ↔ ∃ a, g.holds a = true ∧ h.holds a = true := by
  simp only [Region.meets, Region.holds, Bool.and_eq_true, bne_iff_ne, ne_eq, decide_eq_true_eq]
  constructor
  · rintro ⟨⟨⟨hg, hh⟩, h1⟩, h2⟩
    exact ⟨max g.base h.base, ⟨by omega, by omega⟩, by omega, by omega⟩
  · rintro ⟨a, ⟨h1, h2⟩, h3, h4⟩
    omega

theorem regionsMeet_iff (gs hs : List Region) :
    regionsMeet gs hs = true ↔ ∃ a, regionsHold gs a = true ∧ regionsHold hs a = true := by
  simp only [regionsMeet, regionsHold, List.any_eq_true, Region.meets_iff]
  constructor
  · rintro ⟨g, hg, h, hh, a, h1, h2⟩
    exact ⟨a, ⟨g, hg, h1⟩, h, hh, h2⟩
  · rintro ⟨a, ⟨g, hg, h1⟩, h, hh, h2⟩
    exact ⟨g, hg, h, hh, a, h1, h2⟩

/-- The test of R91 is about bytes. -/
theorem setsMeet_iff (reads writes reads' writes' : List Region) :
    setsMeet reads writes reads' writes' = true ↔ ByteSetsMeet reads writes reads' writes' := by
  simp only [setsMeet, ByteSetsMeet, Bool.or_eq_true, regionsMeet_iff]
  constructor
  · rintro ((⟨a, h⟩ | ⟨a, h1, h2⟩) | ⟨a, h1, h2⟩)
    · exact ⟨a, .inl h⟩
    · exact ⟨a, .inr ⟨h1, .inl h2⟩⟩
    · exact ⟨a, .inr ⟨h1, .inr h2⟩⟩
  · rintro ⟨a, h | ⟨h1, h2 | h2⟩⟩
    · exact .inl (.inl ⟨a, h⟩)
    · exact .inl (.inr ⟨a, h1, h2⟩)
    · exact .inr ⟨a, h1, h2⟩

theorem ByteSetsMeet.symm {rs ws rs' ws' : List Region} (h : ByteSetsMeet rs ws rs' ws') : ByteSetsMeet rs' ws' rs ws := by
  rcases h with ⟨x, ⟨h1, h2⟩ | ⟨h1, h2 | h2⟩⟩
  · exact ⟨x, .inr ⟨h2, .inl h1⟩⟩
  · exact ⟨x, .inl ⟨h2, h1⟩⟩
  · exact ⟨x, .inr ⟨h2, .inr h1⟩⟩

/-! ### The issue of a command -/

theorem State.busy_eq_false {s : State} : s.busy = false ↔ s.phase = .idle := by
  cases h : s.phase <;> simp [State.busy, h]

theorem State.busy_eq_true {s : State} : s.busy = true ↔ ∃ r, s.phase = .run r := by
  cases h : s.phase <;> simp [State.busy, h]

/-- A conversion is `convert` with what it latches; only SLICE latches nothing. -/
theorem exec_convert {i : Instr} {s : State} {p : Plan} (h : planOf i s = some p) : exec i s = s.convert i p := by
  cases i <;> simp only [planOf, Option.some.injEq, reduceCtorEq] at h <;> rw [← h] <;> rfl

theorem planOf_none {i : Instr} {s : State} : planOf i s = none ↔ i = .slice := by cases i <;> simp [planOf]

/-- Every command is discarded while one runs (R40). -/
theorem exec_busy {s : State} (h : s.busy = true) (i : Instr) : exec i s = s.setOvr.resume := by
  cases hp : planOf i s with
  | some p => rw [exec_convert hp, State.convert_busy h]
  | none => rw [planOf_none.1 hp]; simp [exec, execSlice, h]

theorem State.commandWrite_busy {s : State} (h : s.busy = true) (w : Word) : s.commandWrite w = s.setOvr.resume := by
  unfold State.commandWrite
  cases decode w <;> simp [exec_busy, h, State.illegalCommand]

/-- The errors of the checks: which they can be. -/
theorem State.validate_error {s : State} {p : Plan} {e : Ecode × Nat} (h : s.validate p = some e) :
    e.1 ≠ .none ∧ e.1 ≠ .busError := by
  unfold State.validate at h
  split at h
  · cases h; exact ⟨by simp, by simp⟩
  · split at h
    · cases h; exact ⟨by simp, by simp⟩
    · split at h
      · cases h; exact ⟨by simp, by simp⟩
      · split at h <;> cases h; exact ⟨by simp, by simp⟩

theorem State.validateSlice_error {s : State} {e : Ecode × Nat} (h : s.validateSlice = some e) :
    e.1 ≠ .none ∧ e.1 ≠ .busError := by
  unfold State.validateSlice at h
  split at h
  · cases h; exact ⟨by simp, by simp⟩
  · split at h
    · cases h; exact ⟨by simp, by simp⟩
    · split at h <;> cases h; exact ⟨by simp, by simp⟩

/-- What a write to CMD can do when it answers a next state (R104, R225). -/
theorem State.commandWrite_next {s t : State} {w : Word} (h : s.commandWrite w = .next t) :
    (s.busy = true ∧ s.setOvr.resume = .next t) ∨
    (s.busy = false ∧ ∃ c a, c ≠ .none ∧ c ≠ .busError ∧ t = s.clearedForIssue.raiseError c a) ∨
    (s.busy = false ∧ s.clearedForIssue.validateSlice = none ∧ t = s.clearedForIssue.sliced) ∨
    (s.busy = false ∧ ∃ i p, planOf i s = some p ∧ s.clearedForIssue.validate p = none ∧
      (s.clearedForIssue.start i p).resume = .next t) := by
  cases hb : s.busy with
  | true => exact .inl ⟨rfl, by rw [← h, State.commandWrite_busy hb]⟩
  | false =>
    unfold State.commandWrite at h
    cases hd : decode w with
    | error e =>
      simp only [hd, State.illegalCommand, hb, Bool.false_eq_true, if_false, Host.Outcome.next.injEq] at h
      exact .inr (.inl ⟨rfl, _, _, by decide, by decide, h.symm⟩)
    | ok i =>
      simp only [hd] at h
      cases hp : planOf i s with
      | some p =>
        rw [exec_convert hp] at h
        rcases State.convert_next h with ⟨h', _⟩ | ⟨_, e, he, rfl⟩ | ⟨_, hv, hr⟩
        · rw [hb] at h'; cases h'
        · exact .inr (.inl ⟨rfl, e.1, e.2, (State.validate_error he).1, (State.validate_error he).2, rfl⟩)
        · exact .inr (.inr (.inr ⟨rfl, i, p, hp, hv, hr⟩))
      | none =>
        rw [planOf_none.1 hp] at h
        simp only [exec, execSlice, hb, Bool.false_eq_true, if_false] at h
        cases hv : s.clearedForIssue.validateSlice with
        | some e =>
          simp only [hv, Host.Outcome.next.injEq] at h
          exact .inr (.inl ⟨rfl, e.1, e.2, (State.validateSlice_error hv).1, (State.validateSlice_error hv).2, h.symm⟩)
        | none =>
          simp only [hv, Host.Outcome.next.injEq] at h
          exact .inr (.inr (.inl ⟨rfl, rfl, h.symm⟩))

/-! ### Register-port accesses -/

theorem Reg.ofOffset_offset (r : Reg) : Reg.ofOffset r.offset = some r := by
  rcases r with _ | _ | _ | _ | _ | _ | _ | _ | _ | _ | p | p | _ | _ | _ <;> (try cases p) <;> decide

theorem portLegal_offset (r : Reg) : portLegal r.offset 4 = true := by
  rcases r with _ | _ | _ | _ | _ | _ | _ | _ | _ | _ | p | p | _ | _ | _ <;> (try cases p) <;> decide

/-- The next input is taken; what it does is `handle`. -/
theorem step_input {s : State} {e : Event} {p : Progress} {is : List Input} (hr : s.rstN = true)
    (hi : s.inputs = ⟨e, p⟩ :: is) : step s = State.handle { s with inputs := is, progress := p } e := by
  simp only [step, State.machineStep, State.nextInput, hr, hi, if_true]

/-- A word write to a register: CMD issues, every other register is written, and the running command goes on. -/
theorem step_regWrite {s : State} {r : Reg} {v : Word} {p : Progress} {is : List Input} (hr : s.rstN = true)
    (hi : s.inputs = ⟨.regWrite r.offset 4 v, p⟩ :: is) :
    step s =
      if r = .cmd then State.commandWrite { s with inputs := is, progress := p, response := .ok } v
      else (State.writeReg { s with inputs := is, progress := p, response := .ok } r v).resume := by
  rw [step_input hr hi]
  simp only [State.handle, State.portWrite, portLegal_offset, State.writeOffset, Reg.ofOffset_offset, if_true]
  cases r <;> rfl

/-- A word read of a register. -/
theorem step_regRead {s : State} {r : Reg} {p : Progress} {is : List Input} (hr : s.rstN = true)
    (hi : s.inputs = ⟨.regRead r.offset 4, p⟩ :: is) :
    step s = State.resume { s with inputs := is, progress := p, response := .data (s.readReg r) } := by
  rw [step_input hr hi]
  simp only [State.handle, State.portRead, portLegal_offset, State.readOffset, Reg.ofOffset_offset, if_true]
  cases r <;> rfl

/-- A read of any size at any offset: it answers, and the running command goes on. -/
theorem step_anyRead {s : State} {o : BitVec 8} {k : Nat} {p : Progress} {is : List Input} (hr : s.rstN = true)
    (hi : s.inputs = ⟨.regRead o k, p⟩ :: is) :
    step s = (s.rescheduled is p (if portLegal o k then .data (s.readOffset o) else .error)).resume := by
  rw [step_input hr hi]
  cases h : portLegal o k <;> simp only [State.handle, State.portRead, h, if_true] <;> rfl

/-- One poll of a `wait`: it is over, or it stands behind its pause (R109). -/
theorem step_wait {s : State} {ps : List Pause} {p : Progress} {is : List Input} (hr : s.rstN = true)
    (hi : s.inputs = ⟨.wait ps, p⟩ :: is) :
    step s =
      if s.busy then (s.rescheduled (State.pollAgain { s with inputs := is } ps) p (.data s.statusWord)).resume
      else (s.rescheduled is p (.data s.statusWord)).resume := by
  rw [step_input hr hi]
  show State.poll { s with inputs := is, progress := p } ps = _
  have hb : State.busy { s with inputs := is, progress := p } = s.busy := rfl
  unfold State.poll
  rw [hb]
  cases s.busy <;> cases ps <;> rfl

/-- With no other input left, the next poll is the only one. -/
theorem State.pollAgain_last {s : State} (h : s.inputs = []) (ps : List Pause) :
    s.pollAgain ps = [match ps with | [] => ⟨.wait [], .toEnd⟩ | q :: qs => ⟨.wait qs, q.progress⟩] := by
  have alone : ∀ f w n, putBack f w n [] = [w] := fun f w n => by cases n <;> rfl
  cases ps <;> simp only [State.pollAgain, h, alone]

/-- A run of `core` takes its first step first. -/
theorem core_run_succ (k : Nat) {s t : State} (h : step s = .next t) :
    Host.Core.run core (k + 1) s = Host.Core.run core k t := by
  have h' : core.step s = .next t := h
  simp only [Host.Core.run, h']

/-! ### The inversion of a step -/

/-- Two states agree on everything but the outside: inputs, progress, response, the pin, the platform and the commands of
other instances. -/
def State.sameButOutside (s u : State) : Prop :=
  u = { s with
    inputs := u.inputs
    progress := u.progress
    response := u.response
    rstN := u.rstN
    platform := u.platform
    peers := u.peers }

/-- Other agents can touch the bytes, if what they do answers a next state. -/
theorem State.agentTouches_next {s t : State} {gs : List Region} {o : Host.Outcome State Fault Refusal}
    (h : s.agentTouches gs o = .next t) : (∀ g ∈ gs, g.base + g.size ≤ addrSpace s.params) ∧ o = .next t := by
  unfold State.agentTouches at h
  split at h
  · cases h
  · rename_i hb
    split at h
    · cases h
    · refine ⟨fun g hg => ?_, h⟩
      simp only [List.any_eq_true, decide_eq_true_eq, not_exists, not_and, Nat.not_lt] at hb
      exact hb g hg

/-- Bytes that exist and are no device's can be touched. -/
theorem State.agentTouches_ordinary {s : State} {gs : List Region} (o : Host.Outcome State Fault Refusal)
    (h : ∀ g ∈ gs, g.base + g.size ≤ addrSpace s.params) (hd : regionsMeet s.platform.devices gs = false) :
    s.agentTouches gs o = o := by
  unfold State.agentTouches
  rw [if_neg, hd]
  · rfl
  · simpa [List.any_eq_true] using h

/-- What a step can do when it answers a next state: from a state that differs from `s` on the outside only, the running
command goes on, a register is written, a command is issued, another agent reads in a race, another command makes this one
raced, another agent writes, another instance's command leaves any bytes, or the pin resets. -/
theorem step_next {s t : State} (h : step s = .next t) :
    ∃ u, s.sameButOutside u ∧
      (u.resume = .next t ∨
       (∃ r v, (u.writeReg r v).resume = .next t) ∨
       (∃ w, u.commandWrite w = .next t) ∨
       (∃ n, State.resume { u with byteDraws := u.byteDraws + n, phase := u.phase.markRaced } = .next t) ∨
       (∃ a bs, a + bs.length ≤ addrSpace s.params ∧
         State.resume
           { u with
             mem := u.mem.writeBytes a bs
             phase := if u.phase.writeRaces ⟨a, bs.length⟩ then u.phase.markRaced else u.phase } = .next t) ∨
       (∃ gs : List Region, (∀ g ∈ gs, g.base + g.size ≤ addrSpace s.params) ∧ (u.anyIn gs).resume = .next t) ∨
       t = u.resetNow) := by
  simp only [step, State.machineStep] at h
  cases hn : s.nextInput with
  | none => rw [hn] at h; refine ⟨_, ?_, .inl h⟩; rfl
  | some x =>
    obtain ⟨⟨e, p⟩, is⟩ := x
    rw [hn] at h
    cases e with
    | regRead o n =>
      simp only [State.handle, State.portRead] at h
      split at h <;> (refine ⟨_, ?_, .inl h⟩; rfl)
    | regWrite o n v =>
      simp only [State.handle, State.portWrite] at h
      split at h
      · unfold State.writeOffset at h
        split at h
        · exact ⟨{ s with inputs := is, progress := p, response := .ok }, rfl, .inr (.inr (.inl ⟨v, h⟩))⟩
        · exact ⟨{ s with inputs := is, progress := p, response := .ok }, rfl, .inr (.inl ⟨_, v, h⟩)⟩
        · refine ⟨_, ?_, .inl h⟩; rfl
      · refine ⟨_, ?_, .inl h⟩; rfl
    | wait ps =>
      simp only [State.handle, State.poll] at h
      split at h <;> (refine ⟨_, ?_, .inl h⟩; rfl)
    | memRead a n =>
      simp only [State.handle, State.agentRead] at h
      obtain ⟨-, h⟩ := State.agentTouches_next h
      split at h
      · exact ⟨{ s with
            inputs := is
            progress := p
            response := .bytes (anyBytes s.byteDraws n) }, rfl, .inr (.inr (.inr (.inl ⟨n, h⟩)))⟩
      · refine ⟨_, ?_, .inl h⟩; rfl
    | memWrite a bs =>
      simp only [State.handle, State.agentWrite] at h
      obtain ⟨hb, h⟩ := State.agentTouches_next h
      exact ⟨{ s with inputs := is, progress := p, response := .ok }, rfl,
        .inr (.inr (.inr (.inr (.inl ⟨a, bs, hb _ List.mem_cons_self, h⟩))))⟩
    | peerStart b rs ws =>
      simp only [State.handle, State.peerStart] at h
      obtain ⟨-, h⟩ := State.agentTouches_next h
      split at h
      · refine ⟨_, ?_, .inl h⟩; rfl
      · split at h
        · exact ⟨{ s with
              inputs := is
              progress := p
              peers := ⟨b, rs, ws, s.phase.meets rs ws || s.peersMeet rs ws⟩ :: s.peersMarked rs ws }, rfl,
            .inr (.inr (.inr (.inl ⟨0, h⟩)))⟩
        · refine ⟨_, ?_, .inl h⟩; rfl
    | peerEnd b =>
      simp only [State.handle, State.peerEnd] at h
      split at h
      · refine ⟨_, ?_, .inl h⟩; rfl
      · split at h
        · obtain ⟨hb, h⟩ := State.agentTouches_next h
          exact ⟨{ s with
              inputs := is
              progress := p
              peers := s.peers.filter (fun q => q.block != b) }, rfl, .inr (.inr (.inr (.inr (.inr (.inl ⟨_, hb, h⟩)))))⟩
        · refine ⟨_, ?_, .inl h⟩; rfl
    | resetPin level =>
      cases level with
      | true => refine ⟨_, ?_, .inl h⟩; rfl
      | false =>
        simp only [State.handle, Host.Outcome.next.injEq] at h
        exact ⟨{ s with inputs := is, progress := p }, rfl, .inr (.inr (.inr (.inr (.inr (.inr h.symm)))))⟩
    | platform q => refine ⟨_, ?_, .inl h⟩; rfl

end Sys2Proof.Machine
end

