-- ==== Sys2Proof/Laws/Operands.lean ====
section
/-! SUPPORT. What the operands of a command depend on, what a plan's ranges and requests are, and what passed checks mean. -/

namespace Sys2Proof.Machine

/-! ### The operands depend on the descriptor registers only -/

/-- Two states agree on the parameters and on the descriptor registers that a conversion reads. -/
structure State.sameDescriptors (s t : State) : Prop where
  params : t.params = s.params
  precision : t.precision = s.precision
  viewCount : t.viewCount = s.viewCount
  viewLen : t.viewLen = s.viewLen
  bases : t.bases = s.bases
  rgbLen : t.rgbLen = s.rgbLen

theorem State.sameButCommand_descriptors {s t : State} (h : s.sameButCommand t) : s.sameDescriptors t := by
  unfold State.sameButCommand at h
  rw [h]
  exact ⟨rfl, rfl, rfl, rfl, rfl, rfl⟩

theorem State.sameButOutside_descriptors {s t : State} (h : s.sameButOutside t) : s.sameDescriptors t := by
  unfold State.sameButOutside at h
  rw [h]
  exact ⟨rfl, rfl, rfl, rfl, rfl, rfl⟩

theorem planOf_congr {s t : State} (h : s.sameDescriptors t) (i : Instr) : planOf i t = planOf i s := by
  obtain ⟨h1, h2, h3, h4, h5, h6⟩ := h
  cases s
  cases t
  simp only at h1 h2 h3 h4 h5 h6
  subst h1 h2 h3 h4 h5 h6
  cases i <;> rfl

theorem State.usedBases_congr {s t : State} (h : s.sameDescriptors t) : t.usedBases = s.usedBases := by
  obtain ⟨h1, h2, h3, h4, h5, h6⟩ := h
  cases s
  cases t
  simp only at h1 h2 h3 h4 h5 h6
  subst h1 h2 h3 h4 h5 h6
  rfl

theorem State.validate_congr {s t : State} (h : s.sameDescriptors t) (p : Plan) : t.validate p = s.validate p := by
  have hu := State.usedBases_congr h
  have hm : t.firstMisaligned = s.firstMisaligned := by unfold State.firstMisaligned; rw [hu]
  have ho : t.firstOutOfRange p = s.firstOutOfRange p := by unfold State.firstOutOfRange; rw [hu, h.params]
  have hb : t.badView = s.badView := by unfold State.badView State.count State.len; rw [h.viewCount, h.viewLen]
  have hc : t.count = s.count := by unfold State.count; rw [h.viewCount]
  have hl : t.len = s.len := by unfold State.len; rw [h.viewLen]
  unfold State.validate
  rw [hm, ho, hb, hc, hl, h.rgbLen]

/-! ### Units -/

theorem Plan.unitStart_succ_le (p : Plan) {u : Nat} (hu : u < p.units) :
    p.unitStart u + p.unitLanes u ≤ p.samples := by
  unfold Plan.unitStart Plan.unitLanes Plan.samples
  unfold Plan.units at hu
  by_cases h : u < p.chunks
  · simp only [h, if_true]
    have := Nat.mul_le_mul_left p.lanes (Nat.succ_le_of_lt h)
    rw [Nat.mul_succ] at this
    have e := Nat.mul_comm p.lanes p.chunks
    omega
  · simp only [h, if_false]
    omega

theorem Plan.unitStart_succ (p : Plan) (u : Nat) :
    p.unitStart (u + 1) = p.unitStart u + p.unitLanes u := by
  unfold Plan.unitStart Plan.unitLanes
  by_cases h : u + 1 < p.chunks
  · simp only [h, if_true, show u < p.chunks by omega]
    rw [Nat.mul_succ]
  · by_cases h' : u < p.chunks
    · have e : p.chunks = u + 1 := by omega
      rw [if_neg h, if_pos h', if_pos h', e, Nat.sub_self, Nat.mul_comm, Nat.mul_succ]
      rfl
    · simp only [h, h', if_false]
      omega

@[simp] theorem Plan.unitStart_zero (p : Plan) : p.unitStart 0 = 0 := by
  unfold Plan.unitStart
  split
  · simp
  · rename_i h
    have : p.chunks = 0 := by omega
    simp [this]

theorem Plan.unitStart_units (p : Plan) : p.unitStart p.units = p.samples := by
  unfold Plan.unitStart Plan.units Plan.samples
  split
  · omega
  · omega

/-- Every sample belongs to one unit. -/
theorem Plan.unit_of_sample (p : Plan) {j : Nat} (hj : j < p.samples) :
    ∃ u l, u < p.units ∧ l < p.unitLanes u ∧ j = p.unitStart u + l ∧ (u < p.chunks ↔ j < p.chunks * p.lanes) := by
  unfold Plan.samples at hj
  by_cases h : j < p.chunks * p.lanes
  · have hl : 0 < p.lanes := by
      rcases Nat.eq_zero_or_pos p.lanes with e | e
      · simp [e] at h
      · exact e
    have hu : j / p.lanes < p.chunks := by rw [Nat.div_lt_iff_lt_mul hl]; exact h
    refine ⟨j / p.lanes, j % p.lanes, by unfold Plan.units; omega, ?_, ?_, by simp [hu, h]⟩
    · simp [Plan.unitLanes, hu, Nat.mod_lt _ hl]
    · simp [Plan.unitStart, hu, Nat.div_add_mod]
  · refine ⟨p.chunks + (j - p.chunks * p.lanes), 0, by unfold Plan.units; omega, ?_, ?_, by simp [h]⟩
    · simp [Plan.unitLanes]
    · simp [Plan.unitStart]; omega

/-- A stage that a plan issues requests for is one of its stages. -/
theorem Plan.mem_stages {p : Plan} {st : Stage} : st ∈ p.stages ↔ (p.gray = true → st ≠ .writeCb ∧ st ≠ .writeCr) := by
  cases st <;> cases hg : p.gray <;> simp [Plan.stages, hg]

/-- A write request lies in the plan's output ranges. -/
theorem Plan.request_in_writes {p : Plan} {u : Nat} {st : Stage} (hu : u < p.units) (hs : st ∈ p.stages)
    (hk : st.kind = .write) {a : Nat} (h : p.stageBase st + 4 * p.unitStart u ≤ a)
    (h' : a < p.stageBase st + 4 * p.unitStart u + 4 * p.unitLanes u) : regionsHold p.writeRegions a = true := by
  have hl := p.unitStart_succ_le hu
  have hold : ∀ g ∈ p.writeRegions, g.base = p.stageBase st → g.size = 4 * p.samples → regionsHold p.writeRegions a = true := by
    intro g hg hb hz
    rw [regionsHold, List.any_eq_true]
    exact ⟨g, hg, by rw [Region.holds_iff, hb, hz]; omega⟩
  have hm := Plan.mem_stages.1 hs
  cases st with
  | readR => cases hk
  | readG => cases hk
  | readB => cases hk
  | writeY => exact hold ⟨p.a0, 4 * p.samples⟩ (by simp [Plan.writeRegions]) rfl rfl
  | writeCb =>
    have hg : p.gray = false := by cases hg : p.gray with
      | false => rfl
      | true => exact absurd rfl (hm hg).1
    exact hold ⟨p.a1, 4 * p.samples⟩ (by simp [Plan.writeRegions, hg]) rfl rfl
  | writeCr =>
    have hg : p.gray = false := by cases hg : p.gray with
      | false => rfl
      | true => exact absurd rfl (hm hg).2
    exact hold ⟨p.a2, 4 * p.samples⟩ (by simp [Plan.writeRegions, hg]) rfl rfl

/-! ### Passed checks -/

/-- What it means that the checks of a conversion pass (R222 to R224). -/
theorem State.validate_none_iff (s : State) (p : Plan) :
    s.validate p = none ↔
      (s.count = 1 ∨ s.count = 3 ∨ s.count = 4) ∧ s.len ≠ 0 ∧ s.len ≤ s.rgbLen.toNat ∧ (∀ b ∈ s.usedBases, b % 4 = 0) ∧
        ∀ x ∈ s.usedBases.zip p.accessBases, p.samples = 0 ∨ x.2 + 4 * p.samples ≤ addrSpace s.params := by
  unfold State.validate
  by_cases h1 : (s.badView || s.count == 2) = true
  · simp only [h1, if_true, reduceCtorEq, false_iff]
    rintro ⟨hc, hl, -⟩
    simp only [State.badView, Bool.or_eq_true, decide_eq_true_eq, beq_iff_eq] at h1
    omega
  · have hv : (s.count = 1 ∨ s.count = 3 ∨ s.count = 4) ∧ s.len ≠ 0 := by
      simp only [State.badView, Bool.or_eq_true, decide_eq_true_eq, beq_iff_eq] at h1
      omega
    simp only [h1]
    by_cases h2 : s.rgbLen.toNat < s.len
    · simp only [Bool.false_eq_true, if_false, h2, if_true, reduceCtorEq, false_iff]
      rintro ⟨-, -, h, -⟩
      omega
    · simp only [Bool.false_eq_true, if_false, h2]
      cases hm : s.firstMisaligned with
      | some b =>
        simp only [reduceCtorEq, false_iff]
        rintro ⟨-, -, -, h, -⟩
        have h3 := List.find?_some hm
        have := h b (List.mem_of_find?_eq_some hm)
        simp [this] at h3
      | none =>
        have hal : ∀ b ∈ s.usedBases, b % 4 = 0 := by
          intro b hb
          have := List.find?_eq_none.1 hm b hb
          simpa using this
        cases ho : s.firstOutOfRange p with
        | some b =>
          simp only [reduceCtorEq, false_iff]
          rintro ⟨-, -, -, -, h⟩
          unfold State.firstOutOfRange at ho
          cases hf : (s.usedBases.zip p.accessBases).find?
            (fun ba => p.samples != 0 && addrSpace s.params < ba.2 + 4 * p.samples) with
          | none => rw [hf] at ho; cases ho
          | some x =>
            have h3 := List.find?_some hf
            have := h x (List.mem_of_find?_eq_some hf)
            simp only [Bool.and_eq_true, bne_iff_ne, ne_eq, decide_eq_true_eq] at h3
            omega
        | none =>
          simp only [true_iff]
          refine ⟨hv.1, hv.2, by omega, hal, ?_⟩
          intro x hx
          unfold State.firstOutOfRange at ho
          rw [Option.map_eq_none_iff] at ho
          have := List.find?_eq_none.1 ho x hx
          simp only [Bool.and_eq_true, bne_iff_ne, ne_eq, decide_eq_true_eq, not_and, not_lt] at this
          by_cases h0 : p.samples = 0
          · exact .inl h0
          · exact .inr (this h0)

theorem planOf_gray {i : Instr} {s : State} {p : Plan} (h : planOf i s = some p) : p.gray = s.gray := by
  cases i <;> simp only [planOf, Option.some.injEq, reduceCtorEq] at h <;> rw [← h] <;> rfl

/-- The spans of a view that is not grayscale (R131, R138). -/
theorem planOf_viewSpans {i : Instr} {s : State} {p : Plan} (h : planOf i s = some p) (hc : s.count ≠ 1) :
    p.viewSpans = [⟨s.eff0, 4 * s.len⟩, ⟨s.eff1, 4 * s.len⟩, ⟨s.eff2, 4 * s.len⟩] := by
  have hg : s.gray = false := by unfold State.gray; simpa using hc
  cases i <;> simp only [planOf, Option.some.injEq, reduceCtorEq] at h <;> subst h <;>
    simp only [Plan.viewSpans, scalarPlan, naturalPlan, alignedPlan, hg] <;> simp

theorem planOf_half {i : Instr} {s : State} {p : Plan} (h : planOf i s = some p) : p.half = s.readReg .half := by
  cases i <;> simp only [planOf, Option.some.injEq, reduceCtorEq] at h <;> rw [← h] <;> rfl

/-- The unrounded and the access bases go together, plane by plane. -/
theorem planOf_zip {i : Instr} {s : State} {p : Plan} (h : planOf i s = some p) :
    s.usedBases.zip p.accessBases =
      [(s.base .r, p.aR), (s.base .g, p.aG), (s.base .b, p.aB), (s.eff0, p.a0)] ++
        (if s.gray then [] else [(s.eff1, p.a1), (s.eff2, p.a2)]) := by
  have hg := planOf_gray h
  cases hs : s.gray <;> simp [State.usedBases, Plan.accessBases, hg, hs]

end Sys2Proof.Machine
end

