-- ==== Sys2Proof/Laws/PerInstr.lean ====
section
/-! SUPPORT. What holds of every command as syntax, one lemma per constructor (spec/30_encoding.md R100, R102, R103). -/

namespace Sys2Proof.Laws.Encoded

open Sys2Proof

/-- The fields of a command pass each check of WellFormed, the word carries exactly those fields, and it is one of the
words of R102. -/
def Statement (i : Instr) : Prop :=
  i.fields.reservedClear = true ∧ i.fields.opDefined = true ∧ i.fields.tailAllowed = true ∧
    CmdFields.ofWord (encode i) = i.fields ∧ (encode i).toNat < 2 ^ 5

theorem cvtS : Statement .cvtS := by unfold Statement; decide
theorem cvtNn : Statement .cvtNn := by unfold Statement; decide
theorem cvtNnT : Statement .cvtNnT := by unfold Statement; decide
theorem cvtNa : Statement .cvtNa := by unfold Statement; decide
theorem cvtWn : Statement .cvtWn := by unfold Statement; decide
theorem cvtWnT : Statement .cvtWnT := by unfold Statement; decide
theorem cvtWa : Statement .cvtWa := by unfold Statement; decide
theorem slice : Statement .slice := by unfold Statement; decide

end Sys2Proof.Laws.Encoded
end

