-- ==== Sys2Proof/Laws/Units.lean ====
section
/-! SUPPORT. What one unit of a conversion does to memory when its requests are answered OK, what the first units of a
command have left, and where the engine stands after them. -/

namespace Sys2Proof.Machine

/-! ### Lanes -/

theorem mapLanes_length (lane : Nat → Word → Word → Word → Ycc) (d : Nat) (rs gs bs : List Word) (n : Nat)
    (hr : rs.length = n) (hg : gs.length = n) (hb : bs.length = n) : (mapLanes lane d rs gs bs).length = n := by
  induction n generalizing d rs gs bs with
  | zero =>
    rw [List.length_eq_zero_iff.1 hr]
    rfl
  | succ n ih =>
    match rs, gs, bs, hr, hg, hb with
    | r :: rs, g :: gs, b :: bs, hr, hg, hb =>
      simp only [mapLanes, List.length_cons, Nat.add_right_cancel_iff] at hr hg hb ⊢
      exact ih _ _ _ _ hr hg hb

/-- Lane `l` is the lane function of the three samples of lane `l` (R175, R186). -/
theorem mapLanes_getElem (lane : Nat → Word → Word → Word → Ycc) (d : Nat) (rs gs bs : List Word) (l : Nat)
    (hr : l < rs.length) (hg : l < gs.length) (hb : l < bs.length) :
    (mapLanes lane d rs gs bs)[l]? = some (lane (d + drawsPerLane * l) rs[l] gs[l] bs[l]) := by
  induction l generalizing d rs gs bs with
  | zero =>
    match rs, gs, bs, hr, hg, hb with
    | r :: rs, g :: gs, b :: bs, _, _, _ => simp [mapLanes]
  | succ l ih =>
    match rs, gs, bs, hr, hg, hb with
    | r :: rs, g :: gs, b :: bs, hr, hg, hb =>
      simp only [List.length_cons, Nat.add_lt_add_iff_right] at hr hg hb
      simp only [mapLanes, List.getElem?_cons_succ, List.getElem_cons_succ]
      rw [ih (d + drawsPerLane) rs gs bs hr hg hb, Nat.mul_succ]
      congr 2
      omega

/-- The results of unit `u` on memory `m` with draws from `d` up. -/
def unitResults (p : Plan) (m : Memory) (u d : Nat) : List Ycc :=
  mapLanes (p.lane u) d (m.readLanes (p.aR + 4 * p.unitStart u) (p.unitLanes u))
    (m.readLanes (p.aG + 4 * p.unitStart u) (p.unitLanes u)) (m.readLanes (p.aB + 4 * p.unitStart u) (p.unitLanes u))

theorem unitResults_length (p : Plan) (m : Memory) (u d : Nat) : (unitResults p m u d).length = p.unitLanes u :=
  mapLanes_length _ _ _ _ _ _ (by simp) (by simp) (by simp)

theorem unitResults_getElem (p : Plan) (m : Memory) (u d l : Nat) (hl : l < p.unitLanes u) :
    (unitResults p m u d)[l]? =
      some (p.lane u (d + drawsPerLane * l) (m.readWord (p.aR + 4 * (p.unitStart u + l)))
        (m.readWord (p.aG + 4 * (p.unitStart u + l))) (m.readWord (p.aB + 4 * (p.unitStart u + l)))) := by
  unfold unitResults
  rw [mapLanes_getElem _ _ _ _ _ l (by simpa) (by simpa) (by simpa), Memory.readLanes_getElem, Memory.readLanes_getElem,
    Memory.readLanes_getElem, Nat.mul_add, ← Nat.add_assoc, ← Nat.add_assoc, ← Nat.add_assoc]

/-- Memory after unit `u` (R157, R188, R133). -/
def unitMem (p : Plan) (m : Memory) (u d : Nat) : Memory :=
  let v := unitResults p m u d
  let m1 := m.writeLanes (p.a0 + 4 * p.unitStart u) (v.map Ycc.y)
  if p.gray then m1
  else (m1.writeLanes (p.a1 + 4 * p.unitStart u) (v.map Ycc.cb)).writeLanes (p.a2 + 4 * p.unitStart u) (v.map Ycc.cr)

/-- Requests in a unit. -/
def Plan.unitActions (p : Plan) : Nat := if p.gray then 4 else 6

/-! ### The engine runs units -/

/-- `s` with this command running, this memory and these draws. -/
def State.running (s : State) (r : Run) (m : Memory) (d : Nat) : State :=
  { s with phase := .run r, mem := m, nanDraws := d }

/-- The command at the start of unit `u`. -/
def freshRun (i : Instr) (p : Plan) (u : Nat) (raced : Bool) : Run := ⟨i, p, u, .readR, [], [], [], raced⟩

theorem State.engineStep_ok {s : State} {r : Run} (hp : s.phase = .run r) (hu : r.unit < r.plan.units)
    (ha : answer s.params s.platform r.request = .ok) : s.engineStep = s.perform r := by
  simp [State.engineStep, hp, ha]; omega

theorem State.running_step (s : State) (r : Run) (m : Memory) (d n : Nat) (hu : r.unit < r.plan.units)
    (ha : answer s.params s.platform r.request = .ok) :
    (s.running r m d).advance (n + 1) = ((s.running r m d).perform r).advance n := by
  rw [State.advance_succ, State.engineStep_ok (s := s.running r m d) (r := r) rfl hu ha]

/-- A unit whose requests are all answered OK runs through. -/
theorem State.unit_runs (s : State) (i : Instr) (p : Plan) (u : Nat) (m : Memory) (d : Nat) (rc : Bool) (hu : u < p.units)
    (ha : ∀ st ∈ p.stages, answer s.params s.platform (p.request u st) = .ok) (n : Nat) :
    (s.running (freshRun i p u rc) m d).advance (p.unitActions + n) =
      (s.running (freshRun i p (u + 1) rc) (unitMem p m u d) (d + drawsPerLane * p.unitLanes u)).advance n := by
  have hR := ha .readR (by simp [Plan.stages])
  have hG := ha .readG (by simp [Plan.stages])
  have hB := ha .readB (by simp [Plan.stages])
  have hY := ha .writeY (by simp [Plan.stages])
  let rv := m.readLanes (p.aR + 4 * p.unitStart u) (p.unitLanes u)
  let gv := m.readLanes (p.aG + 4 * p.unitStart u) (p.unitLanes u)
  let bv := m.readLanes (p.aB + 4 * p.unitStart u) (p.unitLanes u)
  let v := unitResults p m u d
  have e1 : ∀ k, (s.running (freshRun i p u rc) m d).advance (k + 1) =
      (s.running ⟨i, p, u, .readG, rv, [], [], rc⟩ m d).advance k := fun k => State.running_step s (freshRun i p u rc) m d k hu hR
  have e2 : ∀ k, (s.running ⟨i, p, u, .readG, rv, [], [], rc⟩ m d).advance (k + 1) =
      (s.running ⟨i, p, u, .readB, rv, gv, [], rc⟩ m d).advance k := fun k => State.running_step s _ m d k hu hG
  have e3 : ∀ k, (s.running ⟨i, p, u, .readB, rv, gv, [], rc⟩ m d).advance (k + 1) =
      (s.running ⟨i, p, u, .writeY, rv, gv, bv, rc⟩ m d).advance k := fun k => State.running_step s _ m d k hu hB
  have e4 : ∀ k, (s.running ⟨i, p, u, .writeY, rv, gv, bv, rc⟩ m d).advance (k + 1) =
      ((s.running ⟨i, p, u, .writeY, rv, gv, bv, rc⟩ m d).perform ⟨i, p, u, .writeY, rv, gv, bv, rc⟩).advance k :=
    fun k => State.running_step s _ m d k hu hY
  cases hg : p.gray with
  | true =>
    rw [show p.unitActions + n = n + 1 + 1 + 1 + 1 by simp [Plan.unitActions, hg]; omega, e1, e2, e3, e4]
    congr 1
    simp [State.perform, hg, unitMem, State.endUnit, State.storeResults, Run.nextUnit, Run.results, Run.request, Plan.request,
      unitResults, Plan.stageBase, State.running, freshRun, rv, gv, bv]
  | false =>
    have hCb := ha .writeCb (by simp [Plan.stages, hg])
    have hCr := ha .writeCr (by simp [Plan.stages, hg])
    let m1 := m.writeLanes (p.a0 + 4 * p.unitStart u) (v.map Ycc.y)
    let m2 := m1.writeLanes (p.a1 + 4 * p.unitStart u) (v.map Ycc.cb)
    have e5 : (s.running ⟨i, p, u, .writeY, rv, gv, bv, rc⟩ m d).perform ⟨i, p, u, .writeY, rv, gv, bv, rc⟩ =
        s.running ⟨i, p, u, .writeCb, rv, gv, bv, rc⟩ m1 d := by
      simp [State.perform, hg, State.storeResults, State.running, Run.results, Run.request, Plan.request, Plan.stageBase, m1,
        v, unitResults, rv, gv, bv]
    have e6 : ∀ k, (s.running ⟨i, p, u, .writeCb, rv, gv, bv, rc⟩ m1 d).advance (k + 1) =
        (s.running ⟨i, p, u, .writeCr, rv, gv, bv, rc⟩ m2 d).advance k := fun k => State.running_step s _ m1 d k hu hCb
    have e7 : ∀ k, (s.running ⟨i, p, u, .writeCr, rv, gv, bv, rc⟩ m2 d).advance (k + 1) =
        ((s.running ⟨i, p, u, .writeCr, rv, gv, bv, rc⟩ m2 d).perform ⟨i, p, u, .writeCr, rv, gv, bv, rc⟩).advance k :=
      fun k => State.running_step s _ m2 d k hu hCr
    rw [show p.unitActions + n = n + 1 + 1 + 1 + 1 + 1 + 1 by simp [Plan.unitActions, hg]; omega, e1, e2, e3, e4, e5, e6, e7]
    congr 1
    simp [State.perform, hg, unitMem, State.endUnit, State.storeResults, Run.nextUnit, Run.results, Run.request, Plan.request,
      unitResults, Plan.stageBase, State.running, freshRun, rv, gv, bv, m2, m1, v]

/-! ### Planes that do not alias -/

/-- What it means that a command's planes do not alias (R88): its output ranges are apart from its input ranges and from one
another, unless they are empty. -/
theorem Plan.apart_of {p : Plan} (h : p.aliased = false) :
    (∀ b ∈ [p.aR, p.aG, p.aB], ∀ g ∈ p.writeRegions,
      p.samples = 0 ∨ b + 4 * p.samples ≤ g.base ∨ g.base + 4 * p.samples ≤ b) ∧
    (p.gray = false →
      (p.samples = 0 ∨ p.a0 + 4 * p.samples ≤ p.a1 ∨ p.a1 + 4 * p.samples ≤ p.a0) ∧
      (p.samples = 0 ∨ p.a0 + 4 * p.samples ≤ p.a2 ∨ p.a2 + 4 * p.samples ≤ p.a0) ∧
      (p.samples = 0 ∨ p.a1 + 4 * p.samples ≤ p.a2 ∨ p.a2 + 4 * p.samples ≤ p.a1)) := by
  unfold Plan.aliased at h
  rw [Bool.or_eq_false_iff, Bool.or_eq_false_iff] at h
  obtain ⟨h, -⟩ := h
  have size : ∀ g ∈ p.writeRegions, g.size = 4 * p.samples := by
    intro g hg
    cases hp : p.gray <;> simp only [Plan.writeRegions, hp] at hg <;> simp at hg
    · rcases hg with rfl | rfl | rfl <;> rfl
    · rw [hg]
  constructor
  · intro b hb g hg
    have hr : (⟨b, 4 * p.samples⟩ : Region) ∈ p.readRegions := by
      simp only [List.mem_cons, List.not_mem_nil, or_false] at hb
      rcases hb with rfl | rfl | rfl <;> simp [Plan.readRegions]
    have := (Region.meets_false_iff _ _).1 (regionsMeet_false h.1 hr hg)
    rw [size g hg] at this
    simp only at this
    omega
  · intro hg
    have h2 := h.2
    simp only [Plan.writeRegions, hg, Bool.false_eq_true, if_false, regionsOverlap, List.any_cons, List.any_nil,
      Bool.or_false, Bool.or_eq_false_iff, Region.meets_false_iff] at h2
    omega

/-! ### What the first units leave -/

/-- The lane function of sample `j`: vector below `C·W`, scalar from there on (R157, R189 to R192). -/
def Plan.laneAt (p : Plan) (j k : Nat) (r g b : Word) : Ycc :=
  if j < p.chunks * p.lanes then vecLane k r g b p.half p.fused else scalarLane k r g b p.half

/-- In `m`, sample `j` of the outputs is the lane function of sample `j` of the inputs in `m0`, for some draws. -/
def Plan.sampleDone (p : Plan) (m0 m : Memory) (j : Nat) : Prop :=
  ∃ k,
    let v := p.laneAt j k (m0.readWord (p.aR + 4 * j)) (m0.readWord (p.aG + 4 * j)) (m0.readWord (p.aB + 4 * j))
    m.readWord (p.a0 + 4 * j) = v.y ∧
      (p.gray = false → m.readWord (p.a1 + 4 * j) = v.cb ∧ m.readWord (p.a2 + 4 * j) = v.cr)

/-- The first `n` samples of the outputs hold their results, and every byte outside them is as in `m0`. -/
structure Plan.doneTo (p : Plan) (m0 m : Memory) (n : Nat) : Prop where
  wf : m.wf = true
  results : ∀ j < n, p.sampleDone m0 m j
  outside : ∀ a, ¬ (p.a0 ≤ a ∧ a < p.a0 + 4 * n) →
    (p.gray = false → ¬ (p.a1 ≤ a ∧ a < p.a1 + 4 * n) ∧ ¬ (p.a2 ≤ a ∧ a < p.a2 + 4 * n)) → m.read a = m0.read a

/-- A unit's memory is canonical. -/
theorem unitMem_wf (p : Plan) {m : Memory} (h : m.wf = true) (u d : Nat) : (unitMem p m u d).wf = true := by
  unfold unitMem
  simp only
  split
  · exact Memory.writeLanes_wf h _ _
  · exact Memory.writeLanes_wf (Memory.writeLanes_wf (Memory.writeLanes_wf h _ _) _ _) _ _

/-- A unit writes its own samples of the output planes only. -/
theorem unitMem_outside (p : Plan) (m : Memory) (u d a : Nat)
    (h0 : ¬ (p.a0 + 4 * p.unitStart u ≤ a ∧ a < p.a0 + 4 * (p.unitStart u + p.unitLanes u)))
    (h1 : p.gray = false → ¬ (p.a1 + 4 * p.unitStart u ≤ a ∧ a < p.a1 + 4 * (p.unitStart u + p.unitLanes u)) ∧
      ¬ (p.a2 + 4 * p.unitStart u ≤ a ∧ a < p.a2 + 4 * (p.unitStart u + p.unitLanes u))) :
    (unitMem p m u d).read a = m.read a := by
  unfold unitMem
  simp only
  split
  · rw [Memory.read_writeLanes_outside]
    simp only [List.length_map, unitResults_length]
    omega
  · rename_i hg
    have h1 := h1 (by simpa using hg)
    rw [Memory.read_writeLanes_outside, Memory.read_writeLanes_outside, Memory.read_writeLanes_outside] <;>
      · simp only [List.length_map, unitResults_length]
        omega

/-- What a vector write leaves in lane `l`. -/
theorem Memory.readWord_writeLanes_map {m : Memory} (h : m.wf = true) (a l : Nat) (vs : List Ycc) (f : Ycc → Word) (v : Ycc)
    (hl : vs[l]? = some v) : (m.writeLanes a (vs.map f)).readWord (a + 4 * l) = f v := by
  have hl' : l < (vs.map f).length := by
    rw [List.length_map]
    exact (List.getElem?_eq_some_iff.1 hl).1
  rw [Memory.readWord_writeLanes h a _ l hl', List.getElem_map]
  obtain ⟨_, e⟩ := List.getElem?_eq_some_iff.1 hl
  rw [e]

theorem Memory.readWord_writeLanes_apart (m : Memory) {a b : Nat} {vs : List Word}
    (hb : b + 4 ≤ a ∨ a + 4 * vs.length ≤ b) : (m.writeLanes a vs).readWord b = m.readWord b :=
  Memory.readWord_congr fun c h1 h2 => Memory.read_writeLanes_outside m (by omega)

/-- Where the planes do not alias, one unit more is done. -/
theorem Plan.doneTo_unit {p : Plan} (ha : p.aliased = false) {m0 m : Memory} {u : Nat} (hu : u < p.units)
    (h : p.doneTo m0 m (p.unitStart u)) (d : Nat) : p.doneTo m0 (unitMem p m u d) (p.unitStart (u + 1)) := by
  obtain ⟨hin, hout⟩ := Plan.apart_of ha
  have hle := p.unitStart_succ_le hu
  rw [p.unitStart_succ]
  have hw0 : (⟨p.a0, 4 * p.samples⟩ : Region) ∈ p.writeRegions := by simp [Plan.writeRegions]
  have hw1 : p.gray = false → (⟨p.a1, 4 * p.samples⟩ : Region) ∈ p.writeRegions := by
    intro hg; simp [Plan.writeRegions, hg]
  have hw2 : p.gray = false → (⟨p.a2, 4 * p.samples⟩ : Region) ∈ p.writeRegions := by
    intro hg; simp [Plan.writeRegions, hg]
  -- the inputs of this unit's samples are still as in `m0`
  have hread : ∀ b ∈ [p.aR, p.aG, p.aB], ∀ j < p.samples, m.readWord (b + 4 * j) = m0.readWord (b + 4 * j) := by
    intro b hb j hj
    refine Memory.readWord_congr fun c h1 h2 => h.outside c ?_ ?_
    · have := hin b hb _ hw0
      simp only at this
      omega
    · intro hg
      have k1 := hin b hb _ (hw1 hg)
      have k2 := hin b hb _ (hw2 hg)
      simp only at k1 k2
      omega
  refine ⟨unitMem_wf p h.wf u d, ?_, ?_⟩
  · intro j hj
    by_cases hlt : j < p.unitStart u
    · obtain ⟨k, hk⟩ := h.results j hlt
      have keep0 : (unitMem p m u d).readWord (p.a0 + 4 * j) = m.readWord (p.a0 + 4 * j) := by
        refine Memory.readWord_congr fun c h1 h2 => unitMem_outside p m u d c (by omega) ?_
        intro hg
        have := hout hg
        omega
      refine ⟨k, ?_⟩
      simp only at hk ⊢
      rw [keep0]
      refine ⟨hk.1, fun hg => ?_⟩
      have hap := hout hg
      have keep1 : (unitMem p m u d).readWord (p.a1 + 4 * j) = m.readWord (p.a1 + 4 * j) :=
        Memory.readWord_congr fun c h1 h2 => unitMem_outside p m u d c (by omega) (fun _ => by omega)
      have keep2 : (unitMem p m u d).readWord (p.a2 + 4 * j) = m.readWord (p.a2 + 4 * j) :=
        Memory.readWord_congr fun c h1 h2 => unitMem_outside p m u d c (by omega) (fun _ => by omega)
      rw [keep1, keep2]
      exact hk.2 hg
    · obtain ⟨l, rfl⟩ : ∃ l, j = p.unitStart u + l := ⟨j - p.unitStart u, by omega⟩
      have hl : l < p.unitLanes u := by omega
      have hv := unitResults_getElem p m u d l hl
      rw [hread p.aR (by simp) _ (by omega), hread p.aG (by simp) _ (by omega), hread p.aB (by simp) _ (by omega)] at hv
      have hlane : p.lane u = p.laneAt (p.unitStart u + l) := by
        funext k r g b
        unfold Plan.lane Plan.laneAt
        by_cases hc : u < p.chunks
        · have : p.unitStart u + l < p.chunks * p.lanes := by
            simp only [Plan.unitStart, Plan.unitLanes, hc, if_true] at hl ⊢
            have := Nat.mul_le_mul_left p.lanes (Nat.succ_le_of_lt hc)
            rw [Nat.mul_succ, Nat.mul_comm p.lanes p.chunks] at this
            omega
          simp [hc, this]
        · have : ¬ p.unitStart u + l < p.chunks * p.lanes := by simp [Plan.unitStart, hc]; omega
          simp [hc, this]
      rw [hlane] at hv
      refine ⟨d + drawsPerLane * l, ?_⟩
      simp only
      have e0 : p.a0 + 4 * (p.unitStart u + l) = p.a0 + 4 * p.unitStart u + 4 * l := by omega
      have e1 : p.a1 + 4 * (p.unitStart u + l) = p.a1 + 4 * p.unitStart u + 4 * l := by omega
      have e2 : p.a2 + 4 * (p.unitStart u + l) = p.a2 + 4 * p.unitStart u + 4 * l := by omega
      cases hg : p.gray with
      | true =>
        refine ⟨?_, fun h => by cases h⟩
        simp only [unitMem, hg, if_true]
        rw [e0]
        exact Memory.readWord_writeLanes_map h.wf _ _ _ _ _ hv
      | false =>
        have hap := hout hg
        have len := unitResults_length p m u d
        have w1 := Memory.writeLanes_wf h.wf (p.a0 + 4 * p.unitStart u) ((unitResults p m u d).map Ycc.y)
        have w2 := Memory.writeLanes_wf w1 (p.a1 + 4 * p.unitStart u) ((unitResults p m u d).map Ycc.cb)
        simp only [unitMem, hg, Bool.false_eq_true, if_false, forall_const]
        rw [e0, e1, e2]
        refine ⟨?_, ?_, ?_⟩
        · rw [Memory.readWord_writeLanes_apart _ (by simp only [List.length_map, len]; omega),
            Memory.readWord_writeLanes_apart _ (by simp only [List.length_map, len]; omega)]
          exact Memory.readWord_writeLanes_map h.wf _ _ _ _ _ hv
        · rw [Memory.readWord_writeLanes_apart _ (by simp only [List.length_map, len]; omega)]
          exact Memory.readWord_writeLanes_map w1 _ _ _ _ _ hv
        · exact Memory.readWord_writeLanes_map w2 _ _ _ _ _ hv
  · intro a h0 h1
    rw [unitMem_outside p m u d a (by omega) (fun hg => by have := h1 hg; omega)]
    exact h.outside a (by omega) (fun hg => by have := h1 hg; omega)

/-- The first `u` units, whose requests are all answered OK, run through and leave their results. -/
theorem State.units_run (s : State) (i : Instr) {p : Plan} (ha : p.aliased = false) (raced : Bool) {m0 : Memory}
    (hw : m0.wf = true) (d0 : Nat) (u : Nat) (hu : u ≤ p.units)
    (hok : ∀ u' < u, ∀ st ∈ p.stages, answer s.params s.platform (p.request u' st) = .ok) :
    ∃ m d, p.doneTo m0 m (p.unitStart u) ∧
      ∀ n, (s.running (freshRun i p 0 raced) m0 d0).advance (u * p.unitActions + n) =
        (s.running (freshRun i p u raced) m d).advance n := by
  induction u with
  | zero =>
    refine ⟨m0, d0, ⟨hw, fun j hj => by simp at hj, fun _ _ _ => rfl⟩, fun n => by simp⟩
  | succ u ih =>
    obtain ⟨m, d, hd, hrun⟩ := ih (by omega) (fun u' h => hok u' (by omega))
    refine ⟨unitMem p m u d, d + drawsPerLane * p.unitLanes u, Plan.doneTo_unit ha (by omega) hd d, fun n => ?_⟩
    rw [Nat.succ_mul, Nat.add_assoc, hrun, State.unit_runs s i p u m d raced (by omega) (hok u (by omega))]

/-- At least a command's own bound of actions is enough for its units and its end (R235). -/
theorem Plan.unitActions_le (p : Plan) (u : Nat) (hu : u ≤ p.units) :
    ∃ k, p.actions = u * p.unitActions + (k + 1) ∧ (u < p.units → 6 ≤ k) := by
  have h1 : u * p.unitActions ≤ u * 6 := Nat.mul_le_mul_left _ (by unfold Plan.unitActions; split <;> omega)
  unfold Plan.actions
  exact ⟨6 * p.units - u * p.unitActions, by omega, fun h => by omega⟩

/-! ### A conversion from its issue to its end -/

theorem mem_of_zip_snd {α β} {x : α × β} {l : List α} {k : List β} (h : x ∈ l.zip k) : x.2 ∈ k := by
  obtain ⟨a, b⟩ := x
  exact (List.of_mem_zip h).2

/-- A convertible state passes the checks. -/
theorem State.Convertible.validate {s : State} {p : Plan} (h : s.Convertible p) : s.validate p = none := by
  rw [State.validate_none_iff]
  refine ⟨h.count, h.len, h.rgbLen, h.aligned, fun x hx => ?_⟩
  rcases h.inRange with h0 | h1
  · exact .inl h0
  · exact .inr (h1 _ (mem_of_zip_snd hx))

/-- A conversion that passes its checks starts, and goes on until the next input is due. -/
theorem State.Convertible.convert {s : State} {i : Instr} {p : Plan} (h : s.Convertible p) :
    s.convert i p = (s.clearedForIssue.start i p).resume := by
  apply State.convert_ok (State.busy_eq_false.2 h.idle)
  rw [State.validate_congr (s := s)]
  · exact State.Convertible.validate h
  · exact ⟨rfl, rfl, rfl, rfl, rfl, rfl⟩

/-- A conversion starts at its first unit, raced if it meets a running command of another instance (R91). -/
theorem State.start_running (s : State) (i : Instr) (p : Plan) :
    s.start i p =
      State.running { s with peers := s.peersMarked p.readRegions p.writeRegions }
        (freshRun i p 0 (s.peersMeet p.readRegions p.writeRegions)) s.mem s.nanDraws := rfl

theorem State.start_alone {s : State} {p : Plan} (h : s.peersMeet p.readRegions p.writeRegions = false) (i : Instr) :
    s.start i p = s.running (freshRun i p 0 false) s.mem s.nanDraws := by
  rw [State.start_running, h, State.peersMarked_alone h]

/-- At the end of a command without aliasing, race or foreign memory, no byte is any value. -/
theorem Run.anyRegions_empty {r : Run} {pf : Platform} (h1 : r.plan.aliased = false) (h2 : r.raced = false)
    (h3 : regionsMeet pf.foreign r.plan.writeRegions = false) : ∀ g ∈ r.anyRegions pf r.plan.units, g.size = 0 := by
  have size : ∀ g ∈ r.plan.writeRegions, g.size = 4 * r.plan.samples := by
    intro g hg
    cases hp : r.plan.gray <;> simp only [Plan.writeRegions, hp] at hg <;> simp at hg
    · rcases hg with rfl | rfl | rfl <;> rfl
    · rw [hg]
  intro g hg
  simp only [Run.anyRegions, h1, h2, Bool.or_self, Bool.false_eq_true, if_false, List.mem_append, List.mem_map,
    List.mem_flatMap] at hg
  rcases hg with ⟨k, hk, rfl⟩ | ⟨k, hk, f, hf, rfl⟩
  · simp [Region.dropBytes, size k hk, Plan.unitStart_units]
  · exact Region.inter_size_zero (regionsMeet_false h3 hf hk)

/-- An undisturbed conversion runs to its end: DONE, and every sample of its outputs holds its result. -/
theorem State.Convertible.completes {s : State} {i : Instr} {p : Plan} (hc : s.Convertible p) (hu : s.Undisturbed p)
    (hp : s.progress = .toEnd) (hw : s.mem.wf = true) :
    ∃ m d, s.convert i p = .next (s.endedOk m d) ∧ p.doneTo s.mem m p.samples := by
  obtain ⟨m, d, hd, hrun⟩ := State.units_run s.clearedForIssue i hu.apart false hw s.nanDraws p.units (Nat.le_refl _) hu.answered
  refine ⟨m, d, ?_, by rw [← Plan.unitStart_units]; exact hd⟩
  rw [State.Convertible.convert hc, State.start_alone (s := s.clearedForIssue) hu.alone, State.clearedForIssue_mem,
    State.clearedForIssue_nanDraws,
    State.resume_run (s := s.clearedForIssue.running (freshRun i p 0 false) s.mem s.nanDraws) (r := freshRun i p 0 false) rfl
      hu.ordinary]
  obtain ⟨k, hk, _⟩ := p.unitActions_le p.units (Nat.le_refl _)
  have : (s.clearedForIssue.running (freshRun i p 0 false) s.mem s.nanDraws).due (freshRun i p 0 false) =
      p.units * p.unitActions + (k + 1) := by
    rw [← hk]
    simp [State.due, State.running, hp]
    rfl
  rw [this, hrun, State.advance_succ]
  have e : (s.clearedForIssue.running (freshRun i p p.units false) m d).engineStep = (s.clearedForIssue.running (freshRun i p p.units false) m d).finish (freshRun i p p.units false) := by
    simp [State.engineStep, State.running, freshRun]
  have hz := Run.anyRegions_empty (r := freshRun i p p.units false) (pf := s.platform) hu.apart rfl hu.owned
  have e2 : (s.clearedForIssue.running (freshRun i p p.units false) m d).finish (freshRun i p p.units false) = s.endedOk m d := by
    simp only [State.finish, State.anyIn]
    rw [show (s.clearedForIssue.running (freshRun i p p.units false) m d).platform = s.platform from rfl]
    rw [show (freshRun i p p.units false).plan.units = p.units from rfl] at hz
    rw [show (freshRun i p p.units false).plan.units = p.units from rfl]
    rw [Memory.anyAt_empty _ _ hz, regionsSize_empty hz]
    simp [State.endOk, State.running, State.endedOk, State.clearedForIssue, Status.succeeded, hc.idle]
  rw [e, e2, State.advance_idle]
  exact hc.idle

end Sys2Proof.Machine
end

