-- ==== Sys2Proof/Tests/Slice0.lean ====
section
/-! SUPPORT. Tests: the checks of WellFormed refuse, words written out from the encoding decode, vectors of
spec/95_test_vectors.md, one step per command, and for each statement a concrete state that meets its hypotheses. -/

namespace Sys2Proof.Tests

open Sys2Proof Sys2Proof.Machine

set_option Elab.async false

/-! ### Well-formedness: each check refuses an ill-formed term (R9, R10, R100, R103, R104) -/

theorem test_reserved_bit_refused : CmdFields.reservedClear ⟨1, false, 1⟩ = false := by decide
theorem test_op_zero_refused : CmdFields.opDefined ⟨0, false, 0⟩ = false := by decide
theorem test_op_seven_refused : CmdFields.opDefined ⟨0, false, 7⟩ = false := by decide
theorem test_tail_on_aligned_refused : CmdFields.tailAllowed ⟨0, true, 3⟩ = false := by decide
theorem test_ill_formed_word_refused : CmdFields.wellFormed ⟨0, true, 6⟩ = false := by decide
theorem test_narrow_three_refused : Params.narrowLegal ⟨3, 2, false, false, .w64, 0⟩ = false := by decide
theorem test_mult_one_refused : Params.multLegal ⟨8, 1, false, false, .w64, 0⟩ = false := by decide
theorem test_wide_256_refused : Params.wideLegal ⟨64, 4, false, false, .w64, 0⟩ = false := by decide
theorem test_wide_128_legal : Params.legal ⟨64, 2, false, false, .w64, 0⟩ = true := by decide

/-! ### Decoding: words written out from R100 and R102, the rows of 95_test_vectors.md §2.8 -/

theorem test_decode_cvt_s : decode 0b000000000000000000000000000_0_0001#32 = .ok .cvtS := by decide
theorem test_decode_cvt_nn : decode 0b000000000000000000000000000_0_0010#32 = .ok .cvtNn := by decide
theorem test_decode_cvt_nn_t : decode 0b000000000000000000000000000_1_0010#32 = .ok .cvtNnT := by decide
theorem test_decode_cvt_na : decode 0b000000000000000000000000000_0_0011#32 = .ok .cvtNa := by decide
theorem test_decode_cvt_wn : decode 0b000000000000000000000000000_0_0100#32 = .ok .cvtWn := by decide
theorem test_decode_cvt_wn_t : decode 0b000000000000000000000000000_1_0100#32 = .ok .cvtWnT := by decide
theorem test_decode_cvt_wa : decode 0b000000000000000000000000000_0_0101#32 = .ok .cvtWa := by decide
theorem test_decode_slice : decode 0b000000000000000000000000000_0_0110#32 = .ok .slice := by decide
theorem test_decode_reserved_op : [0x0, 0x7, 0xF].map decode = List.replicate 3 (.error .reservedOp) := by decide
theorem test_decode_tail : [0x11, 0x13, 0x15, 0x16].map decode = List.replicate 4 (.error .tailNotAllowed) := by decide
theorem test_decode_reserved_bits :
    [0x22, 0x80000001, 0xFFFFFFFF].map decode = List.replicate 3 (.error .reservedBits) := by decide
theorem test_table_word : decodeTableWord 32 0x14 = some .cvtWnT ∧ decodeTableWord 32 0x7 = none := by decide

/-! ### Arithmetic and lanes: 95_test_vectors.md §1.7, §2.1, §2.2, §2.4; 42_madd.md R177 -/

theorem test_half_values :
    [0, 1, 8, 16, 24, 32, 63].map halfWord =
      [0x00000000, 0x3F800000, 0x43000000, 0x47000000, 0x4B000000, 0x4F000000, 0x5E800000] := by decide +kernel

/-- §1.7: acc = -1, a = b = 1 + 2^-12. -/
theorem test_madd_both_forms :
    madd 0 0xBF800000 0x3F800800 0x3F800800 true = 0x3A000400 ∧
      madd 0 0xBF800000 0x3F800800 0x3F800800 false = 0x3A000000 := by decide +kernel

/-- §2.2: (100, 150, 200) at P = 8. -/
theorem test_scalar_lane :
    scalarLane 0 0x42C80000 0x43160000 0x43480000 0x43000000 = ⟨0x430CC000, 0x43216FD2, 0x42C5DE6A⟩ := by decide +kernel

/-- §2.2: gradual underflow, an infinity, and the kept sign of a zero Y. -/
theorem test_scalar_lane_corners :
    (scalarLane 0 0x00800000 0 0 0x43000000).y = 0x002645A2 ∧
      scalarLane 0 0x7F800000 0 0 0x43000000 = ⟨0x7F800000, 0xFF800000, 0x7F800000⟩ ∧
      scalarLane 0 0x80000000 0x80000000 0x80000000 0x43000000 = ⟨0x80000000, 0x43000000, 0x43000000⟩ := by decide +kernel

/-- §2.4: (0, 252, 100) at P = 8, fused and unfused. -/
theorem test_vec_lane_forms :
    vecLane 0 0 0x437C0000 0x42C80000 0x43000000 true = ⟨0x431F52F2, 0x42BD0AFE, 0x4165C030⟩ ∧
      vecLane 0 0 0x437C0000 0x42C80000 0x43000000 false = ⟨0x431F52F1, 0x42BD0AFF, 0x4165C030⟩ := by decide +kernel

/-- §2.2: the largest finite input on the fused path. -/
theorem test_vec_lane_overflow :
    vecLane 0 0x7F7FFFFF 0x7F7FFFFF 0x7F7FFFFF 0x43000000 true = ⟨0x7F7FFFFF, 0x722CC921, 0x43000000⟩ := by decide +kernel

/-- §2.5: roundup for A = 32 and A = 64. -/
theorem test_roundup :
    [0x1000, 0x1004, 0x101C, 0x1020].map (roundup · 32) = [0x1000, 0x1020, 0x1020, 0x1020] ∧
      [0x100C, 0x103C, 0x1040].map (roundup · 64) = [0x1040, 0x1040, 0x1040] := by decide

/-! ### A small machine -/

/-- W_N = 2 with fused multiply-add, W_W = 4 without. -/
def inst (a : AddrWidth) : Params := ⟨2, 2, true, false, a, 0x59434331⟩

/-- Five samples of R, G, B: (255, 0, 0), (0, 252, 100), (0, 0, 0), (100, 150, 200), (0, 252, 100). -/
def planes : Memory :=
  ((Memory.writeLanes [] 0x1000 [0x437F0000, 0, 0, 0x42C80000, 0]).writeLanes 0x1100
    [0, 0x437C0000, 0, 0x43160000, 0x437C0000]).writeLanes 0x1200 [0, 0x42C80000, 0, 0x43480000, 0x42C80000]

/-- PRECISION 8, a view of `n` planes and `len` samples at 0x2000, 0x2100, 0x2200, 0x2300, inputs at 0x1000, 0x1100, 0x1200. -/
def ready (n : BitVec 3) (len : Word) : State :=
  { State.resetOf (inst .w64) with
    precision := 8
    viewCount := n
    viewLen := len
    rgbLen := len
    bases := ⟨⟨0x2000, 0⟩, ⟨0x2100, 0⟩, ⟨0x2200, 0⟩, ⟨0x2300, 0⟩, ⟨0x1000, 0⟩, ⟨0x1100, 0⟩, ⟨0x1200, 0⟩⟩
    mem := planes }

/-- The same, with CVT.S running and nothing done yet. -/
def running (n : BitVec 3) (len : Word) : State := (ready n len).start .cvtS (scalarPlan (ready n len))

/-- One input is due. -/
def State.due1 (s : State) (e : Event) : State := { s with inputs := [⟨e, .toEnd⟩] }

/-- The outcome is a next state with this property. -/
def ranTo (o : Host.Outcome State Fault Refusal) (p : State → Bool) : Bool :=
  match o with
  | .next t => p t
  | .fault _ | .refused _ => false

theorem ranTo_exists {o : Host.Outcome State Fault Refusal} {p : State → Bool} (h : ranTo o p = true) :
    ∃ t, o = .next t ∧ p t = true := by
  cases o with
  | next t => exact ⟨t, rfl, h⟩
  | fault => cases h
  | refused => cases h

/-- Y, Cb, Cr of sample `j` in the output planes. -/
def out (t : State) (j : Nat) : Ycc :=
  ⟨t.mem.readWord (0x2000 + 4 * j), t.mem.readWord (0x2100 + 4 * j), t.mem.readWord (0x2200 + 4 * j)⟩

/-! ### One step per command; expected values from 95_test_vectors.md §2.2 and §2.4 -/

/-- CVT.S: the scalar rule on every sample, DONE. -/
theorem test_cvt_s :
    ranTo (exec .cvtS (ready 3 2)) (fun t =>
      t.statusWord == 2 && out t 0 == ⟨0x42987D70, 0x42A9F1D4, 0x437F8000⟩ &&
        out t 1 == ⟨0x431F52F1, 0x42BD0AFF, 0x4165C033⟩ && out t 2 == ⟨0, 0, 0⟩) = true := by decide +kernel

/-- CVT.S on a grayscale view writes Y only (R133). -/
theorem test_cvt_s_gray :
    ranTo (exec .cvtS (ready 1 1)) (fun t => t.statusWord == 2 && out t 0 == ⟨0x42987D70, 0, 0⟩) = true := by decide +kernel

/-- CVT.NN: the fused vector rule on the full chunk; the remainder is untouched (R193). -/
theorem test_cvt_nn :
    ranTo (exec .cvtNn (ready 3 3)) (fun t =>
      t.statusWord == 2 && out t 1 == ⟨0x431F52F2, 0x42BD0AFE, 0x4165C030⟩ && out t 2 == ⟨0, 0, 0⟩) = true := by
  decide +kernel

/-- CVT.NN.T: the tail sample 4 by the scalar rule. -/
theorem test_cvt_nn_t :
    ranTo (exec .cvtNnT (ready 3 5)) (fun t =>
      out t 1 == ⟨0x431F52F2, 0x42BD0AFE, 0x4165C030⟩ && out t 4 == ⟨0x431F52F1, 0x42BD0AFF, 0x4165C033⟩) = true := by
  decide +kernel

/-- CVT.NA: c0 at 0x2004 rounds up to 0x2008, R, G and B stay, so Y of sample 0 lands one sample later (R194, R200). -/
theorem test_cvt_na :
    ranTo (exec .cvtNa { ready 3 2 with bases := { (ready 3 2).bases with c0 := ⟨0x2004, 0⟩ } }) (fun t =>
      t.mem.readWord 0x2004 == 0 && t.mem.readWord 0x2008 == 0x42987D70 && t.mem.readWord 0x200C == 0x431F52F2 &&
        t.mem.readWord 0x2100 == 0x42A9F1D4) = true := by decide +kernel

/-- CVT.WN: four samples by the unfused vector rule. -/
theorem test_cvt_wn :
    ranTo (exec .cvtWn (ready 3 5)) (fun t =>
      out t 1 == ⟨0x431F52F1, 0x42BD0AFF, 0x4165C030⟩ && out t 3 == ⟨0x430CC000, 0x43216FD2, 0x42C5DE6A⟩ &&
        out t 4 == ⟨0, 0, 0⟩) = true := by decide +kernel

/-- CVT.WN.T: the same, then the scalar tail. -/
theorem test_cvt_wn_t :
    ranTo (exec .cvtWnT (ready 3 5)) (fun t =>
      out t 1 == ⟨0x431F52F1, 0x42BD0AFF, 0x4165C030⟩ && out t 4 == ⟨0x431F52F1, 0x42BD0AFF, 0x4165C033⟩) = true := by
  decide +kernel

/-- CVT.WA: c0 at 0x2004 rounds up to 0x2010. -/
theorem test_cvt_wa :
    ranTo (exec .cvtWa { ready 3 4 with bases := { (ready 3 4).bases with c0 := ⟨0x2004, 0⟩ } }) (fun t =>
      t.mem.readWord 0x200C == 0 && t.mem.readWord 0x2010 == 0x42987D70 && t.mem.readWord 0x2014 == 0x431F52F1) = true := by
  decide +kernel

/-- SLICE 3, 7 of a view of two planes of ten samples (§2.7). -/
theorem test_slice :
    ranTo (exec .slice { ready 2 10 with sliceStart := 3, sliceLen := 7 }) (fun t =>
      t.statusWord == 2 && t.viewLen == 7 && t.bases.c0.lo == 0x200C && t.bases.c1.lo == 0x210C && t.bases.c2.lo == 0x2200) =
      true := by decide +kernel

/-- SLICE 0xFFFFFFFF, 2: the sum does not wrap (§2.7). -/
theorem test_slice_range :
    ranTo (exec .slice { ready 3 16 with sliceStart := 0xFFFFFFFF, sliceLen := 2 }) (fun t => t.statusWord == 0x44) =
      true := by decide +kernel

/-! ### Errors, the port, reset: 95_test_vectors.md §2.9 to §2.11 -/

/-- R_BASE = 0xFFFFFFFFFFFFFFF0 with eight samples: ADDR_RANGE at that base. -/
theorem test_addr_range :
    ranTo (exec .cvtS { ready 3 8 with bases := { (ready 3 8).bases with r := ⟨0xFFFFFFF0, 0xFFFFFFFF⟩ } }) (fun t =>
      t.statusWord == 0x64 && t.faultAddr == ⟨0xFFFFFFF0, 0xFFFFFFFF⟩) = true := by decide +kernel

/-- G comes before c1. -/
theorem test_misaligned_order :
    ranTo (exec .cvtS
      { ready 3 8 with bases := { (ready 3 8).bases with g := ⟨0x1102, 0⟩, c1 := ⟨0x2103, 0⟩ } }) (fun t =>
      t.statusWord == 0x54 && t.faultAddr == ⟨0x1102, 0⟩) = true := by decide +kernel

/-- The write of element 1 of c1 is answered ERROR: BUS_ERROR at 0x2104; element 0 keeps its results. -/
theorem test_bus_error :
    ranTo (exec .cvtS { ready 3 2 with platform := ⟨[⟨.write, ⟨0x2104, 4⟩, false, .error⟩], [], []⟩ }) (fun t =>
      t.statusWord == 0x74 && t.faultAddr == ⟨0x2104, 0⟩) = true := by decide +kernel

/-- `wr STATUS, 0x4` when STATUS = 0x34 leaves 0. -/
theorem test_clear_err :
    ({ ready 3 2 with status := ⟨false, true, false, .badLen⟩ }.writeReg .status 4).statusWord = 0 := by decide +kernel

/-- `wr CFG, 8` while BUSY = 1 is discarded and sets OVR. -/
theorem test_busy_write :
    let s := { running 3 2 with precision := 32 }
    (s.writeReg .cfg 8).statusWord = 9 ∧ (s.writeReg .cfg 8).readReg .cfg = 0x20 := by decide +kernel

/-- CAP with W_N = 2, W_W = 4, fused narrow, unfused wide, ADDR_W = 64 (R36). -/
theorem test_cap : (ready 3 2).readReg .cap = 0x00050402 := by decide +kernel

/-- A half-word access answers ERROR. -/
theorem test_half_word_access :
    ranTo (step (State.due1 (ready 3 2) (.regRead 0x14 2))) (fun t => t.response == .error) = true := by decide +kernel

/-- A conversion straight after reset gives BAD_VIEW (§2.11). -/
theorem test_after_reset : ranTo (exec .cvtS (State.resetOf (inst .w32))) (fun t => t.statusWord == 0x24) = true := by
  decide +kernel

/-- The first words of program 3.1: its transactions. -/
theorem test_host_program :
    [HostStmt.prec 8, .wr64 .r 0x1_0000_1000, .cmd .cvtNnT, .clr].flatMap (expandStmt []) =
      [.regWrite 0x08 4 8, .regWrite 0x48 4 0x1000, .regWrite 0x4C 4 1, .regWrite 0x10 4 0x12, .regWrite 0x14 4 0xE] := by
  decide

/-- Spans that overlap only in the remainder of CVT.NN: all 24 bytes written are drawn (R138); spans side by side: none. -/
theorem test_overlapping_spans :
    ranTo (exec .cvtNn { ready 3 3 with bases := { (ready 3 3).bases with c1 := ⟨0x2008, 0⟩ } }) (fun t =>
      t.statusWord == 2 && t.byteDraws == 24) = true ∧
    ranTo (exec .cvtNn { ready 3 3 with bases := { (ready 3 3).bases with c1 := ⟨0x200C, 0⟩ } }) (fun t =>
      t.statusWord == 2 && t.byteDraws == 0) = true := by decide +kernel

/-- Each access of a statement has its own progress (R272). -/
theorem test_pace :
    hostInputs [(.wr64 .r 0x1_0000_1000, ⟨[.actions 3], []⟩)] =
      [⟨.regWrite 0x48 4 0x1000, .actions 3⟩, ⟨.regWrite 0x4C 4 1, .toEnd⟩] := by decide

/-- A command of another instance that writes the R plane starts before this block's command does anything and ends before it
goes on: all 24 destination bytes are drawn at the end, and the four bytes of the other command when it ends (R91). -/
theorem test_peer :
    ranTo (core.run 3
      { running 3 2 with
        inputs := [⟨.peerStart 7 [] [⟨0x1004, 4⟩], .actions 0⟩, ⟨.peerEnd 7, .actions 0⟩, ⟨.regRead 0x14 4, .toEnd⟩] })
      (fun t => !t.busy && t.byteDraws == 28 && t.peers.isEmpty) = true := by decide +kernel

/-- A `wait` whose command is to make no action before it is asked again polls twice and ends with DONE read (R109). -/
theorem test_wait :
    ranTo (core.run 3 { running 3 1 with inputs := [⟨.wait [⟨0, .toEnd⟩], .actions 0⟩] }) (fun t =>
      t.inputs.isEmpty && t.response == .data 2) = true := by decide +kernel

/-- The reset pin lands between two polls of a `wait` for a command that is never answered (R235, R260). -/
theorem test_wait_reset :
    ranTo (core.run 2
      { running 3 1 with
        platform := ⟨[⟨.read, ⟨0x1000, 1⟩, false, .never⟩], [], []⟩
        inputs := [⟨.wait [], .toEnd⟩, ⟨.resetPin false, .toEnd⟩] }) (fun t => !t.busy && t.inputs.length == 1) = true := by
  decide +kernel

/-- The first command after reset (`withFetchWord`). -/
theorem test_fetch : ranTo (step (State.withFetchWord (ready 3 1) 32 1)) (fun t => t.statusWord == 2) = true := by
  decide +kernel

/-! ### Witnesses: states and operands that meet the hypotheses of each statement (the inputs are the tests' own) -/

/-- The conversion passes its checks, one by one. -/
theorem convertible_of {s : State} {p : Plan} (idle : s.phase = .idle)
    (h : (decide (s.count = 1 ∨ s.count = 3 ∨ s.count = 4) && decide (s.len ≠ 0) && decide (s.len ≤ s.rgbLen.toNat) &&
      s.usedBases.all (fun b => b % 4 == 0) && p.accessBases.all (fun a => decide (a + 4 * p.samples ≤ addrSpace s.params))) =
      true) : s.Convertible p := by
  simp only [Bool.and_eq_true, decide_eq_true_eq, List.all_eq_true, beq_iff_eq] at h
  exact ⟨idle, h.1.1.1.1, h.1.1.1.2, h.1.1.2, h.1.2, .inr h.2⟩

theorem witness_EncodeThenDecodeGivesTheCommandBack : Instr.cvtWnT.wellFormed = true := by decide

theorem witness_OtherWordsEndWithIllegalCmd :
    let s := State.due1 (ready 3 2) (.regWrite 0x10 4 0x80000001)
    s.inputs = ⟨.regWrite 0x10 4 0x80000001, .toEnd⟩ :: [] ∧ s.rstN = true ∧ s.phase = .idle ∧
      (0x80000001 : Word) ∉ [(0x00000001 : Word), 0x00000002, 0x00000012, 0x00000003, 0x00000004, 0x00000014, 0x00000005,
        0x00000006] := by decide

theorem witness_StepRunsTheDecodedCommand :
    let s := State.due1 (ready 3 2) (.regWrite 0x10 4 0x12)
    s.inputs = ⟨.regWrite 0x10 4 0x12, .toEnd⟩ :: [] ∧ s.rstN = true ∧ decode 0x12 = .ok .cvtNnT := by
  refine ⟨rfl, rfl, by decide⟩

/-- Both clauses: CMD and the last RW register, and STATUS. -/
theorem witness_WritesWhileBusyAreDiscarded :
    (let s := State.due1 (running 3 2) (.regWrite Reg.cmd.offset 4 1)
     s.inputs = ⟨.regWrite Reg.cmd.offset 4 1, .toEnd⟩ :: [] ∧ s.rstN = true ∧ ∃ r, s.phase = .run r) ∧
    (let s := State.due1 (running 3 2) (.regWrite (Reg.baseHi .b).offset 4 1)
     s.inputs = ⟨.regWrite (Reg.baseHi .b).offset 4 1, .toEnd⟩ :: [] ∧ s.rstN = true ∧ ∃ r, s.phase = .run r) ∧
    (let s := State.due1 (running 3 2) (.regWrite Reg.status.offset 4 8)
     s.inputs = ⟨.regWrite Reg.status.offset 4 8, .toEnd⟩ :: [] ∧ s.rstN = true ∧ ∃ r, s.phase = .run r) :=
  ⟨⟨rfl, rfl, _, rfl⟩, ⟨rfl, rfl, _, rfl⟩, ⟨rfl, rfl, _, rfl⟩⟩

theorem witness_AcceptedConversionIsBusy :
    let s := { ready 3 2 with progress := .actions 0 }
    planOf .cvtS s = some (scalarPlan s) ∧ s.Convertible (scalarPlan s) ∧
      regionsMeet s.platform.devices (scalarPlan s).regions = false ∧ s.progress = .actions 0 :=
  ⟨rfl, convertible_of rfl (by decide +kernel), rfl, rfl⟩

theorem witness_PlanesOnDevicesAreRefused :
    let s := { ready 3 2 with platform := ⟨[], [⟨0x1004, 4⟩], []⟩ }
    planOf .cvtS s = some (scalarPlan s) ∧ s.Convertible (scalarPlan s) ∧
      regionsMeet s.platform.devices (scalarPlan s).regions = true :=
  ⟨rfl, convertible_of rfl (by decide +kernel), by decide +kernel⟩

/-- A read at the last offset; accesses of two bytes, and one at offset 2. -/
theorem witness_PortAnswersWordAccessesOnly :
    (State.due1 (ready 3 2) (.regRead 0xFC 4)).inputs = ⟨.regRead 0xFC 4, .toEnd⟩ :: [] ∧ (0xFC : BitVec 8).toNat % 4 = 0 ∧
    (ready 3 2).rstN = true ∧
    (State.due1 (ready 3 2) (.regRead 0x14 2)).inputs = ⟨.regRead 0x14 2, .toEnd⟩ :: [] ∧
    (State.due1 (ready 3 2) (.regWrite 0x02 4 1)).inputs = ⟨.regWrite 0x02 4 1, .toEnd⟩ :: [] ∧
    ¬ ((2 : Nat) = 4 ∧ (0x14 : BitVec 8).toNat % 4 = 0) ∧ ¬ ((4 : Nat) = 4 ∧ (0x02 : BitVec 8).toNat % 4 = 0) := by decide

/-- The first and the last reserved offset. -/
theorem witness_ReservedOffsetsReadZero :
    (State.due1 (ready 3 2) (.regRead 0x6C 4)).inputs = ⟨.regRead 0x6C 4, .toEnd⟩ :: [] ∧
    (State.due1 (ready 3 2) (.regWrite 0xFC 4 1)).inputs = ⟨.regWrite 0xFC 4 1, .toEnd⟩ :: [] ∧ (ready 3 2).rstN = true ∧
    (∀ o ∈ [(0x6C : BitVec 8), 0xFC], 0x6C ≤ o.toNat ∧ o.toNat % 4 = 0) := by decide

theorem witness_ReservedBitsAndReadOnlyRegisters :
    (0xB : Word).getLsbD 2 = false ∧ Reg.faultAddrHi ∈ [Reg.id, .cap, .half, .faultAddrLo, .faultAddrHi] ∧
    (State.due1 (running 3 2) (.regWrite Reg.faultAddrHi.offset 4 1)).inputs =
      ⟨.regWrite Reg.faultAddrHi.offset 4 1, .toEnd⟩ :: [] ∧ (running 3 2).rstN = true := by decide

/-- The first and the last RW register, and a `_HI` register. -/
theorem witness_RegistersReadWhatWasWritten :
    (∀ r ∈ [Reg.cfg, .sliceLen, .baseHi .b],
      let s := State.due1 (ready 3 2) (.regWrite r.offset 4 0xFFFFFFFF)
      s.inputs = ⟨.regWrite r.offset 4 0xFFFFFFFF, .toEnd⟩ :: [] ∧ s.rstN = true ∧ s.phase = .idle ∧ r.isRW = true) ∧
    Reg.half ≠ Reg.sliceLen ∧ ¬ (Reg.sliceLen = .cfg ∧ Reg.half = .half) := by
  refine ⟨?_, by decide, by decide⟩
  intro r hr
  exact ⟨rfl, rfl, rfl, by revert r; decide⟩

/-- STATUS is written while a command runs, and while none does. -/
theorem witness_StatusBitsAndWriteOneToClear :
    (let s := State.due1 (running 3 2) (.regWrite Reg.status.offset 4 0xE)
     s.inputs = ⟨.regWrite Reg.status.offset 4 0xE, .toEnd⟩ :: [] ∧ s.rstN = true) ∧
    (let s := State.due1 (ready 3 2) (.regWrite Reg.status.offset 4 0xE)
     s.inputs = ⟨.regWrite Reg.status.offset 4 0xE, .toEnd⟩ :: [] ∧ s.rstN = true ∧ s.phase = .idle) :=
  ⟨⟨rfl, rfl⟩, rfl, rfl, rfl⟩

theorem witness_CapHoldsTheParameters : (ready 3 2).params.legal = true := by decide

theorem witness_ResetPinResetsEveryRegister :
    (State.due1 (ready 3 2) (.resetPin false)).inputs = ⟨.resetPin false, .toEnd⟩ :: [] ∧ (ready 3 2).phase = .idle := by
  decide

/-- Both clauses: a destination byte, and a byte just after the destinations. -/
theorem witness_ResetDuringACommandLeavesAnyValue :
    let s := State.due1 (running 3 2) (.resetPin false)
    s.inputs = ⟨.resetPin false, .toEnd⟩ :: [] ∧ (∃ r, s.phase = .run r ∧
      regionsHold r.plan.writeRegions 0x2207 = true ∧ regionsHold r.plan.writeRegions 0x2208 = false) ∧ s.mem.wf = true :=
  ⟨rfl, ⟨_, rfl, by decide +kernel, by decide +kernel⟩, by decide +kernel⟩

theorem witness_EffectiveBasesFollowTheCount :
    2 ≤ (ready 2 1).count ∧ (ready 1 1).count < 2 ∧ 3 ≤ (ready 3 1).count ∧ (ready 2 1).count < 3 ∧ (ready 4 1).count = 4 := by
  decide

/-- The clauses at their boundaries: COUNT 0 and 5, LEN 0; m = 0 and a sum one too large; the first span past the top of the
address space; a slice that just fits. -/
theorem witness_SliceReplacesTheView :
    (ready 0 8).count < 1 ∧ 4 < (ready 5 8).count ∧ (ready 3 0).len = 0 ∧
    (let s := { ready 3 8 with sliceStart := 7, sliceLen := 2 }
     s.phase = .idle ∧ 1 ≤ s.count ∧ s.count ≤ 4 ∧ s.len ≠ 0 ∧ s.len < s.sliceStart.toNat + s.sliceLen.toNat) ∧
    (let s := { ready 1 8 with
        sliceStart := 4
        sliceLen := 4
        bases := { (ready 1 8).bases with c0 := ⟨0xFFFFFFF0, 0xFFFFFFFF⟩ } }
     s.sliceStart.toNat + s.sliceLen.toNat ≤ s.len ∧ s.sliceLen.toNat ≠ 0 ∧
       ¬ s.base .c0 + 4 * (s.sliceStart.toNat + s.sliceLen.toNat) ≤ addrSpace s.params) ∧
    (let s := { ready 4 8 with sliceStart := 4, sliceLen := 4 }
     s.sliceStart.toNat + s.sliceLen.toNat ≤ s.len ∧
       ∀ pl ∈ [Plane.c0, .c1, .c2, .c3], s.base pl + 4 * (s.sliceStart.toNat + s.sliceLen.toNat) ≤ addrSpace s.params) := by
  decide +kernel

theorem witness_SlicedSamplesAreOldSamples :
    let s := { ready 2 10 with sliceStart := 3, sliceLen := 7 }
    s.phase = .idle ∧ (∃ t, exec .slice s = .next t ∧ t.status.done = true) ∧ Plane.c1 ∈ s.spans ∧ 6 < s.sliceLen.toNat :=
  ⟨rfl, ranTo_exists (p := fun t => t.status.done) (by decide +kernel), by decide +kernel, by decide +kernel⟩

theorem witness_BadViewIsReported :
    (ready 0 8).phase = .idle ∧
    (0x10 : Word) ∉ [(0x00000001 : Word), 0x00000002, 0x00000012, 0x00000003, 0x00000004, 0x00000014, 0x00000005,
      0x00000006] ∧
    (ready 0 8).count < 1 ∧ 4 < (ready 5 8).count ∧ (ready 3 0).len = 0 ∧ (ready 2 8).count = 2 := by decide +kernel

theorem witness_BadLengthsAreReported :
    (let s := { ready 4 8 with rgbLen := 7 }
     s.phase = .idle ∧ s.len ≠ 0 ∧ (s.count = 1 ∨ s.count = 3 ∨ s.count = 4) ∧ s.rgbLen.toNat < s.len) ∧
    (let s := { ready 2 8 with sliceStart := 8, sliceLen := 1 }
     s.phase = .idle ∧ s.len ≠ 0 ∧ 1 ≤ s.count ∧ s.count ≤ 4 ∧ s.len < s.sliceStart.toNat + s.sliceLen.toNat) := by
  decide +kernel

/-- Both clauses: G misaligned after R aligned; R aligned and its range one sample past the top. -/
theorem witness_FirstBadPlaneIsReported :
    (let s := { ready 3 8 with bases := { (ready 3 8).bases with g := ⟨0x1102, 0⟩ } }
     s.phase = .idle ∧ (s.count = 1 ∨ s.count = 3 ∨ s.count = 4) ∧ s.len ≠ 0 ∧ s.len ≤ s.rgbLen.toNat ∧
       [s.base .r, s.base .g, s.base .b, s.eff0] ++ (if s.count = 1 then [] else [s.eff1, s.eff2]) =
         [0x1000] ++ 0x1102 :: [0x1200, 0x2000, 0x2100, 0x2200] ∧ 0x1102 % 4 ≠ 0) ∧
    (let s := { ready 3 8 with bases := { (ready 3 8).bases with r := ⟨0xFFFFFFE4, 0xFFFFFFFF⟩ } }
     let p := scalarPlan s
     let bases := [s.base .r, s.base .g, s.base .b, s.eff0] ++ (if s.count = 1 then [] else [s.eff1, s.eff2])
     let access := [p.aR, p.aG, p.aB, p.a0] ++ (if s.count = 1 then [] else [p.a1, p.a2])
     (∀ x ∈ bases, x % 4 = 0) ∧ p.samples ≠ 0 ∧
       bases.zip access = [] ++ (0xFFFFFFFFFFFFFFE4, 0xFFFFFFFFFFFFFFE4) ::
         [(0x1100, 0x1100), (0x1200, 0x1200), (0x2000, 0x2000), (0x2100, 0x2100), (0x2200, 0x2200)] ∧
       addrSpace s.params - 1 < 0xFFFFFFFFFFFFFFE4 + 4 * p.samples - 1) := by decide +kernel

/-- A legal word and one that is no command. -/
theorem witness_EarlyErrorsTouchNothingElse :
    (ready 2 8).phase = .idle ∧
      ranTo ((ready 2 8).commandWrite 5) (fun t => t.status.err && t.status.ecode != .busError) = true ∧
      ranTo ((ready 2 8).commandWrite 7) (fun t => t.status.err && t.status.ecode != .busError) = true :=
  ⟨rfl, by decide +kernel, by decide +kernel⟩

theorem witness_ConversionsAccessTheStatedRanges :
    (planOf .cvtWa (ready 3 5)).isSome = true ∧ (planOf .cvtNnT (ready 1 5)).isSome = true := by decide

theorem witness_RoundupIsTheNextBoundary : 0x1020 % (4 * 2 ^ 3) = 0 ∧ 0x101C % 4 = 0 := by decide

/-- What CVT.NN.T latches on a view of five samples. -/
def fivePlan : Plan := naturalPlan (ready 3 5) (ready 3 5).params.wN (ready 3 5).params.hasFmaN true

/-- CVT.NN.T runs on a view of five samples and is at this unit. -/
def atUnit (u : Nat) : State := { ready 3 5 with phase := .run ⟨.cvtNnT, fivePlan, u, .readR, [], [], [], false⟩ }

/-- Its first chunk. -/
theorem witness_RequestsHaveTheStatedWidths_chunk :
    (atUnit 0).params.legal = true ∧ (atUnit 0).runOk ∧ ∃ r, (atUnit 0).phase = .run r ∧ r.unit < r.plan.units := by
  refine ⟨by decide, ?_, _, rfl, by decide +kernel⟩
  intro r hr
  cases hr
  exact ⟨by decide +kernel, by decide +kernel, by decide +kernel, rfl, rfl, rfl⟩

/-- Its tail element. -/
theorem witness_RequestsHaveTheStatedWidths_tail :
    (atUnit 2).params.legal = true ∧ (atUnit 2).runOk ∧ ∃ r, (atUnit 2).phase = .run r ∧ r.unit < r.plan.units := by
  refine ⟨by decide, ?_, _, rfl, by decide +kernel⟩
  intro r hr
  cases hr
  exact ⟨by decide +kernel, by decide +kernel, by decide +kernel, rfl, rfl, rfl⟩

/-- The last request of its last unit. -/
theorem witness_RequestsHaveTheStatedWidths_last :
    let s := { ready 3 5 with phase := .run ⟨.cvtNnT, fivePlan, 2, .writeCr, [0], [0], [0], false⟩ }
    s.params.legal = true ∧ s.runOk ∧ ∃ r, s.phase = .run r ∧ r.unit < r.plan.units ∧ r.stage = .writeCr := by
  refine ⟨by decide, ?_, _, rfl, by decide +kernel, rfl⟩
  intro r hr
  cases hr
  exact ⟨by decide +kernel, by decide +kernel, rfl, by decide +kernel, rfl, rfl, rfl⟩

theorem witness_ConversionsWriteOnlyTheirOutputs :
    let s := ready 3 5
    planOf .cvtNn s = some (naturalPlan s 2 true false) ∧ s.phase = .idle ∧ (∃ t, exec .cvtNn s = .next t ∧ true = true) ∧
      regionsHold (naturalPlan s 2 true false).writeRegions 0x2010 = false :=
  ⟨rfl, rfl, ranTo_exists (p := fun _ => true) (by decide +kernel), by decide +kernel⟩

theorem witness_RemainderIsUntouched :
    let s := ready 3 5
    let p := naturalPlan s 2 true false
    planOf .cvtNn s = some p ∧ s.phase = .idle ∧ (∃ t, exec .cvtNn s = .next t ∧ true = true) ∧
      (s.eff0 :: (if s.count = 1 then [] else [s.eff1, s.eff2])).Pairwise
        (fun a b => a + 4 * s.len ≤ b ∨ b + 4 * s.len ≤ a) ∧
      s.len / s.params.wN * s.params.wN ≤ 4 ∧ 4 < s.len ∧ 0 < p.units :=
  ⟨rfl, rfl, ranTo_exists (p := fun _ => true) (by decide +kernel), by decide +kernel, by decide +kernel, by decide +kernel,
    by decide +kernel⟩

/-- Nothing disturbs a conversion of the small machine. -/
theorem undisturbed_of {s : State} {p : Plan}
    (h : ∀ u < p.units, ∀ st ∈ p.stages, answer s.params s.platform (p.request u st) = .ok)
    (ordinary : regionsMeet s.platform.devices p.regions = false)
    (owned : regionsMeet s.platform.foreign p.writeRegions = false) (apart : p.aliased = false)
    (alone : s.peersMeet p.readRegions p.writeRegions = false) : s.Undisturbed p :=
  ⟨h, ordinary, owned, apart, alone⟩

theorem planes_wf : planes.wf = true := by decide +kernel

theorem witness_CvtSConvertsEverySample :
    let s := ready 3 2
    s.Convertible (scalarPlan s) ∧ s.Undisturbed (scalarPlan s) ∧ s.progress = .toEnd ∧ s.mem.wf = true :=
  ⟨convertible_of rfl (by decide +kernel),
    undisturbed_of (by decide +kernel) rfl rfl (by decide +kernel) rfl, rfl, planes_wf⟩

theorem witness_CvtNnConvertsEveryChunk :
    let s := ready 3 5
    let p := naturalPlan s s.params.wN s.params.hasFmaN false
    s.Convertible p ∧ s.Undisturbed p ∧ s.progress = .toEnd ∧ s.mem.wf = true ∧ 3 < s.len / s.params.wN * s.params.wN :=
  ⟨convertible_of rfl (by decide +kernel),
    undisturbed_of (by decide +kernel) rfl rfl (by decide +kernel) rfl, rfl, planes_wf, by decide +kernel⟩

/-- A chunk sample and a tail sample. -/
theorem witness_CvtNnTConvertsChunksAndTail :
    let s := ready 1 5
    let p := naturalPlan s s.params.wN s.params.hasFmaN true
    s.Convertible p ∧ s.Undisturbed p ∧ s.progress = .toEnd ∧ s.mem.wf = true ∧ 3 < s.len / s.params.wN * s.params.wN ∧
      s.len / s.params.wN * s.params.wN ≤ 4 ∧ 4 < s.len :=
  ⟨convertible_of rfl (by decide +kernel),
    undisturbed_of (by decide +kernel) rfl rfl (by decide +kernel) rfl, rfl, planes_wf, by decide +kernel, by decide +kernel,
    by decide +kernel⟩

theorem witness_CvtNaConvertsFromRoundedBases :
    let s := { ready 3 5 with bases := { (ready 3 5).bases with c0 := ⟨0x2004, 0⟩ } }
    let p := alignedPlan s s.params.wN s.params.hasFmaN
    s.Convertible p ∧ s.Undisturbed p ∧ s.progress = .toEnd ∧ s.mem.wf = true ∧ 3 < s.len / s.params.wN * s.params.wN :=
  ⟨convertible_of rfl (by decide +kernel),
    undisturbed_of (by decide +kernel) rfl rfl (by decide +kernel) rfl, rfl, planes_wf, by decide +kernel⟩

theorem witness_CvtWnConvertsEveryChunk :
    let s := ready 3 5
    let w := s.params.wideMult * s.params.wN
    let p := naturalPlan s w s.params.hasFmaW false
    s.Convertible p ∧ s.Undisturbed p ∧ s.progress = .toEnd ∧ s.mem.wf = true ∧ 3 < s.len / w * w :=
  ⟨convertible_of rfl (by decide +kernel),
    undisturbed_of (by decide +kernel) rfl rfl (by decide +kernel) rfl, rfl, planes_wf, by decide +kernel⟩

/-- A chunk sample and a tail sample. -/
theorem witness_CvtWnTConvertsChunksAndTail :
    let s := ready 4 5
    let w := s.params.wideMult * s.params.wN
    let p := naturalPlan s w s.params.hasFmaW true
    s.Convertible p ∧ s.Undisturbed p ∧ s.progress = .toEnd ∧ s.mem.wf = true ∧ 3 < s.len / w * w ∧ s.len / w * w ≤ 4 ∧
      4 < s.len :=
  ⟨convertible_of rfl (by decide +kernel),
    undisturbed_of (by decide +kernel) rfl rfl (by decide +kernel) rfl, rfl, planes_wf, by decide +kernel, by decide +kernel,
    by decide +kernel⟩

theorem witness_CvtWaConvertsFromRoundedBases :
    let s := { ready 3 5 with bases := { (ready 3 5).bases with r := ⟨0x1004, 0⟩ } }
    let w := s.params.wideMult * s.params.wN
    let p := alignedPlan s w s.params.hasFmaW
    s.Convertible p ∧ s.Undisturbed p ∧ s.progress = .toEnd ∧ s.mem.wf = true ∧ 3 < s.len / w * w :=
  ⟨convertible_of rfl (by decide +kernel),
    undisturbed_of (by decide +kernel) rfl rfl (by decide +kernel) rfl, rfl, planes_wf, by decide +kernel⟩

/-- The write of element 1 of c1 is the first request answered ERROR. -/
theorem witness_BusErrorKeepsEarlierUnits :
    let s := { ready 3 2 with platform := ⟨[⟨.write, ⟨0x2104, 4⟩, false, .error⟩], [], []⟩ }
    let p := scalarPlan s
    planOf .cvtS s = some p ∧ s.Convertible p ∧ regionsMeet s.platform.devices p.regions = false ∧
      regionsMeet s.platform.foreign p.writeRegions = false ∧ p.aliased = false ∧
      s.peersMeet p.readRegions p.writeRegions = false ∧ s.progress = .toEnd ∧ s.mem.wf = true ∧
      1 < p.units ∧ Stage.writeCb ∈ p.stages ∧ answer s.params s.platform (p.request 1 .writeCb) = .error ∧
      (∀ u' < 1, ∀ st' ∈ p.stages, answer s.params s.platform (p.request u' st') = .ok) ∧
      (∀ st' ∈ p.stages, st'.ctorIdx < Stage.writeCb.ctorIdx → answer s.params s.platform (p.request 1 st') = .ok) ∧
      0 < p.unitStart 1 ∧ regionsHold (p.writeRegions.map (·.dropBytes (4 * p.unitStart 1))) 0x2204 = true :=
  ⟨rfl, convertible_of rfl (by decide +kernel), by decide +kernel, by decide +kernel, by decide +kernel, rfl, rfl, planes_wf,
    by decide +kernel, by decide +kernel, by decide +kernel, by decide +kernel, by decide +kernel, by decide +kernel,
    by decide +kernel⟩

/-- Both kinds of aliasing: c0 on the R plane, with every request answered OK; c1 on the last sample of c0. -/
theorem witness_AliasingLeavesAnyValue :
    (let s := { ready 3 2 with bases := { (ready 3 2).bases with c0 := ⟨0x1004, 0⟩ } }
     let p := scalarPlan s
     planOf .cvtS s = some p ∧ s.Convertible p ∧ s.mem.wf = true ∧ s.progress = .toEnd ∧
       regionsMeet s.platform.devices p.regions = false ∧
       (regionsHold p.readRegions 0x1007 = true ∧ regionsHold p.writeRegions 0x1007 = true) ∧
       (∀ u < p.units, ∀ st ∈ p.stages, answer s.params s.platform (p.request u st) = .ok) ∧
       (∃ t, exec .cvtS s = .next t ∧ (t.phase == .idle) = true)) ∧
    (let s := { ready 3 2 with bases := { (ready 3 2).bases with c1 := ⟨0x2004, 0⟩ } }
     let p := scalarPlan s
     s.Convertible p ∧ p.writeRegions[0]? = some ⟨0x2000, 8⟩ ∧ p.writeRegions[1]? = some ⟨0x2004, 8⟩ ∧
       Region.holds ⟨0x2000, 8⟩ 0x2007 = true ∧ Region.holds ⟨0x2004, 8⟩ 0x2007 = true) :=
  ⟨⟨rfl, convertible_of rfl (by decide +kernel), planes_wf, rfl, rfl, by decide +kernel, by decide +kernel,
      ranTo_exists (p := fun t => t.phase == .idle) (by decide +kernel)⟩,
    ⟨convertible_of rfl (by decide +kernel), by decide +kernel, by decide +kernel, by decide, by decide⟩⟩

/-- The last request, the write of element 1 of c2, is the first one answered ERROR; c1 on the last sample of c0. -/
theorem witness_AliasingLeavesAnyValue_error :
    let s := { ready 3 2 with
      bases := { (ready 3 2).bases with c1 := ⟨0x2004, 0⟩ }
      platform := ⟨[⟨.write, ⟨0x2204, 4⟩, false, .error⟩], [], []⟩ }
    let p := scalarPlan s
    planOf .cvtS s = some p ∧ s.Convertible p ∧ s.mem.wf = true ∧ s.progress = .toEnd ∧
      regionsMeet s.platform.devices p.regions = false ∧ p.writeRegions[0]? = some ⟨0x2000, 8⟩ ∧
      p.writeRegions[1]? = some ⟨0x2004, 8⟩ ∧ 1 < p.units ∧ Stage.writeCr ∈ p.stages ∧
      answer s.params s.platform (p.request 1 .writeCr) = .error ∧
      (∀ u' < 1, ∀ st' ∈ p.stages, answer s.params s.platform (p.request u' st') = .ok) ∧
      (∀ st' ∈ p.stages, st'.ctorIdx < Stage.writeCr.ctorIdx → answer s.params s.platform (p.request 1 st') = .ok) :=
  ⟨rfl, convertible_of rfl (by decide +kernel), planes_wf, rfl, rfl, by decide +kernel, by decide +kernel, by decide +kernel,
    by decide +kernel, by decide +kernel, by decide +kernel, by decide +kernel⟩

/-- The spans of c0 and c1 share their last and first sample, which CVT.NN leaves alone in c0 (R138). -/
theorem witness_AliasingLeavesAnyValue_spans :
    let s := { ready 3 3 with bases := { (ready 3 3).bases with c1 := ⟨0x2008, 0⟩ } }
    let p := naturalPlan s 2 true false
    planOf .cvtNn s = some p ∧ s.Convertible p ∧ s.mem.wf = true ∧ s.progress = .toEnd ∧
      regionsMeet s.platform.devices p.regions = false ∧ s.count ≠ 1 ∧ [s.eff0, s.eff1, s.eff2][0]? = some 0x2000 ∧
      [s.eff0, s.eff1, s.eff2][1]? = some 0x2008 ∧ (0x200B : Nat) < 0x2000 + 4 * s.len ∧ (0x200B : Nat) < 0x2008 + 4 * s.len ∧
      regionsMeet p.readRegions p.writeRegions = false ∧ regionsOverlap p.writeRegions = false ∧
      (∃ t, exec .cvtNn s = .next t ∧ (t.phase == .idle) = true) :=
  ⟨rfl, convertible_of rfl (by decide +kernel), planes_wf, rfl, rfl, by decide +kernel, by decide +kernel, by decide +kernel,
    by decide +kernel, by decide +kernel, by decide +kernel, by decide +kernel,
    ranTo_exists (p := fun t => t.phase == .idle) (by decide +kernel)⟩

/-- A command of another instance writes the last byte that this one reads (R91). -/
theorem witness_AliasingLeavesAnyValue_peer :
    let s := { ready 3 2 with peers := [⟨7, [], [⟨0x1207, 1⟩], false⟩] }
    let p := scalarPlan s
    planOf .cvtS s = some p ∧ s.Convertible p ∧ s.mem.wf = true ∧ s.progress = .toEnd ∧
      regionsMeet s.platform.devices p.regions = false ∧
      (∃ q ∈ s.peers, ByteSetsMeet q.reads q.writes p.readRegions p.writeRegions) ∧
      (∃ t, exec .cvtS s = .next t ∧ (t.phase == .idle) = true) :=
  ⟨rfl, convertible_of rfl (by decide +kernel), planes_wf, rfl, rfl,
    ⟨_, List.mem_cons_self, 0x1207, .inr ⟨by decide, .inl (by decide +kernel)⟩⟩,
    ranTo_exists (p := fun t => t.phase == .idle) (by decide +kernel)⟩

/-- The clauses: a write of the last byte of B, a read of the last byte of c2, and a marked command. -/
theorem witness_RacesLeaveAnyValue :
    let s := running 3 2
    let p := scalarPlan (ready 3 2)
    s.phase = .run ⟨.cvtS, p, 0, .readR, [], [], [], false⟩ ∧ s.rstN = true ∧ s.mem.wf = true ∧
    (State.due1 s (.memWrite 0x1207 [1])).inputs = ⟨.memWrite 0x1207 [1], .toEnd⟩ :: [] ∧ 0x1207 + 1 ≤ addrSpace s.params ∧
    regionsMeet s.platform.devices [⟨0x1207, 1⟩] = false ∧ regionsMeet [⟨0x1207, 1⟩] p.regions = true ∧
    (State.due1 s (.memRead 0x2207 1)).inputs = ⟨.memRead 0x2207 1, .toEnd⟩ :: [] ∧
    regionsMeet [⟨0x2207, 1⟩] p.writeRegions = true ∧
    (let t := { s with phase := s.phase.markRaced }
     ∃ r, t.phase = .run r ∧ r.raced = true ∧ ∃ r', t.engineStep.phase = .run r') ∧
    (let t := { s with phase := .run ⟨.cvtS, p, 2, .readR, [], [], [], true⟩ }
     t.engineStep.phase = .idle ∧ regionsHold p.writeRegions 0x2000 = true) := by
  refine ⟨rfl, rfl, planes_wf, rfl, by decide +kernel, rfl, by decide +kernel, rfl, by decide +kernel,
    ⟨_, rfl, rfl, _, rfl⟩, by decide +kernel, by decide +kernel⟩

/-- A command starts in another instance: its read set meets the last byte that this block's command writes; it meets the
command of a third instance only; it meets nothing. -/
theorem witness_RacesLeaveAnyValue_peerStart :
    let s := { running 3 2 with peers := [⟨7, [⟨0x5000, 4⟩], [⟨0x6000, 4⟩], false⟩] }
    let p := scalarPlan (ready 3 2)
    s.phase = .run ⟨.cvtS, p, 0, .readR, [], [], [], false⟩ ∧ s.rstN = true ∧
    (State.due1 s (.peerStart 8 [⟨0x2207, 1⟩] [⟨0x7000, 4⟩])).inputs =
      ⟨.peerStart 8 [⟨0x2207, 1⟩] [⟨0x7000, 4⟩], .toEnd⟩ :: [] ∧
    (∀ g ∈ [(⟨0x2207, 1⟩ : Region), ⟨0x7000, 4⟩], g.base + g.size ≤ addrSpace s.params) ∧
    regionsMeet s.platform.devices ([⟨0x2207, 1⟩] ++ [⟨0x7000, 4⟩]) = false ∧ (∀ q ∈ s.peers, q.block ≠ 8) ∧
    setsMeet [⟨0x2207, 1⟩] [⟨0x7000, 4⟩] p.readRegions p.writeRegions = true ∧
    setsMeet [⟨0x8000, 4⟩] [⟨0x6003, 1⟩] [⟨0x5000, 4⟩] [⟨0x6000, 4⟩] = true ∧
    setsMeet [⟨0x8000, 4⟩] [⟨0x6003, 1⟩] p.readRegions p.writeRegions = false ∧
    setsMeet [⟨0x5000, 4⟩] [⟨0x6004, 4⟩] [⟨0x5000, 4⟩] [⟨0x6000, 4⟩] = false ∧
    setsMeet [⟨0x5000, 4⟩] [⟨0x6004, 4⟩] p.readRegions p.writeRegions = false := by
  refine ⟨rfl, rfl, rfl, by decide +kernel, rfl, by decide, ?_⟩
  decide +kernel

/-- The command of another instance ends, marked or not. -/
theorem witness_RacesLeaveAnyValue_peerEnd :
    ∀ raced, let q : PeerRun := ⟨7, [], [⟨0x6000, 4⟩], raced⟩
      let s := State.due1 { ready 3 2 with peers := [q] } (.peerEnd 7)
      s.rstN = true ∧ s.mem.wf = true ∧ s.inputs = ⟨.peerEnd q.block, .toEnd⟩ :: [] ∧
        s.peers.find? (fun q' => q'.block == q.block) = some q ∧
        (∀ g ∈ q.writes, g.base + g.size ≤ addrSpace s.params) ∧ regionsMeet s.platform.devices q.writes = false ∧
        regionsHold q.writes 0x6003 = true ∧ regionsHold q.writes 0x6004 = false := by
  intro raced
  cases raced <;> exact ⟨rfl, planes_wf, rfl, rfl, by decide +kernel, rfl, by decide, by decide⟩

/-- The platform never answers the read at 0x1000 (program 3.6). -/
theorem witness_UnansweredRequestKeepsBusy :
    let s := { running 3 2 with platform := ⟨[⟨.read, ⟨0x1000, 1⟩, false, .never⟩], [], []⟩ }
    ∃ r, s.phase = .run r ∧ r.unit < r.plan.units ∧ answer s.params s.platform r.request = .never ∧
      regionsMeet s.platform.devices r.plan.regions = false :=
  ⟨_, rfl, by decide +kernel, by decide +kernel, rfl⟩

theorem witness_AnsweredCommandsEnd :
    (∃ r, (running 3 2).phase = .run r) ∧ ∀ row ∈ (running 3 2).platform.answers, row.answer ≠ .never := by
  refine ⟨⟨_, rfl⟩, by decide⟩

/-- Two reads of STATUS while a command runs, four actions apart. -/
theorem witness_PausesDoNotMatter :
    let s := { running 3 2 with inputs := [⟨.regRead 0x14 4, .actions 4⟩, ⟨.regRead 0x14 4, .actions 4⟩] }
    ∃ r, s.phase = .run r ∧ s.rstN = true ∧ regionsMeet s.platform.devices r.plan.regions = false ∧
      s.inputs = ⟨.regRead 0x14 4, .actions 4⟩ :: ⟨.regRead 0x14 4, .actions 4⟩ :: [] :=
  ⟨_, rfl, rfl, rfl, rfl⟩

/-- A step that the five invariants of a step speak of: a running command, and a register write. -/
theorem witness_StepKeepsMemoryCanonical :
    let s := State.due1 (running 3 2) (.regWrite 0x14 4 8)
    s.mem.wf = true ∧ ∃ t, step s = .next t ∧ true = true :=
  ⟨planes_wf, ranTo_exists (p := fun _ => true) (by decide +kernel)⟩

theorem witness_StepKeepsStatusConsistent :
    let s := State.due1 (running 3 2) (.regWrite 0x14 4 8)
    s.statusOk ∧ ∃ t, step s = .next t ∧ true = true :=
  ⟨⟨by decide, by decide, by decide⟩, ranTo_exists (p := fun _ => true) (by decide +kernel)⟩

/-- A running command is one that passed its checks. -/
theorem running_ok : (State.due1 (running 3 2) (.regWrite 0x14 4 8)).runOk := by
  intro r hr
  cases hr
  exact ⟨by decide +kernel, by decide +kernel, by decide +kernel, rfl, rfl, rfl⟩

theorem witness_StepKeepsTheLatchedValues :
    let s := State.due1 (running 3 2) (.regWrite 0x14 4 8)
    s.runOk ∧ ∃ t, step s = .next t ∧ true = true :=
  ⟨running_ok, ranTo_exists (p := fun _ => true) (by decide +kernel)⟩

theorem witness_StepStaysInsideTheAddressSpace :
    let s := State.due1 (running 3 2) (.regWrite 0x14 4 8)
    s.runOk ∧ s.mem.fits (addrSpace s.params) = true ∧ ∃ t, step s = .next t ∧ true = true :=
  ⟨running_ok, by decide +kernel, ranTo_exists (p := fun _ => true) (by decide +kernel)⟩

theorem witness_StepKeepsTheParameters :
    ∃ t, step (State.due1 (running 3 2) (.resetPin true)) = .next t ∧ true = true :=
  ranTo_exists (p := fun _ => true) (by decide +kernel)

/-- A number below the overflow bound, the bound itself, and two codes. -/
theorem witness_Round32IsNearestTiesToEven :
    (149 : Nat) ≤ 149 ∧ 3 < (2 ^ 128 - 2 ^ 103) * 2 ^ 149 ∧ (2 ^ 128 - 2 ^ 103) * 2 ^ 149 ≤ (2 ^ 128 - 2 ^ 103) * 2 ^ 149 ∧
      2 < 0x7F800000 := by decide +kernel

theorem witness_FiniteOperationsRoundTheExactResult :
    fexp 0x3F800000 ≠ 255 ∧ fexp 0x80000000 ≠ 255 ∧ fexp 0x7F7FFFFF ≠ 255 := by decide

/-- No NaN among the operands; a zero times an infinity; opposite infinities. -/
theorem witness_InfinitiesFollowTheirRules :
    isNaN 0x7F800000 = false ∧ isNaN 0xFF800000 = false ∧ isNaN 0 = false ∧ isNaN 0x3F800000 = false ∧
      (isZero 0 = true ∧ isInf 0x7F800000 = true) ∧ (isInf 0x7F800000 = true ∧ isInf 0xFF800000 = true) ∧
      fsign 0x7F800000 ≠ fsign 0xFF800000 ∧ isInf 0x3F800000 = false ∧ isZero 0x3F800000 = false := by decide

theorem witness_NaNResultsAreQuietNaNs : isNaN 0x7F800001 = true ∧ isNaN 0 = false := by decide

theorem witness_CoefficientsAreTheNearestBinary32 : fexp 0x3E991686 ≠ 255 ∧ (0x3E991686 : Word) ≠ kYR := by decide

theorem witness_SamplesAreLittleEndian :
    planes.wf = true ∧ [(0x11223344 : Word), 5][1]? = some 5 ∧ (1 : Nat) < 2 ∧ (3 : Nat) < 4 ∧
      (0x1008 : Nat) + 4 * 2 ≤ 0x1010 := ⟨planes_wf, rfl, by decide, by decide, by decide⟩

/-- The clauses: no command; a pause that lets nothing pass; one that lets the reset pin pass; two polls without an action;
no pause at all, so that only the end of the command ends the `wait`. -/
theorem witness_WaitPollsUntilIdle :
    (State.due1 (ready 3 2) (.wait [])).inputs = ⟨.wait [], .toEnd⟩ :: [] ∧ (ready 3 2).phase = .idle ∧
    (running 3 2).rstN = true ∧ ∃ r, (running 3 2).phase = .run r ∧
      regionsMeet (running 3 2).platform.devices r.plan.regions = false ∧
      (∀ row ∈ (running 3 2).platform.answers, row.answer ≠ .never) ∧
    (State.due1 (running 3 2) (.wait [⟨0, .toEnd⟩])).inputs = ⟨.wait [⟨0, .toEnd⟩], .toEnd⟩ :: [] ∧
    ({ running 3 2 with inputs := [⟨.wait [⟨1, .toEnd⟩], .actions 0⟩, ⟨.resetPin false, .toEnd⟩] }).inputs =
      ⟨.wait [⟨1, .toEnd⟩], .actions 0⟩ :: [⟨.resetPin false, .toEnd⟩] ∧ (Event.resetPin false).onRegisterPort = false ∧
    ({ running 3 2 with inputs := [⟨.wait (List.replicate 1 ⟨0, .actions 0⟩), .actions 0⟩] }).inputs =
      ⟨.wait (List.replicate 1 ⟨0, .actions 0⟩), .actions 0⟩ :: [] ∧
    ({ running 3 2 with inputs := [⟨.wait [], .actions 0⟩] }).inputs = ⟨.wait [], .actions 0⟩ :: [] :=
  ⟨rfl, rfl, rfl, _, rfl, rfl, by decide, rfl, rfl, rfl, rfl, rfl⟩

end Sys2Proof.Tests
end

section
/-! Binary32 rounding (R20): the finite magnitude codes in order, and division rounded to the nearest integer. -/

namespace Sys2Proof.Machine

/-! ### Magnitude codes: the finite binary32 values in increasing order -/

theorem fexp_ofNat {k : Nat} (h : k < 2 ^ 31) : fexp (BitVec.ofNat 32 k) = k / 2 ^ 23 := by
  rw [fexp, BitVec.toNat_ofNat]
  omega

theorem ffrac_ofNat (k : Nat) : ffrac (BitVec.ofNat 32 k) = k % 2 ^ 23 := by
  rw [ffrac, BitVec.toNat_ofNat]
  omega

/-- The value of a magnitude code in units of 2^-149, as R20 reads the bits under the sign. -/
def codeMag (k : Nat) : Nat := fmag (BitVec.ofNat 32 k)

/-- A significand `m` of at most 24 bits at exponent `e` has the code `m + e·2^23`: the carry to `2^24` moves to the next
exponent, and only the exponent 0 takes significands below `2^23` (the subnormals). -/
theorem codeMag_code {m e : Nat} (hm : m ≤ 2 ^ 24) (he : e = 0 ∨ 2 ^ 23 ≤ m) (hlt : m + e * 2 ^ 23 < 2 ^ 31) :
    codeMag (m + e * 2 ^ 23) = m * 2 ^ e := by
  rw [codeMag, fmag, fexp_ofNat hlt, ffrac_ofNat]
  rcases Nat.lt_or_ge m (2 ^ 23) with hsub | hnorm
  · obtain rfl : e = 0 := by omega
    rw [if_pos (by omega), pow_zero]
    omega
  rw [if_neg (by omega)]
  rcases Nat.lt_or_eq_of_le hm with hlt24 | rfl
  · rw [show (m + e * 2 ^ 23) / 2 ^ 23 - 1 = e by omega, show 2 ^ 23 + (m + e * 2 ^ 23) % 2 ^ 23 = m by omega]
  · rw [show (2 ^ 24 + e * 2 ^ 23) / 2 ^ 23 - 1 = e + 1 by omega,
      show 2 ^ 23 + (2 ^ 24 + e * 2 ^ 23) % 2 ^ 23 = 2 ^ 23 by omega, pow_succ]
    ring

/-- Every code is a significand below `2^24` at an exponent. -/
theorem exists_code (k : Nat) : ∃ m e, k = m + e * 2 ^ 23 ∧ m < 2 ^ 24 ∧ (e = 0 ∨ 2 ^ 23 ≤ m) :=
  ⟨k - (k / 2 ^ 23 - 1) * 2 ^ 23, k / 2 ^ 23 - 1, by omega⟩

theorem codeMag_lt_succ {k : Nat} (h : k + 1 < 2 ^ 31) : codeMag k < codeMag (k + 1) := by
  obtain ⟨m, e, rfl, hm, he⟩ := exists_code k
  rw [Nat.add_right_comm] at h ⊢
  rw [codeMag_code hm.le he (by omega), codeMag_code hm (by omega) h]
  gcongr
  omega

theorem codeMag_lt {k l : Nat} (hkl : k < l) (hl : l < 2 ^ 31) : codeMag k < codeMag l := by
  induction l, hkl using Nat.le_induction with
  | base => exact codeMag_lt_succ hl
  | succ l _ ih => exact (ih (by omega)).trans (codeMag_lt_succ hl)

theorem codeMag_le {k l : Nat} (hkl : k ≤ l) (hl : l < 2 ^ 31) : codeMag k ≤ codeMag l := by
  rcases Nat.lt_or_eq_of_le hkl with h | rfl
  · exact (codeMag_lt h hl).le
  · exact le_rfl

theorem codeMag_inj {k l : Nat} (hk : k < 2 ^ 31) (hl : l < 2 ^ 31) (h : codeMag k = codeMag l) : k = l := by
  rcases Nat.lt_trichotomy k l with hlt | heq | hgt
  · exact absurd h (codeMag_lt hlt hl).ne
  · exact heq
  · exact absurd h (codeMag_lt hgt hk).ne'

/-! ### Division rounded to the nearest integer, ties to even -/

/-- `n / d` rounded to the nearest integer, ties to even: the significand step of `roundMag`. -/
def roundDiv (n d : Nat) : Nat :=
  if d < 2 * (n % d) ∨ (2 * (n % d) = d ∧ n / d % 2 = 1) then n / d + 1 else n / d

theorem roundDiv_eq_or (n d : Nat) : roundDiv n d = n / d ∨ roundDiv n d = n / d + 1 := by
  unfold roundDiv
  split <;> simp

/-- No `v` outside the gap between the two multiples of `d` around `n` is nearer to `n` than `roundDiv n d * d`. An equally
near one is the other end of a tie, so that `roundDiv n d` is even. -/
theorem roundDiv_nearest {n d v : Nat} (hd : 0 < d) (hv : v ≤ n / d * d ∨ (n / d + 1) * d ≤ v) :
    |((roundDiv n d * d : Nat) : Int) - n| ≤ |(v : Int) - n| ∧
      (v ≠ roundDiv n d * d → |((roundDiv n d * d : Nat) : Int) - n| = |(v : Int) - n| → roundDiv n d % 2 = 0) := by
  have hn := Nat.div_add_mod' n d
  have hr := Nat.mod_lt n hd
  rw [Nat.succ_mul] at hv
  rw [Int.abs_eq_natAbs, Int.abs_eq_natAbs, roundDiv]
  generalize hp : n / d * d = p at *
  split
  · rw [Nat.succ_mul, hp]
    omega
  · rw [hp]
    omega

/-- For 24-bit quotients, rounding reaches `2^24` from the midpoint on: a tie there is odd below and goes up. -/
theorem roundDiv_lt_two_pow_iff {n d : Nat} (hd : 0 < d) (hlt : n / d < 2 ^ 24) :
    roundDiv n d < 2 ^ 24 ↔ 2 * n < (2 ^ 25 - 1) * d := by
  have hn := Nat.div_add_mod' n d
  have hr := Nat.mod_lt n hd
  rcases Nat.lt_or_eq_of_le (show n / d ≤ 0xFFFFFF from Nat.le_of_lt_succ hlt) with h | h
  · have hmul : (n / d + 1) * d ≤ 0xFFFFFF * d := Nat.mul_le_mul_right d h
    rw [Nat.succ_mul] at hmul
    refine iff_of_true ?_ (by omega)
    rcases roundDiv_eq_or n d with h' | h' <;> omega
  · have hup : roundDiv n d = 0xFFFFFF ↔ 2 * (n % d) < d := by
      rw [roundDiv, h]
      split_ifs with hround <;> omega
    have hor := roundDiv_eq_or n d
    rw [h] at hn hor
    omega

/-! ### `round32` (R20) -/

section
variable {n q : Nat}

/-- The bits that `roundMag` drops. -/
def dropBits (n q : Nat) : Nat := max (n.log2 - 23) (q - 149)

/-- The exponent of the last bit kept, over the subnormal grid's. -/
def keptExp (n q : Nat) : Nat := dropBits n q - (q - 149)

/-- The significand that `roundMag` keeps, not yet rounded. -/
def keptSig (n q : Nat) : Nat := n / 2 ^ dropBits n q

/-- The rounded significand. -/
def roundedSig (n q : Nat) : Nat := roundDiv n (2 ^ dropBits n q)

theorem roundMag_eq (n q : Nat) : roundMag n q = min (roundedSig n q + keptExp n q * 2 ^ 23) 0x7F800000 := rfl

theorem dropBits_eq (n q : Nat) : dropBits n q = keptExp n q + (q - 149) :=
  (Nat.sub_add_cancel (Nat.le_max_right _ _)).symm

theorem keptSig_lt (n q : Nat) : keptSig n q < 2 ^ 24 := by
  rw [keptSig, Nat.div_lt_iff_lt_mul (Nat.two_pow_pos _), ← pow_add]
  exact Nat.lt_log2_self.trans_le (Nat.pow_le_pow_right (by decide) (by unfold dropBits; omega))

/-- All 24 bits are there, unless the significand stands on the subnormal grid. -/
theorem keptExp_eq_zero_or_le_keptSig (n q : Nat) : keptExp n q = 0 ∨ 2 ^ 23 ≤ keptSig n q := by
  refine or_iff_not_imp_left.2 fun h => ?_
  have hlog : n.log2 = 23 + dropBits n q := by unfold keptExp dropBits at *; omega
  rw [keptSig, Nat.le_div_iff_mul_le (Nat.two_pow_pos _), ← pow_add, ← hlog]
  exact Nat.log2_self_le (by rintro rfl; rw [Nat.log2_zero] at hlog; omega)

theorem roundedSig_eq_or (n q : Nat) : roundedSig n q = keptSig n q ∨ roundedSig n q = keptSig n q + 1 :=
  roundDiv_eq_or _ _

theorem keptSig_le_roundedSig (n q : Nat) : keptSig n q ≤ roundedSig n q := by
  rcases roundedSig_eq_or n q with h | h <;> omega

theorem roundedSig_le (n q : Nat) : roundedSig n q ≤ 2 ^ 24 := by
  have hlt := keptSig_lt n q
  rcases roundedSig_eq_or n q with h | h <;> omega

/-- Overflow: the code is finite exactly below `2^128 - 2^103`, the midpoint between the largest finite value (exponent 253)
and `2^128`. -/
theorem roundMag_lt_infinity_iff (hq : 149 ≤ q) : roundMag n q < 0x7F800000 ↔ n < (2 ^ 128 - 2 ^ 103) * 2 ^ q := by
  have hbound : (2 ^ 128 - 2 ^ 103) * 2 ^ q = (2 ^ 25 - 1) * 2 ^ (252 + (q - 149)) := by
    rw [show q = 149 + (q - 149) by omega, Nat.add_sub_cancel_left, pow_add, pow_add, ← mul_assoc, ← mul_assoc]
    rfl
  have hle := roundedSig_le n q
  have hdrop := dropBits_eq n q
  rw [roundMag_eq, hbound, min_lt_iff, or_iff_left (lt_irrefl _)]
  rcases Nat.lt_trichotomy (keptExp n q) 253 with h | h | h
  · refine iff_of_true (by omega) ?_
    calc n < 2 ^ 24 * 2 ^ dropBits n q := (Nat.div_lt_iff_lt_mul (Nat.two_pow_pos _)).1 (keptSig_lt n q)
      _ ≤ (2 ^ 25 - 1) * 2 ^ (252 + (q - 149)) :=
        Nat.mul_le_mul (by decide) (Nat.pow_le_pow_right (by decide) (by omega))
  · have hround : roundedSig n q < 2 ^ 24 ↔ 2 * n < (2 ^ 25 - 1) * 2 ^ dropBits n q :=
      roundDiv_lt_two_pow_iff (Nat.two_pow_pos _) (keptSig_lt n q)
    rw [show dropBits n q = 252 + (q - 149) + 1 by omega, pow_succ'] at hround
    omega
  · have hfull : 2 ^ 23 ≤ keptSig n q := (keptExp_eq_zero_or_le_keptSig n q).resolve_left (by omega)
    have hkept := keptSig_le_roundedSig n q
    refine iff_of_false (by omega) (Nat.not_lt.2 ?_)
    calc (2 ^ 25 - 1) * 2 ^ (252 + (q - 149)) ≤ 2 ^ 25 * 2 ^ (252 + (q - 149)) := Nat.mul_le_mul_right _ (Nat.sub_le _ _)
      _ = 2 ^ 23 * 2 ^ (2 + (252 + (q - 149))) := by rw [← pow_add, ← pow_add, ← add_assoc 23]
      _ ≤ 2 ^ 23 * 2 ^ dropBits n q := Nat.mul_le_mul_left _ (Nat.pow_le_pow_right (by decide) (by omega))
      _ ≤ n := (Nat.le_div_iff_mul_le (Nat.two_pow_pos _)).1 hfull

/-- The value of a code at the exponent that `roundMag` chooses, in units of `2^-q`. -/
theorem codeMag_scaled {m : Nat} (hkept : keptSig n q ≤ m) (hm : m ≤ 2 ^ 24) (hlt : m + keptExp n q * 2 ^ 23 < 2 ^ 31) :
    codeMag (m + keptExp n q * 2 ^ 23) * 2 ^ (q - 149) = m * 2 ^ dropBits n q := by
  rw [codeMag_code hm ((keptExp_eq_zero_or_le_keptSig n q).imp_right hkept.trans') hlt, mul_assoc, ← pow_add,
    ← dropBits_eq]

/-- The code below `n × 2^-q` and the next one are neighbours: no code has a value strictly between theirs. -/
theorem codeMag_scaled_outside_gap {k : Nat} (hk : k < 2 ^ 31) (hlt : keptSig n q + 1 + keptExp n q * 2 ^ 23 < 2 ^ 31) :
    codeMag k * 2 ^ (q - 149) ≤ keptSig n q * 2 ^ dropBits n q ∨
      (keptSig n q + 1) * 2 ^ dropBits n q ≤ codeMag k * 2 ^ (q - 149) := by
  have hkept := keptSig_lt n q
  rw [← codeMag_scaled le_rfl hkept.le (by omega), ← codeMag_scaled (Nat.le_succ _) hkept hlt]
  rcases Nat.lt_or_ge (keptSig n q + keptExp n q * 2 ^ 23) k with h | h
  · exact .inr (Nat.mul_le_mul_right _ (codeMag_le (by omega) hk))
  · exact .inl (Nat.mul_le_mul_right _ (codeMag_le h (by omega)))

/-- How far the value of a code is from `n × 2^-q`, in units of `2^-q`. -/
def codeError (n q k : Nat) : Int := |(codeMag k * 2 ^ (q - 149) : Int) - n|

/-- A finite result is a nearest code, and an even one in a tie. -/
theorem roundMag_nearest {k : Nat} (hfin : roundMag n q < 0x7F800000) (hk : k < 2 ^ 31) :
    codeError n q (roundMag n q) ≤ codeError n q k ∧
      (k ≠ roundMag n q → codeError n q (roundMag n q) = codeError n q k → roundMag n q % 2 = 0) := by
  have hcode : roundMag n q = roundedSig n q + keptExp n q * 2 ^ 23 := by
    rw [roundMag_eq] at hfin ⊢
    omega
  have hkept := keptSig_le_roundedSig n q
  have hvalue : codeMag (roundMag n q) * 2 ^ (q - 149) = roundedSig n q * 2 ^ dropBits n q := by
    rw [hcode]
    exact codeMag_scaled hkept (roundedSig_le n q) (by omega)
  obtain ⟨hle, htie⟩ := roundDiv_nearest (Nat.two_pow_pos _) (codeMag_scaled_outside_gap (n := n) (q := q) hk (by omega))
  rw [← roundedSig, ← hvalue] at hle htie
  push_cast at hle htie
  refine ⟨hle, fun hne heq => ?_⟩
  have heven := htie (fun h => hne (codeMag_inj hk (by omega) (Nat.eq_of_mul_eq_mul_right (Nat.two_pow_pos _) h))) heq
  omega

end

theorem fsign_round32 (neg : Bool) (n q : Nat) : fsign (round32 neg n q) = neg := by
  rw [fsign, round32, BitVec.getLsbD_append]
  simp

/-- Settles O51: below the overflow bound the code is a rounded significand at its exponent, and the codes are in the order
of their values. -/
theorem round32IsNearestTiesToEven : Obligations.Round32IsNearestTiesToEven := by
  intro neg n q hq
  refine ⟨fsign_round32 neg n q, round32_toNat neg n q, fun hover => ?_, fun hlt => ?_⟩
  · have := (roundMag_lt_infinity_iff hq).not.2 (Nat.not_lt.2 hover)
    exact le_antisymm (roundMag_le n q) (Nat.not_lt.1 this)
  · have hfin := (roundMag_lt_infinity_iff hq).2 hlt
    exact ⟨hfin, fun k hk => roundMag_nearest hfin (hk.trans (by decide))⟩

end Sys2Proof.Machine
end

section
/-! The binary32 operations (R21 to R23): negation, and the branches of each operation as equations. -/

namespace Sys2Proof.Machine

/-! ### Negation -/

@[simp] theorem fexp_fneg (f : Word) : fexp (fneg f) = fexp f := by
  rw [fexp_eq, fexp_eq, fneg, BitVec.extractLsb'_xor]
  simp

@[simp] theorem ffrac_fneg (f : Word) : ffrac (fneg f) = ffrac f := by
  rw [ffrac_eq, ffrac_eq, fneg, BitVec.extractLsb'_xor]
  simp

@[simp] theorem fsign_fneg (f : Word) : fsign (fneg f) = !fsign f := by
  rw [fsign, fneg, BitVec.getLsbD_xor]
  simp [fsign]

@[simp] theorem isNaN_fneg (f : Word) : isNaN (fneg f) = isNaN f := by simp [isNaN]

@[simp] theorem fmag_fneg (f : Word) : fmag (fneg f) = fmag f := by simp [fmag]

@[simp] theorem fval_fneg (f : Word) : fval (fneg f) = -fval f := by
  cases h : fsign f <;> simp [fval, h]

/-! ### Zeros, infinities and NaNs -/

theorem infinity_eq (neg : Bool) : infinity neg = if neg then 0xFF800000 else 0x7F800000 := by cases neg <;> rfl

theorem round32_zero (neg : Bool) (q : Nat) : round32 neg 0 q = if neg then 0x80000000 else 0 := by
  have h : roundMag 0 q = 0 := by simp [roundMag]
  rw [round32, h]
  cases neg <;> rfl

theorem isZero_eq_true_iff {f : Word} : isZero f = true ↔ fmag f = 0 := by
  rw [isZero, fmag]
  split <;> simp_all

theorem isZero_eq_true_iff_fval {f : Word} : isZero f = true ↔ fval f = 0 := by
  rw [isZero_eq_true_iff, fval]
  split <;> simp

/-- The zero with its sign bit set is one word. -/
theorem isZero_and_fsign (f : Word) : (isZero f && fsign f) = (f == 0x80000000) := by
  rw [Bool.eq_iff_iff, Bool.and_eq_true, beq_iff_eq]
  refine ⟨fun ⟨hzero, hsign⟩ => ?_, by rintro rfl; decide⟩
  simp only [isZero, fexp, ffrac, Bool.and_eq_true, beq_iff_eq] at hzero
  simp only [fsign, BitVec.getLsbD, Nat.testBit_eq_decide_div_mod_eq, decide_eq_true_eq] at hsign
  have := f.isLt
  refine BitVec.eq_of_toNat_eq (show f.toNat = 0x80000000 from ?_)
  omega

theorem not_isNaN_of_fexp_ne {f : Word} (h : fexp f ≠ 255) : isNaN f = false := by simp [isNaN, h]

theorem not_isInf_of_fexp_ne {f : Word} (h : fexp f ≠ 255) : isInf f = false := by simp [isInf, h]

theorem quietNaN_isNaN (d : Nat) : isNaN (quietNaN d) = true :=
  (Bool.and_eq_true_iff.1 (quietNaN_isQuietNaN d)).1

theorem quietNaN_bits (d : Nat) : (quietNaN d).extractLsb' 22 9 = 0x1FF := by
  rw [quietNaN, BitVec.extractLsb'_or, show (0x7FC00000 : Word).extractLsb' 22 9 = BitVec.allOnes 9 by decide,
    BitVec.or_allOnes]
  rfl

/-! ### The branches of the operations -/

/-- A zero times an infinity (R22). -/
def ZeroTimesInf (a b : Word) : Prop := (isZero a = true ∧ isInf b = true) ∨ (isInf a = true ∧ isZero b = true)

theorem zeroTimesInf_iff (a b : Word) :
    ZeroTimesInf a b ↔ ((isZero a && isInf b) || (isInf a && isZero b)) = true := by simp [ZeroTimesInf]

theorem fmul_of_isNaN (d : Nat) {a b : Word} (h : isNaN a = true ∨ isNaN b = true) : fmul d a b = quietNaN d :=
  if_pos (by simpa using h)

theorem fmul_of_zeroTimesInf (d : Nat) {a b : Word} (h : ZeroTimesInf a b) : fmul d a b = quietNaN d := by
  simp [fmul, (zeroTimesInf_iff a b).1 h]

theorem fmul_of_isInf (d : Nat) {a b : Word} (ha : isNaN a = false) (hb : isNaN b = false) (hz : ¬ ZeroTimesInf a b)
    (h : isInf a = true ∨ isInf b = true) : fmul d a b = infinity (fsign a ^^ fsign b) := by
  rw [fmul, if_neg (by simp [ha, hb]), if_neg (by rwa [← zeroTimesInf_iff]), if_pos (by simpa using h)]

theorem fmul_of_finite (d : Nat) {a b : Word} (ha : fexp a ≠ 255) (hb : fexp b ≠ 255) :
    fmul d a b = round32 (fsign a ^^ fsign b) (fmag a * fmag b) 298 := by
  simp [fmul, not_isNaN_of_fexp_ne, not_isInf_of_fexp_ne, ha, hb]

theorem fadd_of_isNaN (d : Nat) {a b : Word} (h : isNaN a = true ∨ isNaN b = true) : fadd d a b = quietNaN d :=
  if_pos (by simpa using h)

theorem fadd_of_opposite_isInf (d : Nat) {a b : Word} (ha : isInf a = true) (hb : isInf b = true)
    (h : fsign a ≠ fsign b) : fadd d a b = quietNaN d := by
  simp [fadd, ha, hb, h]

theorem fadd_of_isInf_left (d : Nat) {a b : Word} (ha : isNaN a = false) (hb : isNaN b = false) (h : isInf a = true)
    (hs : ¬ (isInf b = true ∧ fsign a ≠ fsign b)) : fadd d a b = infinity (fsign a) := by
  rw [fadd, if_neg (by simp [ha, hb]), if_neg (by simpa [h] using hs), if_pos h]

theorem fadd_of_isInf_right (d : Nat) {a b : Word} (ha : isNaN a = false) (hb : isNaN b = false) (h : isInf b = true)
    (hs : ¬ (isInf a = true ∧ fsign a ≠ fsign b)) : fadd d a b = infinity (fsign b) := by
  cases hi : isInf a with
  | true =>
    have heq : fsign a = fsign b := by simpa [hi] using hs
    rw [fadd_of_isInf_left d ha hb hi (by simp [heq]), heq]
  | false => simp [fadd, ha, hb, hi, h]

theorem fadd_of_finite (d : Nat) {a b : Word} (ha : fexp a ≠ 255) (hb : fexp b ≠ 255) :
    fadd d a b = roundInt (fval a + fval b) 149 (isZero a && isZero b && fsign a && fsign b) := by
  simp [fadd, not_isNaN_of_fexp_ne, not_isInf_of_fexp_ne, ha, hb]

theorem ffma_of_isNaN (d : Nat) {a b c : Word} (h : isNaN a = true ∨ isNaN b = true ∨ isNaN c = true) :
    ffma d a b c = quietNaN d :=
  if_pos (by simpa [or_assoc] using h)

theorem ffma_of_zeroTimesInf (d : Nat) {a b : Word} (c : Word) (h : ZeroTimesInf a b) : ffma d a b c = quietNaN d := by
  simp [ffma, (zeroTimesInf_iff a b).1 h]

theorem ffma_of_isInf_mul (d : Nat) {a b c : Word} (ha : isNaN a = false) (hb : isNaN b = false) (hc : isNaN c = false)
    (hz : ¬ ZeroTimesInf a b) (h : isInf a = true ∨ isInf b = true) :
    ffma d a b c = if isInf c && fsign c != (fsign a ^^ fsign b) then quietNaN d else infinity (fsign a ^^ fsign b) := by
  rw [ffma, if_neg (by simp [ha, hb, hc]), if_neg (by rwa [← zeroTimesInf_iff]), if_pos (by simpa using h)]

theorem ffma_of_isInf_addend (d : Nat) {a b c : Word} (ha : isNaN a = false) (hb : isNaN b = false) (hc : isNaN c = false)
    (h : ¬ (isInf a = true ∨ isInf b = true)) (hi : isInf c = true) : ffma d a b c = infinity (fsign c) := by
  have hz : ¬ ZeroTimesInf a b := fun hz => h (hz.elim (fun x => .inr x.2) fun x => .inl x.1)
  rw [ffma, if_neg (by simp [ha, hb, hc]), if_neg (by rwa [← zeroTimesInf_iff]), if_neg (by simpa using h), if_pos hi]

theorem ffma_of_finite (d : Nat) {a b c : Word} (ha : fexp a ≠ 255) (hb : fexp b ≠ 255) (hc : fexp c ≠ 255) :
    ffma d a b c = roundInt (fval a * fval b + fval c * 2 ^ 149) 298
      ((isZero a || isZero b) && (fsign a ^^ fsign b) && isZero c && fsign c) := by
  simp [ffma, not_isNaN_of_fexp_ne, not_isInf_of_fexp_ne, ha, hb, hc]

/-! ### R21, R22, R23 -/

theorem fmul_isNaN_eq_quietNaN {d : Nat} {a b : Word} (h : isNaN (fmul d a b) = true) : fmul d a b = quietNaN d := by
  unfold fmul at h ⊢
  split_ifs at h ⊢
  · rfl
  · rfl
  · simp [infinity_not_nan] at h
  · simp [round32_not_nan] at h

theorem fadd_isNaN_eq_quietNaN {d : Nat} {a b : Word} (h : isNaN (fadd d a b) = true) : fadd d a b = quietNaN d := by
  unfold fadd at h ⊢
  split_ifs at h ⊢
  · rfl
  · rfl
  · simp [infinity_not_nan] at h
  · simp [infinity_not_nan] at h
  · simp [roundInt_not_nan] at h

theorem ffma_isNaN_eq_quietNaN {d : Nat} {a b c : Word} (h : isNaN (ffma d a b c) = true) :
    ffma d a b c = quietNaN d := by
  simp only [ffma] at h ⊢
  split_ifs at h ⊢
  · rfl
  · rfl
  · rfl
  · simp [infinity_not_nan] at h
  · simp [infinity_not_nan] at h
  · simp [roundInt_not_nan] at h

/-- Settles O54: a NaN result is always the drawn quiet NaN, as rounding and the infinities give none. -/
theorem naNResultsAreQuietNaNs : Obligations.NaNResultsAreQuietNaNs := by
  intro d a b c
  refine ⟨fun h => ⟨?_, ?_, ?_⟩, fun h => ?_, fun x hx hnan => ?_⟩
  · rw [fmul_of_isNaN d h, quietNaN_isNaN]
  · rw [fadd_of_isNaN d h, quietNaN_isNaN]
  · rw [fsub, fadd_of_isNaN d (by rwa [isNaN_fneg]), quietNaN_isNaN]
  · rw [ffma_of_isNaN d h, quietNaN_isNaN]
  · have hquiet : x = quietNaN d := by
      simp only [List.mem_cons, List.not_mem_nil, or_false] at hx
      rcases hx with rfl | rfl | rfl | rfl
      · exact fmul_isNaN_eq_quietNaN hnan
      · exact fadd_isNaN_eq_quietNaN hnan
      · exact fadd_isNaN_eq_quietNaN hnan
      · exact ffma_isNaN_eq_quietNaN hnan
    rw [hquiet]
    exact ⟨quietNaN_isQuietNaN d, quietNaN_bits d⟩

/-- Settles O53: each clause is one branch of the operation. -/
theorem infinitiesFollowTheirRules : Obligations.InfinitiesFollowTheirRules := by
  intro d a b c ha hb hc
  refine ⟨fun hz => ⟨?_, ?_⟩, fun hz hi => ?_, fun hia hib hs => ?_, fun hi hs => ?_, fun hi hs => ?_,
    fun hz hi hic hs => ?_, fun hz hi hs => ?_, fun hi hic => ?_⟩
  · rw [fmul_of_zeroTimesInf d hz, quietNaN_isNaN]
  · rw [ffma_of_zeroTimesInf d c hz, quietNaN_isNaN]
  · rw [fmul_of_isInf d ha hb hz hi, infinity_eq]
  · rw [fadd_of_opposite_isInf d hia hib hs, quietNaN_isNaN]
  · rw [fadd_of_isInf_left d ha hb hi hs, infinity_eq]
  · rw [fadd_of_isInf_right d ha hb hi hs, infinity_eq]
  · rw [ffma_of_isInf_mul d ha hb hc hz hi, if_pos (by simp [hic, hs]), quietNaN_isNaN]
  · rw [ffma_of_isInf_mul d ha hb hc hz hi, if_neg (by simpa using hs), infinity_eq]
  · rw [ffma_of_isInf_addend d ha hb hc hi hic, infinity_eq]

theorem roundInt_eq (x : Int) (q : Nat) (neg : Bool) : roundInt x q neg =
    if x = 0 then (if neg then 0x80000000 else 0) else round32 (decide (x < 0)) x.natAbs q := by
  rw [roundInt, round32_zero]

/-- Rounding a magnitude under a sign is rounding the signed number, when a zero takes that sign too. -/
theorem roundInt_signed (neg : Bool) (m q : Nat) :
    roundInt (if neg then -(m : Int) else m) q neg = round32 neg m q := by
  rcases Nat.eq_zero_or_pos m with rfl | hm
  · simp [roundInt]
  · cases neg <;> simp [roundInt, hm, hm.ne', (Int.natCast_nonneg m).not_gt]

theorem fval_mul (a b : Word) : fval a * fval b =
    if fsign a ^^ fsign b then -((fmag a * fmag b : Nat) : Int) else (fmag a * fmag b : Nat) := by
  unfold fval
  cases fsign a <;> cases fsign b <;> simp

/-- Settles O52: each operation's finite branch, with the signs of its zeros read off the words. -/
theorem finiteOperationsRoundTheExactResult : Obligations.FiniteOperationsRoundTheExactResult := by
  intro d a b c ha hb hc
  refine ⟨?_, ?_, rfl, ?_⟩
  · rw [fmul_of_finite d ha hb, ← roundInt_signed, ← fval_mul, roundInt_eq]
  · have hsign : (isZero a && isZero b && fsign a && fsign b) = (a == 0x80000000 && b == 0x80000000) := by
      rw [← isZero_and_fsign a, ← isZero_and_fsign b]
      ac_rfl
    rw [fadd_of_finite d ha hb, hsign, roundInt_eq]
  · have hzero : (isZero a || isZero b) = decide (fval a * fval b = 0) := by
      rw [Bool.eq_iff_iff, Bool.or_eq_true, isZero_eq_true_iff_fval, isZero_eq_true_iff_fval, decide_eq_true_eq, mul_eq_zero]
    rw [ffma_of_finite d ha hb hc, hzero, Bool.and_assoc _ (isZero c), isZero_and_fsign, roundInt_eq]

end Sys2Proof.Machine
end

section
/-! The coefficients (R13): every other word is beyond one of a coefficient's two neighbours. -/

namespace Sys2Proof.Machine

/-- The magnitude of a word is that of its code, the bits below the sign. -/
theorem fmag_eq_codeMag (w : Word) : fmag w = codeMag (w.toNat % 2 ^ 31) := by
  have hexp : fexp w = fexp (BitVec.ofNat 32 (w.toNat % 2 ^ 31)) := by
    rw [fexp_ofNat (by omega), fexp]
    omega
  have hfrac : ffrac w = ffrac (BitVec.ofNat 32 (w.toNat % 2 ^ 31)) := by
    rw [ffrac_ofNat, ffrac]
    omega
  rw [codeMag, fmag, fmag, hexp, hfrac]

theorem toNat_lt_of_not_fsign {w : Word} (h : fsign w = false) : w.toNat < 2 ^ 31 := by
  have := w.isLt
  rw [fsign, BitVec.getLsbD, Nat.testBit_eq_decide_div_mod_eq, decide_eq_false_iff_not] at h
  omega

/-- A word other than the positive one with code `c` is at most the value before it or at least the value after it. -/
theorem fval_le_or_ge_of_ne {c : Nat} (hlt : c + 1 < 2 ^ 31) {w : Word} (hne : w ≠ BitVec.ofNat 32 c) :
    fval w ≤ codeMag (c - 1) ∨ (codeMag (c + 1) : Int) ≤ fval w := by
  cases hsign : fsign w with
  | true =>
    rw [fval, if_pos hsign]
    omega
  | false =>
    have hw := toNat_lt_of_not_fsign hsign
    have hcode : w.toNat ≠ c := by
      rintro rfl
      exact hne (BitVec.ofNat_toNat 32 w).symm
    rw [fval, if_neg (by simp [hsign]), fmag_eq_codeMag, Nat.mod_eq_of_lt hw, Nat.cast_le, Nat.cast_le]
    rcases Nat.lt_or_gt_of_ne hcode with h | h
    · exact .inl (codeMag_le (by omega) (by omega))
    · exact .inr (codeMag_le h hw)

/-- What is computed of a coefficient `k`: its bits, its value, and that it is nearer to the literal than its two neighbours,
the one below it and the one above it. -/
def coefficientCheck : Word × Word × Int × Int × Nat → Bool
  | (k, bits, literal, num, den) =>
    k == bits && k.toNat + 1 < 2 ^ 31 && fval k * 2 ^ den == num * 2 ^ 149 && fneg k == k ||| 0x80000000 &&
      |fval k * 10 ^ 6 - literal * 2 ^ 149| < literal * 2 ^ 149 - codeMag (k.toNat - 1) * 10 ^ 6 &&
      |fval k * 10 ^ 6 - literal * 2 ^ 149| < codeMag (k.toNat + 1) * 10 ^ 6 - literal * 2 ^ 149

/-- Nearer than the two neighbours is nearer than every other word. -/
theorem abs_lt_of_nearer_than_neighbours {k w : Word} {e x : Int} (hlt : k.toNat + 1 < 2 ^ 31)
    (hbelow : e < x - codeMag (k.toNat - 1) * 10 ^ 6)
    (habove : e < codeMag (k.toNat + 1) * 10 ^ 6 - x) (hne : w ≠ k) : e < |fval w * 10 ^ 6 - x| := by
  rw [lt_abs]
  rcases fval_le_or_ge_of_ne hlt (by rwa [BitVec.ofNat_toNat, BitVec.setWidth_eq]) with h | h <;> omega

/-- Settles O57: each coefficient is compared with its two neighbours, and the order of the codes gives the rest. -/
theorem coefficientsAreTheNearestBinary32 : Obligations.CoefficientsAreTheNearestBinary32 := by
  intro x hx
  have hcheck : coefficientCheck x = true := List.all_eq_true.1 (by decide +kernel) x hx
  obtain ⟨k, bits, literal, num, den⟩ := x
  simp only [coefficientCheck, Bool.and_eq_true, beq_iff_eq, decide_eq_true_eq] at hcheck
  obtain ⟨⟨⟨⟨⟨hbits, hlt⟩, hvalue⟩, hneg⟩, hbelow⟩, habove⟩ := hcheck
  exact ⟨hbits, hvalue, hneg, fval_fneg k, fun w _ hne => abs_lt_of_nearer_than_neighbours hlt hbelow habove hne⟩

end Sys2Proof.Machine
end

section
/-! The register port (R37 to R39): the step of a write at any offset, the reserved offsets, and what a register takes of
the word written to it. -/

namespace Sys2Proof.Machine

/-! ### Offsets -/

theorem portLegal_iff (o : BitVec 8) (n : Nat) : portLegal o n = true ↔ n = 4 ∧ o.toNat % 4 = 0 := by simp [portLegal]

theorem Reg.offset_lt : ∀ r ∈ Reg.all, r.offset.toNat < 0x6C := by decide

/-- No register stands at a reserved offset (R39). -/
theorem Reg.ofOffset_reserved {o : BitVec 8} (h : 0x6C ≤ o.toNat) : Reg.ofOffset o = none := by
  refine List.find?_eq_none.2 fun r hr heq => ?_
  have hlt := Reg.offset_lt r hr
  rw [beq_iff_eq.1 heq] at hlt
  exact Nat.not_lt.2 h hlt

/-- A write of any size at any offset. -/
theorem step_anyWrite {s : State} {o : BitVec 8} {k : Nat} {v : Word} {p : Progress} {is : List Input}
    (hr : s.rstN = true) (hi : s.inputs = ⟨.regWrite o k v, p⟩ :: is) :
    step s = if portLegal o k then (s.rescheduled is p .ok).writeOffset o v else (s.rescheduled is p .error).resume := by
  rw [step_input hr hi]
  rfl

/-- Settles O10: a word read answers the register; an access that is not legal reaches no register. -/
theorem portAnswersWordAccessesOnly : Obligations.PortAnswersWordAccessesOnly := by
  intro s p is hr
  refine ⟨fun o ho hi => ?_, fun o n v hbad hi => ?_⟩
  · rw [step_anyRead hr hi, if_pos ((portLegal_iff o 4).2 ⟨rfl, ho⟩)]
    rfl
  · have hillegal : ¬ portLegal o n = true := fun h => hbad ((portLegal_iff o n).1 h)
    rcases hi with hi | hi
    · rw [step_anyRead hr hi, if_neg hillegal]
      rfl
    · rw [step_anyWrite hr hi, if_neg hillegal]
      rfl

/-- Settles O11: a word access at a reserved offset is legal and finds no register. -/
theorem reservedOffsetsReadZero : Obligations.ReservedOffsetsReadZero := by
  intro s o v p is hr hres ho
  have hlegal : portLegal o 4 = true := (portLegal_iff o 4).2 ⟨rfl, ho⟩
  refine ⟨fun hi => ?_, fun hi => ?_⟩
  · rw [step_anyRead hr hi, if_pos hlegal, State.readOffset, Reg.ofOffset_reserved hres]
    rfl
  · rw [step_anyWrite hr hi, if_pos hlegal, State.writeOffset, Reg.ofOffset_reserved hres]
    rfl

/-! ### Writes -/

/-- A register that is not RW takes a write whether or not a command runs (R40). -/
theorem State.writeReg_of_not_isRW (s : State) {r : Reg} (v : Word) (h : r.isRW = false) :
    s.writeReg r v = s.storeReg r v := by simp [State.writeReg, h]

/-- A read-only register ignores writes, busy or not (R38). -/
theorem State.writeReg_readOnly (s : State) {r : Reg} (v : Word)
    (h : r ∈ [Reg.id, .cap, .half, .faultAddrLo, .faultAddrHi]) : s.writeReg r v = s := by
  simp only [List.mem_cons, List.not_mem_nil, or_false] at h
  rcases h with rfl | rfl | rfl | rfl | rfl <;> exact s.writeReg_of_not_isRW v rfl

theorem State.writeReg_status (s : State) (v : Word) :
    s.writeReg .status v = { s with status := s.status.clearedBy v } := s.writeReg_of_not_isRW v rfl

/-- Two words that are stored alike are written alike: a discarded write does not look at the word. -/
theorem State.writeReg_congr {s : State} {r : Reg} {v w : Word} (h : s.storeReg r v = s.storeReg r w) :
    s.writeReg r v = s.writeReg r w := by rw [State.writeReg, State.writeReg, h]

/-- Only bits 1 to 3 of a word written to STATUS count (R45). -/
theorem Status.clearedBy_mask (st : Status) (v : Word) : st.clearedBy (v &&& 0xE) = st.clearedBy v := by
  have hbit : ∀ i, (0xE : Word).getLsbD i = true → (v &&& 0xE).getLsbD i = v.getLsbD i := fun i h => by
    rw [BitVec.getLsbD_and, h, Bool.and_true]
  simp only [Status.clearedBy, hbit 1 rfl, hbit 2 rfl, hbit 3 rfl]

/-! ### Reserved bits -/

theorem append_toNat_lt {k m n : Nat} {x : BitVec m} (h : x.toNat < 2 ^ k) (y : BitVec n) :
    (x ++ y).toNat < 2 ^ (k + n) := by
  rw [BitVec.toNat_append]
  exact Nat.or_lt_two_pow (Nat.shiftLeft_lt h) (y.isLt.trans_le (Nat.pow_le_pow_right (by decide) (Nat.le_add_left n k)))

theorem State.statusWord_lt (s : State) : s.statusWord.toNat < 2 ^ 8 :=
  append_toNat_lt (append_toNat_lt (append_toNat_lt (append_toNat_lt (append_toNat_lt (k := 0) (by decide) _) _) _) _) _

theorem capWord_lt (p : Params) : (capWord p).toNat < 2 ^ 19 :=
  append_toNat_lt (append_toNat_lt (append_toNat_lt (append_toNat_lt (append_toNat_lt (k := 0) (by decide) _) _) _) _) _

/-- Settles O12: the words are zeros followed by their fields, and a masked write stores the same fields. -/
theorem reservedBitsAndReadOnlyRegisters : Obligations.ReservedBitsAndReadOnlyRegisters := by
  refine ⟨fun s => ⟨?_, ?_, s.statusWord_lt, capWord_lt s.params⟩, fun s v => ⟨?_, ?_, ?_⟩, fun s v => ⟨?_, fun h => ?_⟩,
    fun s reg v p is hr hreg hi => ?_⟩
  · exact (BitVec.toNat_setWidth_of_le (by decide)).trans_lt s.precision.isLt
  · exact (BitVec.toNat_setWidth_of_le (by decide)).trans_lt s.viewCount.isLt
  · have hmask : (v &&& 0x3F).setWidth 6 = v.setWidth 6 := BitVec.setWidth_and.trans BitVec.and_allOnes
    exact State.writeReg_congr (by rw [State.storeReg, State.storeReg, hmask])
  · have hmask : (v &&& 0x7).setWidth 3 = v.setWidth 3 := BitVec.setWidth_and.trans BitVec.and_allOnes
    exact State.writeReg_congr (by rw [State.storeReg, State.storeReg, hmask])
  · rw [s.writeReg_status, s.writeReg_status, Status.clearedBy_mask]
  · rw [s.writeReg_status]
    rfl
  · rw [s.writeReg_status]
    exact if_neg (by simp only [h, Bool.false_eq_true, not_false_eq_true])
  · rw [step_regWrite hr hi, if_neg (by rintro rfl; simp at hreg), State.writeReg_readOnly _ v hreg]

/-! ### CAP -/

/-- The fields of CAP, each as wide as its bits (R36). -/
theorem capWord_fields (p : Params) :
    (capWord p).extractLsb' 0 8 = BitVec.ofNat 8 p.wN ∧ (capWord p).extractLsb' 8 8 = BitVec.ofNat 8 (wideLanes p) ∧
    (capWord p).getLsbD 16 = p.hasFmaN ∧ (capWord p).getLsbD 17 = p.hasFmaW ∧
    (capWord p).getLsbD 18 = decide (p.addrW = .w64) ∧ (capWord p).extractLsb' 19 13 = 0 := by
  refine ⟨BitVec.extractLsb'_append_eq_right, ?_, ?_, ?_, ?_, ?_⟩
  · rw [capWord, BitVec.extractLsb'_append_eq_of_le (by decide)]
    exact BitVec.extractLsb'_append_eq_right
  · simp only [capWord, BitVec.getLsbD_append]
    simp
  · simp only [capWord, BitVec.getLsbD_append]
    simp
  · simp only [capWord, BitVec.getLsbD_append]
    simp [beq_eq_decide]
  · refine BitVec.eq_of_toNat_eq ?_
    rw [BitVec.extractLsb'_toNat, Nat.shiftRight_eq_div_pow, Nat.div_eq_of_lt (capWord_lt p)]
    rfl

/-- Legal lane counts fit in CAP's eight bits (R9, R10). -/
theorem lanes_lt_of_legal {p : Params} (h : p.legal = true) : p.wN < 2 ^ 8 ∧ wideLanes p < 2 ^ 8 := by
  simp only [Params.legal, Params.narrowLegal, Params.wideLegal, Bool.and_eq_true, decide_eq_true_eq, List.contains_iff_mem,
    List.mem_cons, List.not_mem_nil, or_false] at h
  obtain ⟨⟨hnarrow, -⟩, hwide⟩ := h
  unfold wideLanes
  omega

/-- Settles O15: the lane counts fit in their fields. -/
theorem capHoldsTheParameters : Obligations.CapHoldsTheParameters := by
  intro s hlegal
  obtain ⟨hnarrow, hwide⟩ := lanes_lt_of_legal hlegal
  obtain ⟨hwN, hwW, hfmaN, hfmaW, haddrW, hreserved⟩ := capWord_fields s.params
  refine ⟨?_, ?_, hfmaN, hfmaW, haddrW, hreserved, fun v => s.writeReg_readOnly v (by simp)⟩
  · rw [State.readReg, hwN, BitVec.toNat_ofNat, Nat.mod_eq_of_lt hnarrow]
  · rw [State.readReg, hwW, BitVec.toNat_ofNat, Nat.mod_eq_of_lt hwide, wideLanes]

end Sys2Proof.Machine
end

section
/-! HALF (R42) and the registers after reset (R57): the powers of two are held exactly in binary32. -/

namespace Sys2Proof.Machine

/-! ### HALF as an integer -/

/-- The ceiling of half of `2^P - 1`: its double is within 1 of it, from above. -/
theorem halfInt_bounds (p : BitVec 6) : 2 ^ p.toNat - 1 ≤ 2 * halfInt p ∧ 2 * halfInt p ≤ 2 ^ p.toNat := by
  have := Nat.two_pow_pos p.toNat
  unfold halfInt maxValue
  omega

theorem halfInt_of_ne_zero {p : BitVec 6} (h : p ≠ 0) : halfInt p = 2 ^ (p.toNat - 1) := by
  have hpos : 0 < p.toNat := Nat.pos_of_ne_zero fun h0 => h (BitVec.eq_of_toNat_eq h0)
  rw [halfInt, maxValue, Nat.sub_add_cancel Nat.one_le_two_pow, Nat.pow_div hpos Nat.two_pos]

theorem halfInt_eq (p : BitVec 6) : halfInt p = if p = 0 then 0 else 2 ^ (p.toNat - 1) := by
  split
  · subst p
    rfl
  · exact halfInt_of_ne_zero ‹_›

/-! ### Powers of two in binary32 -/

theorem roundDiv_mul (m : Nat) {d : Nat} (h : 0 < d) : roundDiv (m * d) d = m := by
  rw [roundDiv, Nat.mul_mod_left, Nat.mul_div_cancel _ h]
  exact if_neg (by omega)

/-- `2^n` has the exponent `n + 127` and the fraction 0, up to the largest binary32 (R19, R20). -/
theorem roundMag_two_pow {n : Nat} (h : n < 128) : roundMag (2 ^ n * 2 ^ 149) 149 = (n + 127) * 2 ^ 23 := by
  have hdrop : dropBits (2 ^ n * 2 ^ 149) 149 = n + 126 := by
    rw [dropBits, ← pow_add, Nat.log2_two_pow]
    omega
  have hexp : keptExp (2 ^ n * 2 ^ 149) 149 = n + 126 := by
    unfold keptExp
    omega
  have hsig : roundedSig (2 ^ n * 2 ^ 149) 149 = 2 ^ 23 := by
    rw [roundedSig, hdrop, ← pow_add, show n + 149 = 23 + (n + 126) by omega, pow_add,
      roundDiv_mul _ (Nat.two_pow_pos _)]
  calc roundMag (2 ^ n * 2 ^ 149) 149 = min (2 ^ 23 + (n + 126) * 2 ^ 23) 0x7F800000 := by rw [roundMag_eq, hsig, hexp]
    _ = (n + 127) * 2 ^ 23 := by omega

theorem round32_false (n q : Nat) : round32 false n q = BitVec.ofNat 32 (roundMag n q) := by
  refine BitVec.eq_of_toNat_eq ?_
  rw [BitVec.toNat_ofNat, ← round32_toNat false n q]
  have := toNat_lt_of_not_fsign (fsign_round32 false n q)
  omega

theorem fval_round32_false (n q : Nat) : fval (round32 false n q) = codeMag (roundMag n q) := by
  rw [fval, fsign_round32, if_neg Bool.false_ne_true, fmag_eq_codeMag, round32_toNat]

theorem fval_round32_two_pow {n : Nat} (h : n < 128) : fval (round32 false (2 ^ n * 2 ^ 149) 149) = 2 ^ n * 2 ^ 149 := by
  have hcode : codeMag ((n + 127) * 2 ^ 23) = 2 ^ 23 * 2 ^ (n + 126) := by
    rw [show (n + 127) * 2 ^ 23 = 2 ^ 23 + (n + 126) * 2 ^ 23 by omega]
    exact codeMag_code (by decide) (.inr le_rfl) (by omega)
  rw [fval_round32_false, roundMag_two_pow h, hcode]
  push_cast
  ring

/-! ### The HALF register -/

theorem halfWord_zero : halfWord 0 = 0 := round32_zero false 149

theorem halfWord_of_ne_zero {p : BitVec 6} (h : p ≠ 0) :
    halfWord p = BitVec.ofNat 32 ((p.toNat - 1 + 127) * 2 ^ 23) := by
  rw [halfWord, halfInt_of_ne_zero h, round32_false, roundMag_two_pow (by omega)]

theorem halfWord_eq (p : BitVec 6) :
    halfWord p = if p = 0 then 0 else BitVec.ofNat 32 ((p.toNat - 1 + 127) * 2 ^ 23) := by
  split
  · subst p
    exact halfWord_zero
  · exact halfWord_of_ne_zero ‹_›

theorem fval_halfWord (p : BitVec 6) : fval (halfWord p) = halfInt p * 2 ^ 149 := by
  by_cases h : p = 0
  · subst h
    rw [halfWord_zero]
    rfl
  · rw [halfWord, halfInt_of_ne_zero h, fval_round32_two_pow (by omega)]
    push_cast
    rfl

/-- Settles O16: HALF is a power of two or 0, which binary32 holds exactly. -/
theorem halfIsTheExactPowerOfTwo : Obligations.HalfIsTheExactPowerOfTwo := by
  intro s
  obtain ⟨hlow, hhigh⟩ := halfInt_bounds s.precision
  exact ⟨halfInt_eq s.precision, hlow, hhigh, fval_halfWord s.precision, halfWord_eq s.precision,
    fun v => s.writeReg_readOnly v (by simp)⟩

/-! ### Reset -/

theorem hiWord_zero (p : Params) (lo : Word) : hiWord p ⟨lo, 0⟩ = 0 := by
  unfold hiWord
  cases p.addrW <;> rfl

theorem statusWord_resetOf (p : Params) : (State.resetOf p).statusWord = 0 := by
  simp [State.statusWord, State.resetOf, State.busy, Ecode.code]

/-- Settles O17: each register reads the field that reset wrote; HALF follows PRECISION = 32. -/
theorem resetLeavesTheResetValues : Obligations.ResetLeavesTheResetValues := by
  refine ⟨fun p => ?_, rfl⟩
  have hhalf : halfWord 32 = 0x4F000000 := by
    rw [halfWord_of_ne_zero (by decide)]
    rfl
  have hbase : ∀ pl, (State.resetOf p).bases.get pl = ⟨0, 0⟩ := fun pl => by cases pl <;> rfl
  refine ⟨rfl, rfl, rfl, hhalf, statusWord_resetOf p, rfl, hiWord_zero p 0, rfl, rfl, fun pl => ⟨?_, ?_⟩, rfl, rfl,
    rfl, rfl⟩
  · rw [State.readReg, hbase]
  · rw [State.readReg, hbase, hiWord_zero]

end Sys2Proof.Machine
end

section
/-! Byte order (R71): the four bytes of a sample, taken apart and put together, and the bytes of a written vector. -/

namespace Sys2Proof.Machine

theorem or_four_reversed (a b c d : Word) : d ||| c ||| b ||| a = a ||| b ||| c ||| d := by ac_rfl

/-- A sample in R71's form: `byte[a] | byte[a+1] << 8 | byte[a+2] << 16 | byte[a+3] << 24`. -/
theorem Memory.readWord_eq_or (m : Memory) (a : Nat) :
    m.readWord a = ((m.read a).setWidth 32 ||| (m.read (a + 1)).setWidth 32 <<< 8 |||
      (m.read (a + 2)).setWidth 32 <<< 16 ||| (m.read (a + 3)).setWidth 32 <<< 24) := by
  have hbytes : m.readWord a = ((m.read (a + 3)).setWidth 32 <<< 24 ||| (m.read (a + 2)).setWidth 32 <<< 16 |||
      (m.read (a + 1)).setWidth 32 <<< 8 ||| (m.read a).setWidth 32) := by
    rw [← BitVec.setWidth_eq (m.readWord a)]
    exact BitVec.setWidth_append_append_append_eq_shiftLeft_setWidth_or
  rw [hbytes, or_four_reversed]

/-- Byte `k` of the sample at `a` stands at `a + k`. -/
theorem Memory.extractLsb'_readWord (m : Memory) (a : Nat) {k : Nat} (hk : k < 4) :
    (m.readWord a).extractLsb' (8 * k) 8 = m.read (a + k) := by
  unfold Memory.readWord
  match k, hk with
  | 0, _ => exact BitVec.extractLsb'_append_eq_right
  | 1, _ =>
    rw [BitVec.extractLsb'_append_eq_of_le (by decide)]
    exact BitVec.extractLsb'_append_eq_right
  | 2, _ =>
    rw [BitVec.extractLsb'_append_eq_of_le (by decide), BitVec.extractLsb'_append_eq_of_le (by decide)]
    exact BitVec.extractLsb'_append_eq_right
  | 3, _ =>
    rw [BitVec.extractLsb'_append_eq_of_le (by decide), BitVec.extractLsb'_append_eq_of_le (by decide)]
    exact BitVec.extractLsb'_append_eq_left

/-- Settles O59: a sample's bytes stand at its four addresses, so a byte of a written lane is a byte of the sample that
reads back there. -/
theorem samplesAreLittleEndian : Obligations.SamplesAreLittleEndian := by
  refine ⟨Memory.readWord_eq_or, fun m a w l hl => ?_, fun m a l vs v hwf hv k hk => ?_,
    fun m a b vs hb => m.read_writeLanes_outside hb⟩
  · have hlen : l < (m.readLanes a w).length := by rwa [Memory.readLanes_length]
    rw [List.getElem?_eq_getElem hlen, Memory.readLanes_getElem]
  · obtain ⟨hlen, rfl⟩ := List.getElem?_eq_some_iff.1 hv
    rw [← Memory.readWord_writeLanes hwf a vs l hlen, Memory.extractLsb'_readWord _ _ hk]

end Sys2Proof.Machine
end

section
/-! Words that are no command (R104): the decoder loses no bit of a command's word (R100, R102), and what such a word does
when it is written to CMD. -/

namespace Sys2Proof

/-! ### The decoder against the encoder -/

theorem CmdFields.toWord_ofWord (w : Word) : (CmdFields.ofWord w).toWord = w := by
  have htail : BitVec.ofBool (w.getLsbD 4) = w.extractLsb' 4 1 := by
    rw [BitVec.getLsbD_eq_extractLsb']
    exact (by decide : ∀ b : BitVec 1, BitVec.ofBool (b == 1#1) = b) _
  calc (CmdFields.ofWord w).toWord
      = w.extractLsb' 5 27 ++ (w.extractLsb' 4 1 ++ w.extractLsb' 0 4) := by
        rw [← htail]
        rfl
    _ = w.extractLsb' 5 27 ++ w.extractLsb' 0 5 :=
        congrArg (w.extractLsb' 5 27 ++ ·) (BitVec.extractLsb'_append_extractLsb'_eq_extractLsb' rfl)
    _ = w := BitVec.extractLsb'_append_extractLsb'

/-- OP and T select the command with these fields (R102): all sixteen values of OP, with either T. -/
theorem decodeOp_fields : ∀ (op : BitVec 4) (t : Bool), ∀ i ∈ (decodeOp op.toNat t).toOption, i.fields = ⟨0, t, op⟩ := by
  decide

theorem fields_of_decode {w : Word} {i : Instr} (h : decode w = .ok i) : i.fields = CmdFields.ofWord w := by
  simp only [decode] at h
  split at h
  case isTrue hrsv =>
    rw [decodeOp_fields _ _ i (by rw [h]; rfl), ← hrsv]
  case isFalse => cases h

/-- A word that the decoder takes is the word of its command. -/
theorem encode_of_decode {w : Word} {i : Instr} (h : decode w = .ok i) : encode i = w := by
  rw [encode, fields_of_decode h, CmdFields.toWord_ofWord]

/-- The words of R102. -/
theorem encode_mem_words (i : Instr) :
    encode i ∈ [(0x00000001 : Word), 0x00000002, 0x00000012, 0x00000003, 0x00000004, 0x00000014, 0x00000005, 0x00000006] := by
  cases i <;> decide

end Sys2Proof

namespace Sys2Proof.Machine

/-! ### Its write to CMD -/

/-- A command that ends at once with an error, seen from the state that issued it (R225, R228). -/
theorem State.raiseError_clearedForIssue {s : State} (h : s.phase = .idle) (c : Ecode) (a : Nat) :
    s.clearedForIssue.raiseError c a = s.endedWith c a := by
  rw [State.raiseError, ← h]
  rfl

theorem State.commandWrite_illegal {s : State} {w : Word} (hidle : s.phase = .idle) (hw : ∀ i, decode w ≠ .ok i) :
    s.commandWrite w = .next (s.endedWith .illegalCmd 0) := by
  unfold State.commandWrite
  cases hd : decode w with
  | ok i => exact absurd hd (hw i)
  | error e =>
    simp only [State.illegalCommand, State.busy_of_idle hidle, Bool.false_eq_true, if_false,
      State.raiseError_clearedForIssue hidle]

/-- Settles O4: a word that decodes is the word of its command, so any other is refused by the decoder. -/
theorem otherWordsEndWithIllegalCmd : Obligations.OtherWordsEndWithIllegalCmd := by
  intro s w p is hi hr hidle hw
  have hillegal : ∀ i, decode w ≠ .ok i := fun i hd => hw (encode_of_decode hd ▸ encode_mem_words i)
  rw [step_regWrite (r := .cmd) hr hi, if_pos rfl]
  exact State.commandWrite_illegal hidle hillegal

end Sys2Proof.Machine
end

section
/-! SLICE (R136, R137): the spans that a view has, the checks as equations, and the sub-view that a slice leaves. -/

namespace Sys2Proof.Machine

/-! ### Addresses in register pairs -/

theorem AddrPair.toNat_ofNat {n : Nat} (h : n < 2 ^ 64) : (AddrPair.ofNat n).toNat = n := by
  simp only [AddrPair.ofNat, AddrPair.toNat, BitVec.toNat_ofNat]
  omega

theorem addrSpace_le (p : Params) : addrSpace p ≤ 2 ^ 64 := by
  unfold addrSpace
  cases p.addrW <;> decide

/-! ### The spans of a view (R131) -/

theorem State.mem_spans (s : State) (pl : Plane) :
    pl ∈ s.spans ↔ pl = .c0 ∨ (pl = .c1 ∧ 2 ≤ s.count) ∨ (pl = .c2 ∧ 3 ≤ s.count) ∨ (pl = .c3 ∧ s.count = 4) := by
  simp only [State.spans, List.mem_append, List.mem_singleton, List.mem_ite_nil_right, or_assoc, and_comm]

theorem State.spans_sorted (s : State) : s.spans.Pairwise (fun p q => p.ctorIdx < q.ctorIdx) := by
  have hsub : List.Sublist s.spans [.c0, .c1, .c2, .c3] := by
    unfold State.spans
    split <;> split <;> split <;> decide
  exact List.Pairwise.sublist hsub (by decide)

/-! ### The checks of SLICE (R136) -/

/-- A span's slice ends within the address space (R136). -/
def State.SpanFits (s : State) (pl : Plane) : Prop :=
  s.base pl + 4 * (s.sliceStart.toNat + s.sliceLen.toNat) ≤ addrSpace s.params

theorem State.badView_iff (s : State) : s.badView = true ↔ s.count < 1 ∨ 4 < s.count ∨ s.len = 0 := by
  simp [State.badView, or_assoc]

/-- The first span that does not fit is the one below which every span fits. -/
theorem State.firstSpanOutOfRange_eq_some {s : State} {pl : Plane} (hmem : pl ∈ s.spans)
    (hbelow : ∀ q ∈ s.spans, q.ctorIdx < pl.ctorIdx → s.SpanFits q) (hout : ¬ s.SpanFits pl) :
    s.firstSpanOutOfRange = some pl := by
  obtain ⟨below, above, hspans⟩ := List.append_of_mem hmem
  have hsorted := s.spans_sorted
  rw [hspans, List.pairwise_append] at hsorted
  obtain ⟨-, -, hlt⟩ := hsorted
  refine List.find?_eq_some_iff_append.2 ⟨by simpa [State.SpanFits] using hout, below, above, hspans, fun q hq => ?_⟩
  simpa [State.SpanFits] using hbelow q (by simp [hspans, hq]) (hlt q hq pl List.mem_cons_self)

theorem State.firstSpanOutOfRange_eq_none {s : State} :
    s.firstSpanOutOfRange = none ↔ ∀ pl ∈ s.spans, s.SpanFits pl := by
  simp [State.firstSpanOutOfRange, State.SpanFits]

theorem State.validateSlice_badView {s : State} (h : s.count < 1 ∨ 4 < s.count ∨ s.len = 0) :
    s.validateSlice = some (.badView, 0) := by
  rw [State.validateSlice, if_pos (s.badView_iff.2 h)]

theorem State.validateSlice_of_view {s : State} (hn : 1 ≤ s.count) (hn4 : s.count ≤ 4) (hl : s.len ≠ 0) :
    s.validateSlice =
      if s.sliceLen.toNat = 0 ∨ s.len < s.sliceStart.toNat + s.sliceLen.toNat then some (.sliceRange, 0)
      else s.firstSpanOutOfRange.map (fun pl => (.addrRange, s.base pl)) := by
  have hv : ¬ s.badView = true := by rw [s.badView_iff]; omega
  rw [State.validateSlice, if_neg hv]
  cases s.firstSpanOutOfRange <;> simp

/-- What a SLICE that passes its checks knows. -/
theorem State.of_validateSlice_eq_none {s : State} (h : s.validateSlice = none) :
    s.sliceLen.toNat ≠ 0 ∧ ∀ pl ∈ s.spans, s.SpanFits pl := by
  by_cases hv : s.count < 1 ∨ 4 < s.count ∨ s.len = 0
  · simp [State.validateSlice_badView hv] at h
  · rw [State.validateSlice_of_view (by omega) (by omega) (by omega)] at h
    split at h
    case isTrue => cases h
    case isFalse hr =>
      exact ⟨fun hm => hr (.inl hm), State.firstSpanOutOfRange_eq_none.1 (Option.map_eq_none_iff.1 h)⟩

/-! ### The issue of SLICE -/

/-! The checks read no register that an issue clears. -/

@[simp] theorem State.clearedForIssue_base (s : State) : s.clearedForIssue.base = s.base := rfl
@[simp] theorem State.clearedForIssue_spans (s : State) : s.clearedForIssue.spans = s.spans := rfl
@[simp] theorem State.clearedForIssue_len (s : State) : s.clearedForIssue.len = s.len := rfl
@[simp] theorem State.clearedForIssue_badView (s : State) : s.clearedForIssue.badView = s.badView := rfl

@[simp] theorem State.clearedForIssue_firstSpanOutOfRange (s : State) :
    s.clearedForIssue.firstSpanOutOfRange = s.firstSpanOutOfRange := by
  unfold State.firstSpanOutOfRange
  rw [State.clearedForIssue_spans, State.clearedForIssue_base, State.clearedForIssue_params,
    State.clearedForIssue_sliceStart, State.clearedForIssue_sliceLen]

@[simp] theorem State.clearedForIssue_validateSlice (s : State) : s.clearedForIssue.validateSlice = s.validateSlice := by
  unfold State.validateSlice
  rw [State.clearedForIssue_badView, State.clearedForIssue_len, State.clearedForIssue_base,
    State.clearedForIssue_sliceStart, State.clearedForIssue_sliceLen, State.clearedForIssue_firstSpanOutOfRange]

theorem exec_slice_error {s : State} {c : Ecode} {a : Nat} (hidle : s.phase = .idle)
    (h : s.validateSlice = some (c, a)) : exec .slice s = .next (s.endedWith c a) := by
  simp only [exec, execSlice, State.busy_of_idle hidle, Bool.false_eq_true, if_false, State.clearedForIssue_validateSlice, h,
    State.raiseError_clearedForIssue hidle]

theorem exec_slice_ok {s : State} (hidle : s.phase = .idle) (h : s.validateSlice = none) :
    exec .slice s = .next s.clearedForIssue.sliced := by
  simp only [exec, execSlice, State.busy_of_idle hidle, Bool.false_eq_true, if_false, State.clearedForIssue_validateSlice, h]

/-- DONE is set only by a SLICE that passed its checks. -/
theorem exec_slice_done {s t : State} (hidle : s.phase = .idle) (h : exec .slice s = .next t)
    (hdone : t.status.done = true) : s.validateSlice = none ∧ t = s.clearedForIssue.sliced := by
  cases hv : s.validateSlice with
  | some e =>
    rw [exec_slice_error hidle hv] at h
    cases h
    cases hdone
  | none =>
    rw [exec_slice_ok hidle hv] at h
    cases h
    exact ⟨rfl, rfl⟩

/-! ### The sub-view -/

/-- Setting the pairs of a list of planes, each to a value that the plane alone fixes. -/
theorem Bases.get_foldl_set (f : Plane → AddrPair) (ps : List Plane) (bs : Bases) (q : Plane) :
    (ps.foldl (fun bs p => bs.set p (f p)) bs).get q = if q ∈ ps then f q else bs.get q := by
  induction ps generalizing bs with
  | nil => simp
  | cons p ps ih =>
    rw [List.foldl_cons, ih]
    by_cases hps : q ∈ ps
    · simp [hps]
    · by_cases hqp : q = p
      · simp [hqp]
      · simp [hps, hqp, Bases.get_set_other]

theorem State.slicedBases_absent {s : State} {pl : Plane} (h : pl ∉ s.spans) :
    s.slicedBases.get pl = s.bases.get pl := by
  rw [State.slicedBases, Bases.get_foldl_set, if_neg h]

section
variable {s : State} {pl : Plane} (hmem : pl ∈ s.spans) (hlen : s.sliceLen.toNat ≠ 0) (hfit : s.SpanFits pl)
include hlen hfit

theorem State.slicedBase_lt : s.base pl + 4 * s.sliceStart.toNat < addrSpace s.params := by
  unfold State.SpanFits at hfit
  omega

include hmem

/-- The new base is not truncated: a slice that fits has a sample below the top of the address space. -/
theorem State.slicedBases_present : (s.slicedBases.get pl).toNat = s.base pl + 4 * s.sliceStart.toNat := by
  rw [State.slicedBases, Bases.get_foldl_set, if_pos hmem,
    AddrPair.toNat_ofNat (Nat.lt_of_lt_of_le (State.slicedBase_lt hlen hfit) (addrSpace_le s.params))]

theorem State.sliced_base : s.sliced.base pl = s.base pl + 4 * s.sliceStart.toNat := by
  rw [State.base, State.sliced_bases, State.sliced_params, State.slicedBases_present hmem hlen hfit,
    Nat.mod_eq_of_lt (State.slicedBase_lt hlen hfit)]

end

/-! ### R136 and R137 -/

/-- Settles O21: each error is one equation of the checks; a slice that passes them sets the pairs of the spans present. -/
theorem sliceReplacesTheView : Obligations.SliceReplacesTheView := by
  refine ⟨by decide, fun s hidle => ?_⟩
  intro n m start present fits
  refine ⟨fun hview => ?badView, fun ⟨hn, hn4, hl⟩ hrange => ?sliceRange, fun ⟨hn, hn4, hl⟩ ⟨hm, hsum⟩ => ?inRange⟩
  case badView => exact exec_slice_error hidle (State.validateSlice_badView hview)
  case sliceRange =>
    exact exec_slice_error hidle (by rw [State.validateSlice_of_view hn hn4 hl, if_pos hrange])
  case inRange =>
    have hpresent : ∀ pl, present pl ↔ pl ∈ s.spans := fun pl => (s.mem_spans pl).symm
    have hchecks := State.validateSlice_of_view hn hn4 hl
    rw [if_neg (not_or.2 ⟨hm, Nat.not_lt.2 hsum⟩)] at hchecks
    constructor
    · intro pl hpl hbelow hout
      have hfirst : s.firstSpanOutOfRange = some pl :=
        State.firstSpanOutOfRange_eq_some ((hpresent pl).1 hpl) (fun q hq => hbelow q ((hpresent q).2 hq)) hout
      exact exec_slice_error hidle (by rw [hchecks, hfirst, Option.map_some])
    · intro hfits
      have hnone : s.firstSpanOutOfRange = none :=
        State.firstSpanOutOfRange_eq_none.2 fun pl hpl => hfits pl ((hpresent pl).2 hpl)
      refine ⟨s.slicedBases, exec_slice_ok hidle (by rw [hchecks, hnone, Option.map_none]), fun pl hpl => ?_, fun pl hpl => ?_⟩
      · exact State.slicedBases_present ((hpresent pl).1 hpl) hm (hfits pl hpl)
      · exact State.slicedBases_absent (mt (hpresent pl).2 hpl)

/-- Settles O22: each present span's base moved up by 4·s, and eff1 and eff2 are computed from COUNT, which SLICE keeps. -/
theorem slicedSamplesAreOldSamples : Obligations.SlicedSamplesAreOldSamples := by
  intro s t hidle hexec hdone
  obtain ⟨hchecks, rfl⟩ := exec_slice_done hidle hexec hdone
  obtain ⟨hm, hfits⟩ := State.of_validateSlice_eq_none hchecks
  refine ⟨fun pl hpl j _ => ?_, rfl, rfl, fun hn => if_neg (Nat.not_le.2 hn), fun hn => if_neg (Nat.not_le.2 hn)⟩
  have hbase : s.clearedForIssue.sliced.base pl = s.base pl + 4 * s.sliceStart.toNat :=
    State.sliced_base (s := s.clearedForIssue) hpl hm (hfits pl hpl)
  rw [hbase]
  omega

end Sys2Proof.Machine
end

section
/-! The byte ranges of the conversions (R197, R157) and rounding up to a boundary (R195). -/

namespace Sys2Proof.Machine

/-! ### Rounding up (R195) -/

/-- Clearing the low `m` bits of a number leaves the multiple of `2 ^ m` below it. -/
theorem ldiff_two_pow_sub_one (n m : Nat) : Nat.ldiff n (2 ^ m - 1) = n / 2 ^ m * 2 ^ m := by
  refine Nat.eq_of_testBit_eq fun i => ?_
  rw [Nat.testBit_ldiff, Nat.testBit_two_pow_sub_one, Nat.testBit_mul_two_pow, Nat.testBit_div_two_pow]
  by_cases h : i < m
  · simp [h, Nat.not_le.2 h]
  · simp [h, Nat.not_lt.1 h]

theorem dvd_roundup (p m : Nat) : m ∣ roundup p m := Nat.dvd_mul_left m _

section
variable {m : Nat} (hm : 0 < m) (p : Nat)
include hm

theorem le_roundup : p ≤ roundup p m := by
  have hlt : p + m - 1 < roundup p m + m := Nat.lt_div_mul_add hm
  omega

theorem roundup_lt : roundup p m < p + m := by
  have hle : roundup p m ≤ p + m - 1 := Nat.div_mul_le_self _ _
  omega

/-- No multiple of `m` but `p` itself lies from `p` to below `p + m`. -/
theorem roundup_eq_self {p : Nat} (h : m ∣ p) : roundup p m = p := by
  have hle := le_roundup hm p
  have hlt := roundup_lt hm p
  have hskip : roundup p m - p = 0 := Nat.eq_zero_of_dvd_of_lt (Nat.dvd_sub (dvd_roundup p m) h) (by omega)
  omega

end

/-- Settles O28: the result is the one multiple of the boundary from `p` to below `p + 4 · 2 ^ k`. -/
theorem roundupIsTheNextBoundary : Obligations.RoundupIsTheNextBoundary := by
  intro p k a
  have ha : 0 < a := by positivity
  refine ⟨rfl, ?mask, fun h => roundup_eq_self ha (Nat.dvd_of_mod_eq_zero h), fun h4 => ?skip⟩
  case mask =>
    have hpow : a = 2 ^ (k + 2) := by rw [Nat.pow_add, Nat.mul_comm]
    rw [hpow, ldiff_two_pow_sub_one, roundup]
  case skip =>
    have hle := le_roundup ha p
    have hdvd : 4 ∣ roundup p a := (Nat.dvd_mul_right 4 _).trans (dvd_roundup p a)
    have hlt : roundup p a < p + 4 * 2 ^ k := roundup_lt ha p
    omega

/-! ### The ranges of each conversion (R197, R157) -/

/-- The ranges read and written when a command accesses `n` samples of each plane used, from the bases moved by `up`. -/
def State.accessRanges (s : State) (up : Nat → Nat) (n : Nat) : List Region × List Region :=
  ([⟨up (s.base .r), 4 * n⟩, ⟨up (s.base .g), 4 * n⟩, ⟨up (s.base .b), 4 * n⟩],
    ⟨up s.eff0, 4 * n⟩ :: (if s.count = 1 then [] else [⟨up s.eff1, 4 * n⟩, ⟨up s.eff2, 4 * n⟩]))

theorem State.gray_iff (s : State) : s.gray = true ↔ s.count = 1 := beq_iff_eq

theorem scalarPlan_samples (s : State) : (scalarPlan s).samples = s.len := by
  simp [Plan.samples, scalarPlan]

/-- The chunks and the scalar tail together are the whole view. -/
theorem naturalPlan_samples_tail (s : State) (w : Nat) (f : Bool) : (naturalPlan s w f true).samples = s.len :=
  Nat.add_sub_cancel' (Nat.div_mul_le_self s.len w)

theorem naturalPlan_samples (s : State) (w : Nat) (f : Bool) : (naturalPlan s w f false).samples = s.len / w * w := rfl

theorem alignedPlan_samples (s : State) (w : Nat) (f : Bool) : (alignedPlan s w f).samples = s.len / w * w := rfl

/-- A plan whose access bases are the view's bases moved by `up` accesses the ranges from there. -/
theorem Plan.regions_eq_accessRanges {s : State} {p : Plan} (up : Nat → Nat) (hgray : p.gray = s.gray)
    (hbases : [p.aR, p.aG, p.aB, p.a0, p.a1, p.a2] =
      [s.base .r, s.base .g, s.base .b, s.eff0, s.eff1, s.eff2].map up) :
    (p.readRegions, p.writeRegions) = s.accessRanges up p.samples := by
  simp only [List.map_cons, List.map_nil, List.cons.injEq, and_true] at hbases
  obtain ⟨hR, hG, hB, h0, h1, h2⟩ := hbases
  simp only [Plan.readRegions, Plan.writeRegions, State.accessRanges, hgray, State.gray_iff, hR, hG, hB, h0, h1, h2]

theorem scalarPlan_regions (s : State) :
    ((scalarPlan s).readRegions, (scalarPlan s).writeRegions) = s.accessRanges id (scalarPlan s).samples :=
  Plan.regions_eq_accessRanges id rfl (by simp only [scalarPlan, List.map_id])

theorem naturalPlan_regions (s : State) (w : Nat) (f t : Bool) :
    ((naturalPlan s w f t).readRegions, (naturalPlan s w f t).writeRegions) =
      s.accessRanges id (naturalPlan s w f t).samples :=
  Plan.regions_eq_accessRanges id rfl (by simp only [naturalPlan, List.map_id])

theorem alignedPlan_regions (s : State) (w : Nat) (f : Bool) :
    ((alignedPlan s w f).readRegions, (alignedPlan s w f).writeRegions) =
      s.accessRanges (roundup · (4 * w)) (alignedPlan s w f).samples :=
  Plan.regions_eq_accessRanges _ rfl (by simp only [alignedPlan, List.map_cons, List.map_nil])

/-- Settles O27: each command latches the scalar, a natural or an aligned plan, whose ranges are known. -/
theorem conversionsAccessTheStatedRanges : Obligations.ConversionsAccessTheStatedRanges := by
  intro s ranges wn ww next i p h
  cases i <;> simp only [planOf, Option.some.injEq, reduceCtorEq] at h <;> subst h
  case cvtS => rw [scalarPlan_regions, scalarPlan_samples]; rfl
  case cvtNn | cvtWn => rw [naturalPlan_regions, naturalPlan_samples]; rfl
  case cvtNnT | cvtWnT => rw [naturalPlan_regions, naturalPlan_samples_tail]; rfl
  case cvtNa | cvtWa => rw [alignedPlan_regions, alignedPlan_samples]; rfl

end Sys2Proof.Machine
end

section
/-! The checks of a command (R222 to R227): the checks of a conversion as equations, and the errors that end a command before
it makes a request. -/

namespace Sys2Proof.Machine

/-! ### The checks of a conversion (R222 to R224) -/

theorem State.validate_badView {s : State} (p : Plan) (h : s.count < 1 ∨ 4 < s.count ∨ s.len = 0 ∨ s.count = 2) :
    s.validate p = some (.badView, 0) := by
  have hbad : (s.badView || s.count == 2) = true := by
    rw [Bool.or_eq_true, s.badView_iff, beq_iff_eq]
    omega
  rw [State.validate, if_pos hbad]

/-- A valid view's checks, in the order of R226. -/
theorem State.validate_of_view {s : State} (p : Plan) (hn : s.count = 1 ∨ s.count = 3 ∨ s.count = 4) (hl : s.len ≠ 0) :
    s.validate p =
      if s.rgbLen.toNat < s.len then some (.badLen, 0)
      else (s.firstMisaligned.map (.misaligned, ·)).or ((s.firstOutOfRange p).map (.addrRange, ·)) := by
  have hview : ¬ (s.badView || s.count == 2) = true := by
    rw [Bool.or_eq_true, s.badView_iff, beq_iff_eq]
    omega
  rw [State.validate, if_neg hview]
  cases s.firstMisaligned <;> cases s.firstOutOfRange p <;> rfl

theorem State.clearedForIssue_sameDescriptors (s : State) : s.sameDescriptors s.clearedForIssue :=
  ⟨rfl, rfl, rfl, rfl, rfl, rfl⟩

@[simp] theorem State.clearedForIssue_validate (s : State) (p : Plan) : s.clearedForIssue.validate p = s.validate p :=
  State.validate_congr s.clearedForIssue_sameDescriptors p

theorem exec_conversion_error {s : State} {i : Instr} {p : Plan} {c : Ecode} {a : Nat} (hp : planOf i s = some p)
    (hidle : s.phase = .idle) (h : s.validate p = some (c, a)) : exec i s = .next (s.endedWith c a) := by
  rw [exec_convert hp, State.convert_error (State.busy_of_idle hidle) i ((s.clearedForIssue_validate p).trans h),
    State.raiseError_clearedForIssue hidle]

/-- An error that the checks give whatever plan is latched is the error of every conversion. -/
theorem exec_conversion_error_of_forall {s : State} {i : Instr} {c : Ecode} {a : Nat} (hi : i ≠ .slice)
    (hidle : s.phase = .idle) (h : ∀ p, s.validate p = some (c, a)) : exec i s = .next (s.endedWith c a) := by
  obtain ⟨p, hp⟩ := Option.ne_none_iff_exists'.1 (mt (planOf_none (s := s)).1 hi)
  exact exec_conversion_error hp hidle (h p)

/-! ### The first bad plane (R224) -/

theorem State.usedBases_eq (s : State) :
    s.usedBases = [s.base .r, s.base .g, s.base .b, s.eff0] ++ (if s.count = 1 then [] else [s.eff1, s.eff2]) := by
  simp only [State.usedBases, State.gray_iff]

theorem accessBases_of_planOf {i : Instr} {s : State} {p : Plan} (h : planOf i s = some p) :
    p.accessBases = [p.aR, p.aG, p.aB, p.a0] ++ (if s.count = 1 then [] else [p.a1, p.a2]) := by
  simp only [Plan.accessBases, planOf_gray h, State.gray_iff]

theorem State.firstMisaligned_eq_some {s : State} {pre post : List Nat} {b : Nat} (hsplit : s.usedBases = pre ++ b :: post)
    (hpre : ∀ x ∈ pre, x % 4 = 0) (hb : b % 4 ≠ 0) : s.firstMisaligned = some b :=
  List.find?_eq_some_iff_append.2 ⟨by simpa using hb, pre, post, hsplit, by simpa using hpre⟩

theorem State.firstMisaligned_eq_none {s : State} (h : ∀ x ∈ s.usedBases, x % 4 = 0) : s.firstMisaligned = none := by
  simpa [State.firstMisaligned] using h

/-- The plane is found by its access base and reported by its unrounded one. -/
theorem State.firstOutOfRange_eq_some {s : State} {p : Plan} {pre post : List (Nat × Nat)} {b a : Nat}
    (hn : p.samples ≠ 0) (hsplit : s.usedBases.zip p.accessBases = pre ++ (b, a) :: post)
    (hpre : ∀ x ∈ pre, x.2 + 4 * p.samples ≤ addrSpace s.params) (ha : addrSpace s.params < a + 4 * p.samples) :
    s.firstOutOfRange p = some b := by
  refine Option.map_eq_some_iff.2 ⟨(b, a), List.find?_eq_some_iff_append.2 ⟨?found, pre, post, hsplit, ?before⟩, rfl⟩
  case found => simp [hn, ha]
  case before => simpa [hn] using hpre

/-! ### R222 to R224 -/

/-- Settles O23: a word that is no command never reaches `exec`, and both kinds of command check the view first. -/
theorem badViewIsReported : Obligations.BadViewIsReported := by
  refine fun s hidle => ⟨fun w hw => ?noCommand, fun i hview => ?badView, fun i hi hn => ?twoSpans⟩
  case noCommand =>
    exact State.commandWrite_illegal hidle fun i hd => hw (encode_of_decode hd ▸ encode_mem_words i)
  case badView =>
    by_cases hi : i = .slice
    · exact hi ▸ exec_slice_error hidle (State.validateSlice_badView hview)
    · exact exec_conversion_error_of_forall hi hidle fun p => State.validate_badView p (by omega)
  case twoSpans => exact exec_conversion_error_of_forall hi hidle fun p => State.validate_badView p (by omega)

/-- Settles O24: with a valid view the lengths are the next check of either kind of command. -/
theorem badLengthsAreReported : Obligations.BadLengthsAreReported := by
  refine fun s hidle hl => ⟨fun i hi hn hrgb => ?conversion, fun hn hn4 hrange => ?slice⟩
  case conversion =>
    exact exec_conversion_error_of_forall hi hidle fun p => by rw [State.validate_of_view p hn hl, if_pos hrgb]
  case slice =>
    exact exec_slice_error hidle (by rw [State.validateSlice_of_view hn hn4 hl, if_pos hrange])

/-- Settles O25: with a valid view and lengths the checks are the two searches of R224, the alignment one first. -/
theorem firstBadPlaneIsReported : Obligations.FirstBadPlaneIsReported := by
  intro s i p hp hidle hn hl hrgb
  simp only [← s.usedBases_eq, ← accessBases_of_planOf hp]
  have hchecks := State.validate_of_view p hn hl
  rw [if_neg (Nat.not_lt.2 hrgb)] at hchecks
  refine ⟨fun pre b post hsplit hpre hb => ?misaligned, fun haligned hsamples pre b a post hsplit hpre ha => ?addrRange⟩
  case misaligned =>
    have hfirst := State.firstMisaligned_eq_some hsplit hpre hb
    exact exec_conversion_error hp hidle (by rw [hchecks, hfirst]; rfl)
  case addrRange =>
    have hfits : ∀ x ∈ pre, x.2 + 4 * p.samples ≤ addrSpace s.params := fun x hx => by
      have := hpre x hx
      omega
    have hfirst := State.firstOutOfRange_eq_some hsamples hsplit hfits (by omega)
    exact exec_conversion_error hp hidle (by rw [hchecks, State.firstMisaligned_eq_none haligned, hfirst]; rfl)

/-! ### What an error leaves unchanged (R227) -/

/-- Any error that STATUS shows is BUS_ERROR. -/
def State.OnlyBusError (s : State) : Prop := s.status.err = true → s.status.ecode = .busError

/-- A command that runs can fail only by a request's answer (R229). -/
theorem State.OnlyBusError.engineStep {s : State} (h : s.OnlyBusError) : s.engineStep.OnlyBusError := by
  rcases s.engineStep_cases with ⟨-, he⟩ | ⟨r, -, ⟨-, he⟩ | ⟨-, -, he⟩ | ⟨-, -, he⟩ | ⟨-, -, he⟩⟩ <;> rw [he]
  · exact h
  · exact h
  · rcases s.perform_cases r with ⟨r', hr, -⟩ | ⟨f, r', n, hr, -⟩ <;> rw [hr] <;> exact h
  · exact fun _ => rfl
  · exact h

/-- Settles O26: SLICE that passes its checks shows no error, and a conversion that passes them shows only BUS_ERROR. -/
theorem earlyErrorsTouchNothingElse : Obligations.EarlyErrorsTouchNothingElse := by
  intro s t w hidle hw herr hcode
  have hbusy := State.busy_of_idle hidle
  rcases State.commandWrite_next hw with ⟨hrun, -⟩ | ⟨-, c, a, -, -, rfl⟩ | ⟨-, -, rfl⟩ | ⟨-, i, p, -, -, hresume⟩
  · rw [hbusy] at hrun
    cases hrun
  · rw [State.raiseError_clearedForIssue hidle]
    rfl
  · cases herr
  · have hstart : (s.clearedForIssue.start i p).OnlyBusError := fun h => by cases h
    exact absurd (State.resume_keeps (fun _ h => h.engineStep) hstart hresume herr) hcode

end Sys2Proof.Machine
end

section
/-! Reset during a command (R261): what the pin does, and which bytes the abandoned command leaves as any value. -/

namespace Sys2Proof.Machine

/-! ### The regions that hold any value -/

theorem regionsHold_iff (gs : List Region) (a : Nat) : regionsHold gs a = true ↔ ∃ g ∈ gs, g.holds a = true :=
  List.any_eq_true

theorem Region.dropBytes_zero (g : Region) : g.dropBytes 0 = g := rfl

theorem Region.holds_of_dropBytes {g : Region} {n a : Nat} (h : (g.dropBytes n).holds a = true) : g.holds a = true := by
  rw [Region.holds_iff] at h ⊢
  simp only [Region.dropBytes] at h
  omega

theorem Region.holds_of_inter {g f : Region} {a : Nat} (h : (g.inter f).holds a = true) : g.holds a = true := by
  rw [Region.holds_iff] at h ⊢
  simp only [Region.inter] at h
  omega

/-- Wherever a command stops, only its destination bytes are any value. -/
theorem Run.writes_of_anyRegions {r : Run} {pf : Platform} {u a : Nat} (h : regionsHold (r.anyRegions pf u) a = true) :
    regionsHold r.plan.writeRegions a = true := by
  unfold Run.anyRegions at h
  split at h
  · exact h
  · simp only [regionsHold_iff, List.mem_append, List.mem_map, List.mem_flatMap] at h ⊢
    obtain ⟨-, ⟨g, hg, rfl⟩ | ⟨g, hg, f, -, rfl⟩, ha⟩ := h
    · exact ⟨g, hg, Region.holds_of_dropBytes ha⟩
    · exact ⟨g, hg, Region.holds_of_inter ha⟩

/-- A command stopped before its first unit leaves exactly its destination bytes as any value, since no unit is behind it. -/
theorem Run.regionsHold_anyRegions_zero (r : Run) (pf : Platform) (a : Nat) :
    regionsHold (r.anyRegions pf 0) a = regionsHold r.plan.writeRegions a := by
  refine Bool.eq_iff_iff.2 ⟨Run.writes_of_anyRegions, fun h => ?_⟩
  unfold Run.anyRegions
  split
  · exact h
  · obtain ⟨g, hg, ha⟩ := (regionsHold_iff _ _).1 h
    refine (regionsHold_iff _ _).2 ⟨g, List.mem_append_left _ (List.mem_map.2 ⟨g, hg, ?_⟩), ha⟩
    rw [Plan.unitStart_zero, Nat.mul_zero, Region.dropBytes_zero]

/-! ### The pin -/

/-- The pin sampled 0 is never held up, also while a reset lasts. -/
theorem step_resetPin {s : State} {p : Progress} {is : List Input} (hi : s.inputs = ⟨.resetPin false, p⟩ :: is) :
    step s = .next (State.resetNow { s with inputs := is, progress := p }) := by
  have hnext : s.nextInput = some (⟨.resetPin false, p⟩, is) := by
    unfold State.nextInput
    rw [hi]
    cases s.rstN <;> rfl
  simp only [step, State.machineStep, hnext, State.handle]

theorem State.resetNow_mem_of_run {s : State} {r : Run} (h : s.phase = .run r) :
    s.resetNow.mem = s.mem.anyAt s.byteDraws (r.anyRegions s.platform 0) := by
  simp [State.resetNow, State.abandon, h]

/-- Settles O19: a reset draws the command's destination bytes, all of them because it counts from unit 0, and no others. -/
theorem resetDuringACommandLeavesAnyValue : Obligations.ResetDuringACommandLeavesAnyValue := by
  intro s r p is hinputs hrun hwf
  have hmem := State.resetNow_mem_of_run (s := { s with inputs := is, progress := p }) hrun
  refine ⟨_, step_resetPin hinputs, fun a ha => ?_, fun a ha => ?_⟩ <;> rw [hmem]
  · exact Memory.read_anyAt_inside hwf _ ((r.regionsHold_anyRegions_zero _ a).trans ha)
  · exact Memory.read_anyAt_outside _ _ ((r.regionsHold_anyRegions_zero _ a).trans ha)

end Sys2Proof.Machine
end

section
/-! The invariants of the machine (R33, R45, R70, R78, R174): what a predicate needs to survive every step, said once from
the inversion of a step, and five predicates that have it. -/

namespace Sys2Proof.Machine

/-! ### What keeps a predicate through every step -/

/-- The predicate survives everything that a step is made of. -/
structure KeptByStep (P : State → Prop) : Prop where
  outside : ∀ {s u : State}, s.sameButOutside u → P s → P u
  engineStep : ∀ {s : State}, P s → P s.engineStep
  writeReg : ∀ {s : State} (r : Reg) (v : Word), P s → P (s.writeReg r v)
  setOvr : ∀ {s : State}, P s → P s.setOvr
  failed : ∀ {s : State} {c : Ecode} (a : Nat), s.phase = .idle → c ≠ .none → P s → P (s.clearedForIssue.raiseError c a)
  sliced : ∀ {s : State}, s.phase = .idle → P s → P s.clearedForIssue.sliced
  started : ∀ {s : State} {i : Instr} {p : Plan}, s.phase = .idle → planOf i s = some p →
    s.clearedForIssue.validate p = none → P s → P (s.clearedForIssue.start i p)
  raced : ∀ {s : State}, P s → P { s with phase := s.phase.markRaced }
  drawn : ∀ {s : State} (n : Nat), P s → P { s with byteDraws := n }
  written : ∀ {s : State} {a : Nat} {bs : List Byte}, a + bs.length ≤ addrSpace s.params → P s →
    P { s with mem := s.mem.writeBytes a bs }
  anyIn : ∀ {s : State} {gs : List Region}, (∀ g ∈ gs, g.base + g.size ≤ addrSpace s.params) → P s → P (s.anyIn gs)
  reset : ∀ {s : State}, P s → P s.resetNow

theorem State.sameButOutside_params {s u : State} (h : s.sameButOutside u) : u.params = s.params :=
  (State.sameButOutside_descriptors h).params

section
variable {P : State → Prop} (hP : KeptByStep P) {s t : State}
include hP

theorem KeptByStep.resume (h : P s) (hr : s.resume = .next t) : P t :=
  State.resume_keeps (P := P) (fun _ => hP.engineStep) h hr

theorem KeptByStep.commandWrite {w : Word} (h : P s) (hw : s.commandWrite w = .next t) : P t := by
  rcases State.commandWrite_next hw with ⟨-, hr⟩ | ⟨hb, c, a, hc, -, rfl⟩ | ⟨hb, -, rfl⟩ | ⟨hb, i, p, hp, hv, hr⟩
  · exact hP.resume (hP.setOvr h) hr
  · exact hP.failed a (State.idle_of_not_busy hb) hc h
  · exact hP.sliced (State.idle_of_not_busy hb) h
  · exact hP.resume (hP.started (State.idle_of_not_busy hb) hp hv h) hr

/-- What survives everything that a step is made of survives every step. -/
theorem KeptByStep.step (h : P s) (hs : step s = .next t) : P t := by
  obtain ⟨u, hu, hcase⟩ := step_next hs
  have hparams := State.sameButOutside_params hu
  have h := hP.outside hu h
  rcases hcase with hr | ⟨r, v, hr⟩ | ⟨w, hw⟩ | ⟨n, hr⟩ | ⟨a, bs, ha, hr⟩ | ⟨gs, hg, hr⟩ | rfl
  · exact hP.resume h hr
  · exact hP.resume (hP.writeReg r v h) hr
  · exact hP.commandWrite h hw
  · exact hP.resume (hP.drawn (u.byteDraws + n) (hP.raced h)) hr
  · refine hP.resume ?_ hr
    have hwritten := hP.written (hparams ▸ ha) h
    split
    · exact hP.raced hwritten
    · exact hwritten
  · exact hP.resume (hP.anyIn (hparams ▸ hg) h) hr
  · exact hP.reset h

end

/-! ### What a register write can change -/

/-- Two states agree on everything but the registers that the port can write. -/
def State.sameButRegisters (s t : State) : Prop :=
  t = { s with
    precision := t.precision
    status := t.status
    viewCount := t.viewCount
    viewLen := t.viewLen
    bases := t.bases
    rgbLen := t.rgbLen
    sliceStart := t.sliceStart
    sliceLen := t.sliceLen }

theorem State.storeReg_same (s : State) (r : Reg) (v : Word) : s.sameButRegisters (s.storeReg r v) := by
  cases r
  case baseHi p =>
    show s.sameButRegisters (s.writeHi p v)
    unfold State.writeHi
    split <;> rfl
  all_goals rfl

/-- While a command runs, a write to an RW register sets OVR (R40). -/
theorem State.writeReg_busy_of_isRW {s : State} {r : Reg} (v : Word) (hb : s.busy = true) (h : r.isRW = true) :
    s.writeReg r v = s.setOvr := if_pos (by simp [hb, h])

theorem State.writeReg_of_not_busy {s : State} {r : Reg} (v : Word) (hb : s.busy = false) :
    s.writeReg r v = s.storeReg r v := if_neg (by simp [hb])

theorem State.writeReg_same (s : State) (r : Reg) (v : Word) : s.sameButRegisters (s.writeReg r v) := by
  unfold State.writeReg
  split
  · rfl
  · exact s.storeReg_same r v

theorem State.sameButRegisters.mem {s t : State} (h : s.sameButRegisters t) : t.mem = s.mem := by rw [h]
theorem State.sameButRegisters.params {s t : State} (h : s.sameButRegisters t) : t.params = s.params := by rw [h]
theorem State.sameButRegisters.phase {s t : State} (h : s.sameButRegisters t) : t.phase = s.phase := by rw [h]

theorem State.sameButOutside_mem {s u : State} (h : s.sameButOutside u) : u.mem = s.mem := by rw [h]
theorem State.sameButOutside_phase {s u : State} (h : s.sameButOutside u) : u.phase = s.phase := by rw [h]

/-! ### What an action does to memory -/

/-- Memory changes by a write of results to the request's bytes, or by a draw of destination bytes at an end. -/
theorem State.engineStep_mem (s : State) :
    s.engineStep.mem = s.mem ∨
    ∃ r, s.phase = .run r ∧
      ((∃ f, r.unit < r.plan.units ∧ answer s.params s.platform r.request = .ok ∧ r.stage.kind = .write ∧
          s.engineStep.mem = s.mem.writeLanes r.request.addr ((r.results s.nanDraws).map f)) ∨
        ∃ u, (u = r.unit ∨ u = r.plan.units) ∧
          s.engineStep.mem = s.mem.anyAt s.byteDraws (r.anyRegions s.platform u)) := by
  rcases s.engineStep_cases with ⟨-, he⟩ | ⟨r, hrun, ⟨-, he⟩ | ⟨hu, hok, he⟩ | ⟨-, -, he⟩ | ⟨-, -, he⟩⟩ <;> rw [he]
  · exact .inl rfl
  · exact .inr ⟨r, hrun, .inr ⟨_, .inr rfl, rfl⟩⟩
  · rcases s.perform_cases r with ⟨r', hr, -⟩ | ⟨f, r', n, hr, hk, -⟩ <;> rw [hr]
    · exact .inl rfl
    · exact .inr ⟨r, hrun, .inl ⟨f, hu, hok, hk, rfl⟩⟩
  · exact .inr ⟨r, hrun, .inr ⟨_, .inl rfl, rfl⟩⟩
  · exact .inl rfl

theorem State.engineStep_params (s : State) : s.engineStep.params = s.params :=
  (State.sameButCommand_descriptors s.engineStep_same).params

/-- Reset draws the destination bytes of the command it abandons. -/
theorem State.resetNow_mem (s : State) :
    s.resetNow.mem = s.mem ∨
      ∃ r, s.phase = .run r ∧ s.resetNow.mem = s.mem.anyAt s.byteDraws (r.anyRegions s.platform 0) := by
  cases hp : s.phase with
  | idle => exact .inl (by simp [State.resetNow, State.abandon, hp])
  | run r => exact .inr ⟨r, rfl, State.resetNow_mem_of_run hp⟩

/-! ### Parameters (R174) and canonical memory (R70) -/

theorem paramsKept (p : Params) : KeptByStep (fun s => s.params = p) where
  outside hu h := (State.sameButOutside_params hu).trans h
  engineStep h := (State.engineStep_params _).trans h
  writeReg r v h := (State.writeReg_same _ r v).params.trans h
  setOvr h := h
  failed _ _ _ h := h
  sliced _ h := h
  started _ _ _ h := h
  raced h := h
  drawn _ h := h
  written _ h := h
  anyIn _ h := h
  reset h := h

/-- Settles O49: nothing that a step is made of touches the parameters. -/
theorem stepKeepsTheParameters : Obligations.StepKeepsTheParameters :=
  fun s _ hs => (paramsKept s.params).step rfl hs

theorem canonicalMemoryKept : KeptByStep (fun s => s.mem.wf = true) where
  outside hu h := by rwa [State.sameButOutside_mem hu]
  engineStep {s} h := by
    rcases s.engineStep_mem with he | ⟨r, -, ⟨f, -, -, -, he⟩ | ⟨u, -, he⟩⟩ <;> rw [he]
    · exact h
    · exact Memory.writeLanes_wf h _ _
    · exact Memory.anyAt_wf h _ _
  writeReg r v h := by rwa [(State.writeReg_same _ r v).mem]
  setOvr h := h
  failed _ _ _ h := h
  sliced _ h := h
  started _ _ _ h := h
  raced h := h
  drawn _ h := h
  written _ h := Memory.writeBytes_wf h _ _
  anyIn _ h := Memory.anyAt_wf h _ _
  reset {s} h := by
    rcases s.resetNow_mem with he | ⟨r, -, he⟩ <;> rw [he]
    · exact h
    · exact Memory.anyAt_wf h _ _

/-- Settles O45: every write and every draw of bytes keeps the canonical form. -/
theorem stepKeepsMemoryCanonical : Obligations.StepKeepsMemoryCanonical :=
  fun _ _ h hs => canonicalMemoryKept.step h hs

/-! ### STATUS (R45, R46) -/

theorem State.statusOk.congr {s t : State} (h : s.statusOk) (hs : t.status = s.status) (hb : t.busy = s.busy) :
    t.statusOk := by
  unfold State.statusOk at *
  rwa [hs, hb]

theorem State.busy_congr {s t : State} (h : t.phase = s.phase) : t.busy = s.busy := by
  unfold State.busy
  rw [h]

theorem State.statusOk_of_idle {s : State} (hp : s.phase = .idle) (h1 : ¬ (s.status.done = true ∧ s.status.err = true))
    (h2 : s.status.err = false ↔ s.status.ecode = .none) : s.statusOk :=
  ⟨h1, h2, fun hb => by rw [State.busy_of_idle hp] at hb; cases hb⟩

/-- The engine leaves STATUS alone while it runs, and sets DONE or ERR when it ends a command, which had neither. -/
theorem State.engineStep_status (s : State) :
    (s.engineStep.status = s.status ∧ s.engineStep.busy = s.busy) ∨
    (s.busy = true ∧ s.engineStep.phase = .idle ∧
      (s.engineStep.status = s.status.succeeded ∨ s.engineStep.status = s.status.failed .busError)) := by
  rcases s.engineStep_cases with ⟨-, he⟩ | ⟨r, hrun, ⟨-, he⟩ | ⟨-, -, he⟩ | ⟨-, -, he⟩ | ⟨-, -, he⟩⟩ <;> rw [he]
  · exact .inl ⟨rfl, rfl⟩
  · exact .inr ⟨State.busy_of_run hrun, rfl, .inl rfl⟩
  · rcases s.perform_cases r with ⟨r', hr, -⟩ | ⟨f, r', n, hr, -⟩ <;> rw [hr] <;>
      exact .inl ⟨rfl, (State.busy_of_run rfl).trans (State.busy_of_run hrun).symm⟩
  · exact .inr ⟨State.busy_of_run hrun, rfl, .inr rfl⟩
  · exact .inl ⟨rfl, rfl⟩

theorem State.statusOk.engineStep {s : State} (h : s.statusOk) : s.engineStep.statusOk := by
  rcases s.engineStep_status with ⟨hs, hb⟩ | ⟨hbusy, hidle, hs⟩
  · exact h.congr hs hb
  · obtain ⟨-, hcode, hclear⟩ := h
    obtain ⟨hdone, herr⟩ := hclear hbusy
    rcases hs with hs | hs <;> refine State.statusOk_of_idle hidle ?_ ?_ <;> rw [hs]
    · simp [herr]
    · simpa using hcode
    · simp [hdone]
    · simp

theorem State.statusOk.clearedBy {s : State} (h : s.statusOk) (v : Word) :
    State.statusOk { s with status := s.status.clearedBy v } := by
  obtain ⟨hboth, hcode, hclear⟩ := h
  refine ⟨fun ⟨hd, he⟩ => hboth ⟨(Bool.and_eq_true_iff.1 hd).1, (Bool.and_eq_true_iff.1 he).1⟩, ?_, fun hb => ?_⟩
  · show (s.status.err && !v.getLsbD 2) = false ↔ (if v.getLsbD 2 then .none else s.status.ecode) = .none
    cases v.getLsbD 2 <;> simp [hcode]
  · obtain ⟨hdone, herr⟩ := hclear hb
    simp [Status.clearedBy, hdone, herr]

theorem State.storeReg_status_of_ne (s : State) {r : Reg} (v : Word) (h : r ≠ .status) :
    (s.storeReg r v).status = s.status := by
  cases r
  case status => exact absurd rfl h
  case baseHi p =>
    show (s.writeHi p v).status = s.status
    unfold State.writeHi
    split <;> rfl
  all_goals rfl

theorem State.statusOk.setOvr {s : State} (h : s.statusOk) : s.setOvr.statusOk := h

theorem State.statusOk.writeReg {s : State} (h : s.statusOk) (r : Reg) (v : Word) : (s.writeReg r v).statusOk := by
  by_cases hr : r = .status
  · rw [hr, State.writeReg_status]
    exact h.clearedBy v
  · unfold State.writeReg
    split
    · exact h.setOvr
    · exact h.congr (s.storeReg_status_of_ne v hr) (State.busy_congr (s.storeReg_same r v).phase)

theorem State.busy_markRaced (s : State) : State.busy { s with phase := s.phase.markRaced } = s.busy := by
  cases h : s.phase <;> simp [State.busy, Phase.markRaced, h]

theorem consistentStatusKept : KeptByStep State.statusOk where
  outside hu h := h.congr (by rw [hu]) (State.busy_congr (State.sameButOutside_phase hu))
  engineStep h := h.engineStep
  writeReg r v h := h.writeReg r v
  setOvr h := h.setOvr
  failed _ _ hc _ := State.statusOk_of_idle rfl (by simp) (by simpa using hc)
  sliced hidle _ := State.statusOk_of_idle hidle (by simp) (by simp)
  started _ _ _ _ := ⟨by simp, by simp, fun _ => ⟨rfl, rfl⟩⟩
  raced {s} h := h.congr rfl s.busy_markRaced
  drawn _ h := h
  written _ h := h
  anyIn _ h := h
  reset _ := State.statusOk_of_idle rfl (by simp [State.resetNow, State.resetOf]) (by simp [State.resetNow, State.resetOf])

/-- Settles O46: a command starts with DONE and ERR clear, ends with one of them, and a write only clears them. -/
theorem stepKeepsStatusConsistent : Obligations.StepKeepsStatusConsistent :=
  fun _ _ h hs => consistentStatusKept.step h hs

/-! ### The latched values of a running command (R33, R266) -/

theorem State.runOk_of_idle {s : State} (h : s.phase = .idle) : s.runOk := fun r hr => by
  rw [h] at hr
  cases hr

theorem State.runOk.congr {s t : State} (h : s.runOk) (hd : s.sameDescriptors t) (hp : t.phase = s.phase) : t.runOk :=
  fun r hr => by
    rw [planOf_congr hd, State.validate_congr hd]
    exact h r (hp ▸ hr)

/-- The requests that a command has yet to make, at most. -/
def Run.requestsLeft (r : Run) : Nat := 6 * (r.plan.units - r.unit) - r.stage.ctorIdx

/-- A performed request leads to the command's next request, with the samples that its stage needs. -/
theorem State.perform_run (s : State) {r : Run} (hu : r.unit < r.plan.units) :
    ∃ r', (s.perform r).phase = .run r' ∧ r'.plan = r.plan ∧ r'.cmd = r.cmd ∧ r'.raced = r.raced ∧ r.unit ≤ r'.unit ∧
      r'.requestsLeft < r.requestsLeft ∧ (r.readSoFar → r'.readSoFar) := by
  have hunit : r.unit ≤ r.unit := Nat.le_refl _
  have hnext : r.unit ≤ r.nextUnit.unit := Nat.le_succ _
  have hleft : r.nextUnit.requestsLeft < r.requestsLeft := by
    have hidx : r.stage.ctorIdx < 6 := by cases r.stage <;> decide
    simp only [Run.requestsLeft, Run.nextUnit]
    omega
  have hfresh : r.nextUnit.readSoFar := ⟨hu, rfl, rfl, rfl⟩
  have hwithin : ∀ k, k < 5 → 6 * (r.plan.units - r.unit) - (k + 1) < 6 * (r.plan.units - r.unit) - k := fun k hk => by omega
  unfold State.perform Run.readSoFar
  unfold Run.requestsLeft at hleft ⊢
  cases hs : r.stage <;> simp only [hs] at hleft ⊢
  case readR =>
    exact ⟨_, rfl, rfl, rfl, rfl, hunit, hwithin 0 (by decide), fun ⟨_, _, hg, hb⟩ =>
      ⟨hu, Memory.readLanes_length _ _ _, hg, hb⟩⟩
  case readG =>
    exact ⟨_, rfl, rfl, rfl, rfl, hunit, hwithin 1 (by decide), fun ⟨_, hr, _, hb⟩ =>
      ⟨hu, hr, Memory.readLanes_length _ _ _, hb⟩⟩
  case readB =>
    exact ⟨_, rfl, rfl, rfl, rfl, hunit, hwithin 2 (by decide), fun ⟨_, hr, hg, _⟩ =>
      ⟨hu, hr, hg, Memory.readLanes_length _ _ _⟩⟩
  case writeY =>
    split
    case isTrue => exact ⟨_, rfl, rfl, rfl, rfl, hnext, hleft, fun _ => hfresh⟩
    case isFalse hgray =>
      exact ⟨_, rfl, rfl, rfl, rfl, hunit, hwithin 3 (by decide), fun h => ⟨Bool.not_eq_true _ ▸ hgray, h⟩⟩
  case writeCb => exact ⟨_, rfl, rfl, rfl, rfl, hunit, hwithin 4 (by decide), fun h => h⟩
  case writeCr => exact ⟨_, rfl, rfl, rfl, rfl, hnext, hleft, fun _ => hfresh⟩

/-- The same command, further on, in a state with the same descriptors. -/
theorem State.runOk.congr_run {s t : State} {r r' : Run} (h : s.runOk) (hd : s.sameDescriptors t) (hr : s.phase = .run r)
    (ht : t.phase = .run r') (hplan : r'.plan = r.plan) (hcmd : r'.cmd = r.cmd) (hread : r'.readSoFar) : t.runOk :=
  fun q hq => by
    rw [ht] at hq
    cases hq
    obtain ⟨hlatched, hchecks, -⟩ := h r hr
    rw [planOf_congr hd, State.validate_congr hd, hplan, hcmd]
    exact ⟨hlatched, hchecks, hread⟩

theorem State.runOk.engineStep {s : State} (h : s.runOk) : s.engineStep.runOk := by
  have hd := State.sameButCommand_descriptors s.engineStep_same
  rcases s.engineStep_cases with ⟨-, he⟩ | ⟨r, hrun, ⟨-, he⟩ | ⟨hu, -, he⟩ | ⟨-, -, he⟩ | ⟨-, -, he⟩⟩ <;> rw [he] at hd ⊢
  · exact h
  · exact State.runOk_of_idle rfl
  · obtain ⟨-, -, hread⟩ := h r hrun
    obtain ⟨r', hphase, hplan, hcmd, -, -, -, hnext⟩ := s.perform_run hu
    exact h.congr_run hd hrun hphase hplan hcmd (hnext hread)
  · exact State.runOk_of_idle rfl
  · exact h

theorem State.runOk.setOvr {s : State} (h : s.runOk) : s.setOvr.runOk :=
  h.congr ⟨rfl, rfl, rfl, rfl, rfl, rfl⟩ rfl

theorem State.storeReg_sameDescriptors (s : State) {r : Reg} (v : Word) (h : r.isRW = false) :
    s.sameDescriptors (s.storeReg r v) := by
  cases r
  case id | cap | half | cmd | status | faultAddrLo | faultAddrHi => exact ⟨rfl, rfl, rfl, rfl, rfl, rfl⟩
  all_goals cases h

theorem State.runOk.writeReg {s : State} (h : s.runOk) (r : Reg) (v : Word) : (s.writeReg r v).runOk := by
  cases hb : s.busy with
  | false => exact State.runOk_of_idle ((s.writeReg_same r v).phase.trans (State.idle_of_not_busy hb))
  | true =>
    cases hrw : r.isRW with
    | true =>
      rw [State.writeReg_busy_of_isRW v hb hrw]
      exact h.setOvr
    | false =>
      rw [State.writeReg_of_not_isRW s v hrw]
      exact h.congr (s.storeReg_sameDescriptors v hrw) (s.storeReg_same r v).phase

theorem State.runOk.markRaced {s : State} (h : s.runOk) : State.runOk { s with phase := s.phase.markRaced } := by
  cases hp : s.phase with
  | idle => exact State.runOk_of_idle rfl
  | run r =>
    obtain ⟨-, -, hread⟩ := h r hp
    exact h.congr_run ⟨rfl, rfl, rfl, rfl, rfl, rfl⟩ hp rfl rfl rfl hread

/-- A command starts with what its registers say, and has read nothing. -/
theorem State.start_runOk {s : State} {i : Instr} {p : Plan} (hp : planOf i s = some p)
    (hv : s.clearedForIssue.validate p = none) : (s.clearedForIssue.start i p).runOk := fun r hr => by
  cases hr
  have hd : s.clearedForIssue.sameDescriptors (s.clearedForIssue.start i p) := ⟨rfl, rfl, rfl, rfl, rfl, rfl⟩
  rw [planOf_congr hd, planOf_congr s.clearedForIssue_sameDescriptors, State.validate_congr hd]
  exact ⟨hp, hv, Nat.zero_le _, rfl, rfl, rfl⟩

theorem latchedValuesKept : KeptByStep State.runOk where
  outside hu h := h.congr (State.sameButOutside_descriptors hu) (State.sameButOutside_phase hu)
  engineStep h := h.engineStep
  writeReg r v h := h.writeReg r v
  setOvr h := h.setOvr
  failed _ _ _ _ := State.runOk_of_idle rfl
  sliced hidle _ := State.runOk_of_idle hidle
  started _ hp hv _ := State.start_runOk hp hv
  raced h := h.markRaced
  drawn _ h := h.congr ⟨rfl, rfl, rfl, rfl, rfl, rfl⟩ rfl
  written _ h := h.congr ⟨rfl, rfl, rfl, rfl, rfl, rfl⟩ rfl
  anyIn _ h := h.congr ⟨rfl, rfl, rfl, rfl, rfl, rfl⟩ rfl
  reset _ := State.runOk_of_idle rfl

/-- Settles O47: while a command runs no descriptor register changes, and a performed request reads what its stage says. -/
theorem stepKeepsTheLatchedValues : Obligations.StepKeepsTheLatchedValues :=
  fun _ _ h hs => latchedValuesKept.step h hs

/-! ### The address space (R70, R78) -/

/-- The checks passed for every plane that is written. -/
theorem State.writeRegions_fit {s : State} {i : Instr} {p : Plan} (hp : planOf i s = some p) (hv : s.validate p = none) :
    ∀ g ∈ p.writeRegions, g.size = 0 ∨ g.base + g.size ≤ addrSpace s.params := by
  obtain ⟨-, -, -, -, hfit⟩ := (s.validate_none_iff p).1 hv
  rw [planOf_zip hp, ← planOf_gray hp] at hfit
  unfold Plan.writeRegions
  cases hg : p.gray <;> simp_all

/-- Wherever a command stops, the bytes that hold any value lie in the address space. -/
theorem Run.anyRegions_fit {r : Run} {top : Nat} (h : ∀ g ∈ r.plan.writeRegions, g.size = 0 ∨ g.base + g.size ≤ top)
    (pf : Platform) (u : Nat) : ∀ g ∈ r.anyRegions pf u, g.size = 0 ∨ g.base + g.size ≤ top := by
  unfold Run.anyRegions
  split
  · exact h
  · intro g hg
    simp only [List.mem_append, List.mem_map, List.mem_flatMap] at hg
    rcases hg with ⟨w, hw, rfl⟩ | ⟨w, hw, f, -, rfl⟩ <;> have := h w hw
    · simp only [Region.dropBytes]
      omega
    · simp only [Region.inter]
      omega

theorem Run.results_length_of_readSoFar {r : Run} (h : r.readSoFar) (hk : r.stage.kind = .write) (d : Nat) :
    (r.results d).length = r.plan.unitLanes r.unit := by
  unfold Run.readSoFar at h
  cases hs : r.stage <;> simp only [hs] at h hk
  case readR | readG | readB => cases hk
  case writeY =>
    obtain ⟨-, hr, hg, hb⟩ := h
    exact mapLanes_length _ _ _ _ _ _ hr hg hb
  case writeCb | writeCr =>
    obtain ⟨-, -, hr, hg, hb⟩ := h
    exact mapLanes_length _ _ _ _ _ _ hr hg hb

theorem answer_ok_fits {p : Params} {pf : Platform} {q : Request} (h : answer p pf q = .ok) :
    q.addr + q.bytes ≤ addrSpace p := by
  unfold answer at h
  split at h
  · cases h
  · omega

/-- The command holds what its registers say, and memory lists bytes of the address space only. -/
structure State.FitsOk (s : State) : Prop where
  run : s.runOk
  fits : s.mem.fits (addrSpace s.params) = true

theorem State.FitsOk.anyRegions {s : State} {r : Run} (h : s.FitsOk) (hr : s.phase = .run r) (u : Nat) :
    (s.mem.anyAt s.byteDraws (r.anyRegions s.platform u)).fits (addrSpace s.params) = true := by
  obtain ⟨hrun, hfits⟩ := h
  obtain ⟨hplan, hchecks, -⟩ := hrun r hr
  exact Memory.anyAt_fits hfits _ (Run.anyRegions_fit (State.writeRegions_fit hplan hchecks) _ _)

theorem State.FitsOk.engineStep {s : State} (h : s.FitsOk) : s.engineStep.FitsOk := by
  refine ⟨h.run.engineStep, ?_⟩
  rw [State.engineStep_params]
  rcases s.engineStep_mem with he | ⟨r, hr, ⟨f, -, hok, hk, he⟩ | ⟨u, -, he⟩⟩ <;> rw [he]
  · exact h.fits
  · obtain ⟨-, -, hread⟩ := h.run r hr
    refine Memory.writeLanes_fits h.fits ?_
    rw [List.length_map, Run.results_length_of_readSoFar hread hk]
    exact answer_ok_fits hok
  · exact h.anyRegions hr u

theorem fittingMemoryKept : KeptByStep State.FitsOk where
  outside hu h := by
    refine ⟨latchedValuesKept.outside hu h.run, ?_⟩
    rw [State.sameButOutside_mem hu, State.sameButOutside_params hu]
    exact h.fits
  engineStep h := h.engineStep
  writeReg r v h := by
    refine ⟨h.run.writeReg r v, ?_⟩
    rw [(State.writeReg_same _ r v).mem, (State.writeReg_same _ r v).params]
    exact h.fits
  setOvr h := ⟨h.run.setOvr, h.fits⟩
  failed a hidle hc h := ⟨latchedValuesKept.failed a hidle hc h.run, h.fits⟩
  sliced hidle h := ⟨latchedValuesKept.sliced hidle h.run, h.fits⟩
  started hidle hp hv h := ⟨latchedValuesKept.started hidle hp hv h.run, h.fits⟩
  raced h := ⟨h.run.markRaced, h.fits⟩
  drawn n h := ⟨latchedValuesKept.drawn n h.run, h.fits⟩
  written ha h := ⟨latchedValuesKept.written ha h.run, Memory.writeBytes_fits h.fits ha⟩
  anyIn hg h := ⟨latchedValuesKept.anyIn hg h.run, Memory.anyAt_fits h.fits _ fun g hmem => .inr (hg g hmem)⟩
  reset {s} h := by
    refine ⟨State.runOk_of_idle rfl, ?_⟩
    rcases s.resetNow_mem with he | ⟨r, hr, he⟩ <;> rw [he]
    · exact h.fits
    · exact h.anyRegions hr 0

/-- Settles O48: a request answered OK and a range that passed the checks lie in the address space. -/
theorem stepStaysInsideTheAddressSpace : Obligations.StepStaysInsideTheAddressSpace :=
  fun _ _ hrun hfits hs => (fittingMemoryKept.step ⟨hrun, hfits⟩ hs).fits

/-- Settles O50: reset leaves no command, an empty memory, a clear STATUS and the default parameters. -/
theorem resetMeetsTheInvariants : Obligations.ResetMeetsTheInvariants :=
  ⟨rfl, State.statusOk_of_idle rfl (by decide) (by decide), State.runOk_of_idle rfl, rfl, rfl⟩

end Sys2Proof.Machine
end

section
/-! The commands as words (R100, R102) and the registers' offsets (R34). -/

namespace Sys2Proof

theorem decode_encode (i : Instr) : decode (encode i) = .ok i := by cases i <;> rfl

/-- The rows of R102, each word with its command. -/
theorem encode_mem_rows (i : Instr) :
    (encode i, i) ∈ [((0x00000001 : Word), Instr.cvtS), (0x00000002, .cvtNn), (0x00000012, .cvtNnT), (0x00000003, .cvtNa),
      (0x00000004, .cvtWn), (0x00000014, .cvtWnT), (0x00000005, .cvtWa), (0x00000006, .slice)] := by
  cases i <;> decide

/-- Settles O1: a word that decodes is the word of its command, which is a row, and each row's word decodes. -/
theorem decoderTakesExactlyTheEightWords : Obligations.DecoderTakesExactlyTheEightWords := by
  refine fun w i => ⟨fun h => encode_of_decode h ▸ encode_mem_rows i, fun h => ?_⟩
  simp only [List.mem_cons, List.not_mem_nil, or_false, Prod.mk.injEq] at h
  rcases h with ⟨rfl, rfl⟩ | ⟨rfl, rfl⟩ | ⟨rfl, rfl⟩ | ⟨rfl, rfl⟩ | ⟨rfl, rfl⟩ | ⟨rfl, rfl⟩ | ⟨rfl, rfl⟩ | ⟨rfl, rfl⟩ <;>
    rfl

/-- A word of 32 bits is its own table row. -/
theorem ofNat_toNat_mod (w : Word) : BitVec.ofNat 32 (w.toNat % 2 ^ 32) = w := by
  rw [Nat.mod_eq_of_lt w.isLt, BitVec.ofNat_toNat, BitVec.setWidth_eq]

/-- Settles O2: the word's 32 bits are all that the table row holds. -/
theorem encodeThenDecodeGivesTheCommandBack : Obligations.EncodeThenDecodeGivesTheCommandBack := by
  intro i _
  refine ⟨decode_encode i, ?_⟩
  rw [decodeTableWord, if_pos (Nat.le_refl 32), ofNat_toNat_mod, decode_encode]
  rfl

/-- Settles O3: four of the eight rows. -/
theorem writtenOutWordsDecode : Obligations.WrittenOutWordsDecode :=
  ⟨decode_encode .cvtS, decode_encode .cvtNnT, decode_encode .cvtWa, decode_encode .slice⟩

/-- Settles O9: the 27 rows of R34. -/
theorem registersStandAtTheirOffsets : Obligations.RegistersStandAtTheirOffsets := by
  unfold Obligations.RegistersStandAtTheirOffsets
  decide

end Sys2Proof
end

section
/-! Steps on the register port: a command word (R44, R225), writes while a command runs (R40), writes while none does (R37 to
R53), and the reset pin (R260). -/

namespace Sys2Proof.Machine

/-! ### Writes to CMD (R44) -/

theorem State.commandWrite_of_decode (s : State) {w : Word} {i : Instr} (h : decode w = .ok i) :
    s.commandWrite w = exec i s := by
  unfold State.commandWrite
  rw [h]

/-- A write of a command word to CMD runs the command. -/
theorem step_cmdWrite {s : State} {w : Word} {i : Instr} {p : Progress} {is : List Input}
    (hi : s.inputs = ⟨.regWrite Reg.cmd.offset 4 w, p⟩ :: is) (hr : s.rstN = true) (hd : decode w = .ok i) :
    step s = exec i { s with inputs := is, progress := p, response := .ok } := by
  rw [step_regWrite hr hi, if_pos rfl, State.commandWrite_of_decode _ hd]

/-- Settles O5: the word that `withFetchWord` places is the command's own. -/
theorem stepRunsTheDecodedCommand : Obligations.StepRunsTheDecodedCommand := by
  refine ⟨fun s w i p is hi hr hd => step_cmdWrite hi hr hd, fun s i => ?_⟩
  have hd : decode (BitVec.ofNat 32 ((encode i).toNat % 2 ^ 32)) = .ok i := by rw [ofNat_toNat_mod, decode_encode]
  exact step_cmdWrite (s := s.withFetchWord 32 (encode i).toNat) rfl rfl hd

/-! ### Writes while a command runs (R40) -/

/-- The registers of R34 that R40 protects. -/
theorem Reg.isRW_iff (r : Reg) : r.isRW = true ↔
    r ∈ [Reg.cfg, .viewCount, .viewLen, .rgbLen, .sliceStart, .sliceLen] ∨ ∃ pl, r = .baseLo pl ∨ r = .baseHi pl := by
  cases r <;> simp [Reg.isRW]

/-- Settles O6: CMD and the RW registers discard the write; STATUS is neither. -/
theorem writesWhileBusyAreDiscarded : Obligations.WritesWhileBusyAreDiscarded := by
  intro s r reg v p is hi hr hrun
  have hbusy : State.busy { s with inputs := is, progress := p, response := .ok } = true := State.busy_of_run hrun
  rw [step_regWrite hr hi]
  refine ⟨fun hreg => ?_, fun hreg => ?_⟩
  · by_cases hcmd : reg = .cmd
    · rw [if_pos hcmd, State.commandWrite_busy hbusy]
      rfl
    · have hrw : reg.isRW = true := by
        rw [Reg.isRW_iff]
        simpa [hcmd] using hreg
      rw [if_neg hcmd, State.writeReg_busy_of_isRW v hbusy hrw]
      rfl
  · subst hreg
    rw [if_neg (by decide), State.writeReg_status]
    rfl

/-! ### Writes while no command runs -/

/-- The word that an RW register reads after a word was stored in it: reserved bits 0 (R38), a `_HI` register 0 when
ADDR_W = 32 (R50). -/
def Params.storedWord (p : Params) (r : Reg) (v : Word) : Word :=
  match r with
  | .cfg => v &&& 0x3F
  | .viewCount => v &&& 0x7
  | .baseHi _ => if p.addrW = .w32 then 0 else v
  | _ => v

/-- A field of `k` bits reads as the word's low bits. -/
theorem setWidth_setWidth_eq_and (v : Word) {k : Nat} (hk : k ≤ 32) :
    (v.setWidth k).setWidth 32 = v &&& BitVec.ofNat 32 (2 ^ k - 1) := by
  have hlt : 2 ^ k - 1 < 2 ^ 32 := by
    have := Nat.pow_le_pow_right (n := 2) (by decide) hk
    omega
  refine BitVec.eq_of_toNat_eq ?_
  rw [BitVec.toNat_and, BitVec.toNat_ofNat, Nat.mod_eq_of_lt hlt, Nat.and_two_pow_sub_one_eq_mod,
    BitVec.toNat_setWidth_of_le hk, BitVec.toNat_setWidth]

theorem State.readReg_storeReg_self (s : State) {r : Reg} (v : Word) (h : r.isRW = true) :
    (s.storeReg r v).readReg r = Params.storedWord s.params r v := by
  cases r
  case cfg => exact setWidth_setWidth_eq_and v (by decide)
  case viewCount => exact setWidth_setWidth_eq_and v (by decide)
  case baseLo p => simp [State.storeReg, State.readReg, Params.storedWord]
  case baseHi p =>
    cases ha : s.params.addrW <;> simp [State.storeReg, State.readReg, State.writeHi, Params.storedWord, hiWord, ha]
  case viewLen | rgbLen | sliceStart | sliceLen => rfl
  all_goals cases h

/-- A word of a base pair does not show in the other word, nor in another pair. -/
theorem Bases.get_set_lo (bs : Bases) {p q : Plane} (v : Word) :
    ((bs.set p { bs.get p with lo := v }).get q).hi = (bs.get q).hi := by
  by_cases h : q = p
  · rw [h, Bases.get_set_self]
  · rw [Bases.get_set_other bs _ h]

theorem Bases.get_set_hi (bs : Bases) {p q : Plane} (v : Word) :
    ((bs.set p { bs.get p with hi := v }).get q).lo = (bs.get q).lo := by
  by_cases h : q = p
  · rw [h, Bases.get_set_self]
  · rw [Bases.get_set_other bs _ h]

/-- The words of the pairs are all that a register reads of them. -/
theorem State.readReg_set_bases (s : State) (bs : Bases) {q : Reg}
    (hlo : ∀ pl, q = .baseLo pl → (bs.get pl).lo = (s.bases.get pl).lo)
    (hhi : ∀ pl, q = .baseHi pl → (bs.get pl).hi = (s.bases.get pl).hi) :
    State.readReg { s with bases := bs } q = s.readReg q := by
  cases q
  case baseLo pl => exact hlo pl rfl
  case baseHi pl =>
    have := hhi pl rfl
    simp only [State.readReg, hiWord, this]
  all_goals rfl

/-- Another register is stored in another field, but HALF follows CFG (R42). -/
theorem State.readReg_storeReg_other (s : State) {r q : Reg} (v : Word) (h : r.isRW = true) (hq : q ≠ r)
    (hhalf : ¬ (r = .cfg ∧ q = .half)) : (s.storeReg r v).readReg q = s.readReg q := by
  cases r
  case cfg =>
    cases q
    case cfg => exact absurd rfl hq
    case half => exact absurd ⟨rfl, rfl⟩ hhalf
    all_goals rfl
  case baseLo p =>
    refine s.readReg_set_bases _ (fun pl he => ?_) (fun pl _ => Bases.get_set_lo _ _)
    rw [Bases.get_set_other s.bases _ (by rintro rfl; exact hq he)]
  case baseHi p =>
    show (s.writeHi p v).readReg q = s.readReg q
    unfold State.writeHi
    split
    · rfl
    · refine s.readReg_set_bases _ (fun pl _ => Bases.get_set_hi _ _) (fun pl he => ?_)
      rw [Bases.get_set_other s.bases _ (by rintro rfl; exact hq he)]
  case viewCount | viewLen | rgbLen | sliceStart | sliceLen =>
    cases q <;> first | exact absurd rfl hq | rfl
  all_goals cases h

/-- A write of a register but CMD while no command runs is stored, and that is the step. -/
theorem step_regWrite_idle {s : State} {r : Reg} {v : Word} {p : Progress} {is : List Input}
    (hi : s.inputs = ⟨.regWrite r.offset 4 v, p⟩ :: is) (hr : s.rstN = true) (hidle : s.phase = .idle) (hcmd : r ≠ .cmd) :
    step s = .next (State.storeReg { s with inputs := is, progress := p, response := .ok } r v) := by
  have hbusy : State.busy { s with inputs := is, progress := p, response := .ok } = false := State.busy_of_idle hidle
  rw [step_regWrite hr hi, if_neg hcmd, State.writeReg_of_not_busy v hbusy]
  exact State.resume_idle ((State.storeReg_same _ r v).phase.trans hidle)

/-- Settles O13: the word is stored in one register's field. -/
theorem registersReadWhatWasWritten : Obligations.RegistersReadWhatWasWritten := by
  intro s r v p is hi hr hidle hrw
  let u : State := { s with inputs := is, progress := p, response := .ok }
  have hcmd : r ≠ .cmd := by rintro rfl; cases hrw
  have hstatus : r ≠ .status := by rintro rfl; cases hrw
  have hsame := u.storeReg_same r v
  refine ⟨u.storeReg r v, step_regWrite_idle hi hr hidle hcmd, u.readReg_storeReg_self v hrw,
    fun q hq hhalf => u.readReg_storeReg_other v hrw hq hhalf, hsame.phase.trans hidle,
    u.storeReg_status_of_ne v hstatus, ?_, hsame.mem, hsame.params, ?_⟩
  · rw [hsame]
  · rw [hsame]
    exact ⟨hr, rfl, rfl, rfl, rfl, rfl⟩

/-! ### STATUS (R45) -/

/-- The fields of STATUS, each at its bits. -/
theorem State.statusWord_fields (s : State) :
    s.statusWord.getLsbD 0 = s.busy ∧ s.statusWord.getLsbD 1 = s.status.done ∧ s.statusWord.getLsbD 2 = s.status.err ∧
    s.statusWord.getLsbD 3 = s.status.ovr ∧ s.statusWord.extractLsb' 4 4 = s.status.ecode.code ∧
    s.statusWord.extractLsb' 8 24 = 0 := by
  refine ⟨?_, ?_, ?_, ?_, ?ecode, ?reserved⟩
  case ecode =>
    rw [State.statusWord, BitVec.extractLsb'_append_eq_of_le (by decide), BitVec.extractLsb'_append_eq_of_le (by decide),
      BitVec.extractLsb'_append_eq_of_le (by decide), BitVec.extractLsb'_append_eq_of_le (by decide)]
    exact BitVec.extractLsb'_append_eq_right
  case reserved =>
    refine BitVec.eq_of_toNat_eq ?_
    rw [BitVec.extractLsb'_toNat, Nat.shiftRight_eq_div_pow, Nat.div_eq_of_lt s.statusWord_lt]
    rfl
  all_goals
    simp only [State.statusWord, BitVec.getLsbD_append]
    simp

/-- Settles O14: STATUS takes a write whether or not a command runs. -/
theorem statusBitsAndWriteOneToClear : Obligations.StatusBitsAndWriteOneToClear := by
  refine ⟨State.statusWord_fields, fun s v p is hi hr => ?_⟩
  intro written
  have hstep : step s = written.resume := by
    rw [step_regWrite hr hi, if_neg (by decide), State.writeReg_status]
    rfl
  exact ⟨hstep, fun hidle => hstep.trans (State.resume_idle hidle)⟩

/-! ### Reset (R260) -/

theorem State.readReg_resetNow (s : State) (r : Reg) : s.resetNow.readReg r = (State.resetOf s.params).readReg r := by
  cases r <;> rfl

/-- Settles O18: the pin resets every field that a register reads. -/
theorem resetPinResetsEveryRegister : Obligations.ResetPinResetsEveryRegister := by
  intro s p is hi
  refine ⟨_, step_resetPin hi, rfl, rfl, rfl, rfl, rfl, State.readReg_resetNow _, fun hidle => ?_⟩
  simp [State.resetNow, State.abandon, hidle]

/-! ### The view (R131, R16) -/

/-- Settles O20: the definitions of the bases, and which planes are spans. -/
theorem effectiveBasesFollowTheCount : Obligations.EffectiveBasesFollowTheCount := by
  intro s
  refine ⟨fun pl => ?_, rfl, fun h => if_pos h, fun h => if_neg (Nat.not_le.2 h), fun h => if_pos h,
    fun h => if_neg (Nat.not_le.2 h), ?_, ?_, ?_⟩
  · cases ha : s.params.addrW <;> simp [State.base, AddrPair.toNat, addrSpace, ha]
  all_goals simp [s.mem_spans]

end Sys2Proof.Machine
end

section
/-! Undisturbed conversions (R157, R189 to R200): what each command leaves, from the run of its units. -/

namespace Sys2Proof.Machine

/-! ### From the plan to the samples -/

theorem Plan.laneAt_chunk {p : Plan} {j : Nat} (hj : j < p.chunks * p.lanes) :
    p.laneAt j = fun k r g b => vecLane k r g b p.half p.fused := by
  funext k r g b
  exact if_pos hj

theorem Plan.laneAt_tail {p : Plan} {j : Nat} (hj : p.chunks * p.lanes ≤ j) :
    p.laneAt j = fun k r g b => scalarLane k r g b p.half := by
  funext k r g b
  exact if_neg (Nat.not_lt.2 hj)

/-- An undisturbed conversion ends with DONE, its samples hold the results of their lanes, and no other byte changes. -/
theorem exec_completes {s : State} {i : Instr} {p : Plan} (hp : planOf i s = some p) (hc : s.Convertible p)
    (hu : s.Undisturbed p) (hend : s.progress = .toEnd) (hwf : s.mem.wf = true) :
    ∃ m d, exec i s = .next (s.endedOk m d) ∧
      (∀ j < p.samples, SampleHolds s m p.aR p.aG p.aB p.a0 p.a1 p.a2 (p.laneAt j) j) ∧
      OutsideUnchanged s m p.a0 p.a1 p.a2 p.samples := by
  obtain ⟨m, d, hexec, hdone⟩ := hc.completes (i := i) hu hend hwf
  refine ⟨m, d, (exec_convert hp).trans hexec, fun j hj => ?_, fun a h0 h12 => ?_⟩
  · obtain ⟨k, hy, hcbcr⟩ := hdone.results j hj
    exact ⟨k, hy, fun hg => hcbcr ((planOf_gray hp).trans hg)⟩
  · exact hdone.outside a h0 fun hg => h12 ((planOf_gray hp).symm.trans hg)

section
variable {s : State} {i : Instr} {w : Nat} {f : Bool}

/-- A natural vector command: chunks by the vector lane, then whatever its tail holds by the scalar lane. -/
theorem exec_natural_completes {t : Bool} (hp : planOf i s = some (naturalPlan s w f t))
    (hc : s.Convertible (naturalPlan s w f t)) (hu : s.Undisturbed (naturalPlan s w f t)) (hend : s.progress = .toEnd)
    (hwf : s.mem.wf = true) :
    ∃ m d, exec i s = .next (s.endedOk m d) ∧
      (∀ j < s.len / w * w,
        SampleHolds s m (s.base .r) (s.base .g) (s.base .b) s.eff0 s.eff1 s.eff2
          (fun k r g b => vecLane k r g b (s.readReg .half) f) j) ∧
      (∀ j, s.len / w * w ≤ j → j < (naturalPlan s w f t).samples →
        SampleHolds s m (s.base .r) (s.base .g) (s.base .b) s.eff0 s.eff1 s.eff2
          (fun k r g b => scalarLane k r g b (s.readReg .half)) j) ∧
      OutsideUnchanged s m s.eff0 s.eff1 s.eff2 (naturalPlan s w f t).samples := by
  obtain ⟨m, d, hexec, hsamples, houtside⟩ := exec_completes hp hc hu hend hwf
  refine ⟨m, d, hexec, fun j hj => ?_, fun j hj hlt => ?_, houtside⟩
  · have hsample := hsamples j (Nat.lt_of_lt_of_le hj (Nat.le_add_right _ _))
    rwa [Plan.laneAt_chunk (p := naturalPlan s w f t) hj] at hsample
  · have hsample := hsamples j hlt
    rwa [Plan.laneAt_tail (p := naturalPlan s w f t) hj] at hsample

/-- An alignment-forced command: chunks only, from the rounded bases. -/
theorem exec_aligned_completes (hp : planOf i s = some (alignedPlan s w f)) (hc : s.Convertible (alignedPlan s w f))
    (hu : s.Undisturbed (alignedPlan s w f)) (hend : s.progress = .toEnd) (hwf : s.mem.wf = true) :
    ∃ m d, exec i s = .next (s.endedOk m d) ∧
      (∀ j < s.len / w * w,
        SampleHolds s m (roundup (s.base .r) (4 * w)) (roundup (s.base .g) (4 * w)) (roundup (s.base .b) (4 * w))
          (roundup s.eff0 (4 * w)) (roundup s.eff1 (4 * w)) (roundup s.eff2 (4 * w))
          (fun k r g b => vecLane k r g b (s.readReg .half) f) j) ∧
      OutsideUnchanged s m (roundup s.eff0 (4 * w)) (roundup s.eff1 (4 * w)) (roundup s.eff2 (4 * w)) (s.len / w * w) := by
  obtain ⟨m, d, hexec, hsamples, houtside⟩ := exec_completes hp hc hu hend hwf
  refine ⟨m, d, hexec, fun j hj => ?_, houtside⟩
  have hsample := hsamples j hj
  rwa [Plan.laneAt_chunk (p := alignedPlan s w f) hj] at hsample

end

/-! ### The seven commands -/

/-- Settles O32: CVT.S has no chunk, so every sample is the scalar lane's. -/
theorem cvtSConvertsEverySample : Obligations.CvtSConvertsEverySample := by
  intro s hc hu hend hwf
  obtain ⟨m, d, hexec, hsamples, houtside⟩ := exec_completes (i := .cvtS) rfl hc hu hend hwf
  rw [scalarPlan_samples] at hsamples houtside
  refine ⟨m, d, hexec, fun j hj => ?_, houtside⟩
  have hsample := hsamples j hj
  rwa [Plan.laneAt_tail (p := scalarPlan s) (by simp [scalarPlan])] at hsample

/-- Settles O33: without a tail, the samples accessed are those of the chunks. -/
theorem cvtNnConvertsEveryChunk : Obligations.CvtNnConvertsEveryChunk := by
  intro s p hc hu hend hwf
  obtain ⟨m, d, hexec, hchunks, -, houtside⟩ := exec_natural_completes (i := .cvtNn) rfl hc hu hend hwf
  exact ⟨m, d, hexec, hchunks, houtside⟩

/-- Settles O34: with the tail, the samples are the whole view's. -/
theorem cvtNnTConvertsChunksAndTail : Obligations.CvtNnTConvertsChunksAndTail := by
  intro s p hc hu hend hwf
  have hcompletes := exec_natural_completes (i := .cvtNnT) rfl hc hu hend hwf
  rwa [naturalPlan_samples_tail] at hcompletes

/-- Settles O35: `roundup` is the rounding written out. -/
theorem cvtNaConvertsFromRoundedBases : Obligations.CvtNaConvertsFromRoundedBases :=
  fun _ hc hu hend hwf => exec_aligned_completes (i := .cvtNa) rfl hc hu hend hwf

/-- Settles O36: as CVT.NN, with the wide lane count and selector. -/
theorem cvtWnConvertsEveryChunk : Obligations.CvtWnConvertsEveryChunk := by
  intro s w p hc hu hend hwf
  obtain ⟨m, d, hexec, hchunks, -, houtside⟩ := exec_natural_completes (i := .cvtWn) rfl hc hu hend hwf
  exact ⟨m, d, hexec, hchunks, houtside⟩

/-- Settles O37: with the tail, the samples are the whole view's. -/
theorem cvtWnTConvertsChunksAndTail : Obligations.CvtWnTConvertsChunksAndTail := by
  intro s w p hc hu hend hwf
  have hcompletes := exec_natural_completes (i := .cvtWnT) rfl hc hu hend hwf
  rwa [naturalPlan_samples_tail] at hcompletes

/-- Settles O38: as CVT.NA, with the wide lane count and selector. -/
theorem cvtWaConvertsFromRoundedBases : Obligations.CvtWaConvertsFromRoundedBases :=
  fun _ hc hu hend hwf => exec_aligned_completes (i := .cvtWa) rfl hc hu hend hwf

end Sys2Proof.Machine
end

section
/-! How far a command gets (R225, R235, R272): the state right after an issue, a request that is never answered, the end of a
command whose requests are, and the reads and waits that interrupt it. -/

namespace Sys2Proof.Machine

/-! ### Right after an issue -/

theorem State.resume_device {s : State} {r : Run} (h : s.phase = .run r)
    (hd : regionsMeet s.platform.devices r.plan.regions = true) : s.resume = .refused .planeOnDevice := by
  simp [State.resume, h, hd]

/-- A conversion that passes its checks starts (R225). -/
theorem exec_starts {s : State} {i : Instr} {p : Plan} (hp : planOf i s = some p) (hc : s.Convertible p) :
    exec i s = (s.clearedForIssue.start i p).resume := (exec_convert hp).trans hc.convert

/-- Settles O7: with no action before the next input, the state is the issued one. -/
theorem acceptedConversionIsBusy : Obligations.AcceptedConversionIsBusy := by
  intro s i p hp hc hd hprogress
  have hrun := s.clearedForIssue.start_phase i p
  refine ⟨s.clearedForIssue.start i p, ?_, State.busy_of_run hrun, rfl, rfl⟩
  rw [exec_starts hp hc, State.resume_run hrun hd, State.due, State.start_progress, State.clearedForIssue_progress, hprogress]
  rfl

/-- Settles O8: the command would start, and going on is refused. -/
theorem planesOnDevicesAreRefused : Obligations.PlanesOnDevicesAreRefused := by
  intro s i p hp hc hd
  rw [exec_starts hp hc]
  exact State.resume_device (s.clearedForIssue.start_phase i p) hd

/-! ### Requests that are never answered, and requests that are (R235) -/

theorem State.advance_of_canAct_eq_false {s : State} (h : s.canAct = false) (n : Nat) : s.advance n = s := by
  cases n <;> simp [State.advance, h]

/-- Settles O42: the engine cannot act. -/
theorem unansweredRequestKeepsBusy : Obligations.UnansweredRequestKeepsBusy := by
  intro s r hrun hu hnever hd
  have hstuck : s.canAct = false := by simp [State.canAct, hrun, hnever, hu]
  exact ⟨by rw [State.resume_run hrun hd, State.advance_of_canAct_eq_false hstuck], State.busy_of_run hrun⟩

/-- The platform answers every request. -/
def Platform.Answers (pf : Platform) : Prop := ∀ row ∈ pf.answers, row.answer ≠ .never

theorem Platform.Answers.answer_ne_never {pf : Platform} (h : pf.Answers) (p : Params) (q : Request) :
    answer p pf q ≠ .never := by
  unfold answer
  split
  · simp
  · split
    · simp
    · exact h _ (List.mem_of_find?_eq_some ‹_›)

theorem State.engineStep_platform (s : State) : s.engineStep.platform = s.platform := by rw [s.engineStep_same]

/-- The command is over, with DONE or ERR. -/
def State.Ended (s : State) : Prop := s.phase = .idle ∧ (s.status.done = true ∨ s.status.err = true)

theorem State.Ended.advance {s : State} (h : s.Ended) (n : Nat) : (s.advance n).Ended := by
  rwa [State.advance_idle h.1]

/-- An answered action ends the command, or leaves fewer requests to make. -/
theorem State.engineStep_progresses {s : State} {r : Run} (hrun : s.phase = .run r) (ha : s.platform.Answers) :
    s.engineStep.Ended ∨
      ∃ r', s.engineStep.phase = .run r' ∧ r'.plan = r.plan ∧ r'.requestsLeft < r.requestsLeft := by
  rcases s.engineStep_cases with ⟨hidle, -⟩ | ⟨q, hq, hcase⟩
  · rw [hrun] at hidle
    cases hidle
  · rw [hrun] at hq
    cases hq
    rcases hcase with ⟨-, he⟩ | ⟨hu, -, he⟩ | ⟨-, -, he⟩ | ⟨-, hnever, -⟩
    · exact .inl (he ▸ ⟨rfl, .inl rfl⟩)
    · obtain ⟨r', hphase, hplan, -, -, -, hleft, -⟩ := s.perform_run hu
      exact .inr ⟨r', he ▸ hphase, hplan, hleft⟩
    · exact .inl (he ▸ ⟨rfl, .inr rfl⟩)
    · exact absurd hnever (ha.answer_ne_never _ _)

/-- With its requests answered, a command ends in one action more than the requests it has yet to make. -/
theorem State.advance_ends {s : State} {r : Run} (hrun : s.phase = .run r) (ha : s.platform.Answers) {n : Nat}
    (hn : r.requestsLeft ≤ n) : (s.advance (n + 1)).Ended := by
  induction n generalizing s r with
  | zero =>
    rw [State.advance_succ]
    rcases State.engineStep_progresses hrun ha with hend | ⟨r', -, -, hleft⟩
    · exact hend
    · omega
  | succ n ih =>
    rw [State.advance_succ]
    rcases State.engineStep_progresses hrun ha with hend | ⟨r', hrun', -, hleft⟩
    · exact hend.advance _
    · exact ih hrun' (s.engineStep_platform ▸ ha) (by omega)

theorem State.advance_actions_ends {s : State} {r : Run} (hrun : s.phase = .run r) (ha : s.platform.Answers) :
    (s.advance r.plan.actions).Ended :=
  State.advance_ends hrun ha (by unfold Run.requestsLeft; omega)

/-- Settles O43: a command has at most six requests for each unit left. -/
theorem answeredCommandsEnd : Obligations.AnsweredCommandsEnd :=
  fun _ _ hrun ha => State.advance_actions_ends hrun ha

/-! ### Interrupting a command with reads (R272, R273) -/

/-- Whatever runs keeps clear of devices. -/
def State.Clear (s : State) : Prop := ∀ r, s.phase = .run r → regionsMeet s.platform.devices r.plan.regions = false

theorem State.clear_of_run {s : State} {r : Run} (h : s.phase = .run r)
    (hd : regionsMeet s.platform.devices r.plan.regions = false) : s.Clear := fun q hq => by
  rw [h] at hq
  cases hq
  exact hd

theorem State.advance_platform (s : State) (n : Nat) : (s.advance n).platform = s.platform := by rw [s.advance_same n]

theorem State.advance_rstN (s : State) (n : Nat) : (s.advance n).rstN = s.rstN := by rw [s.advance_same n]

theorem State.Clear.advance {s : State} (h : s.Clear) (n : Nat) : (s.advance n).Clear := by
  intro r hr
  cases hp : s.phase with
  | idle =>
    rw [State.advance_idle hp, hp] at hr
    cases hr
  | run q =>
    rw [State.advance_platform, State.advance_plan hp n hr]
    exact h q hp

section
variable {s : State} (h : s.Clear) (is : List Input)
include h

/-- A rescheduled state goes on as the state itself would. -/
theorem State.Clear.resume_rescheduled (p : Progress) (x : Response) :
    ∃ n, (s.rescheduled is p x).resume = .next ((s.advance n).rescheduled is p x) := by
  cases hp : s.phase with
  | idle => exact ⟨0, State.resume_idle hp⟩
  | run r => exact ⟨_, State.resume_rescheduled hp (h r hp) is p x⟩

theorem State.Clear.resume_actions (n : Nat) (x : Response) :
    (s.rescheduled is (.actions n) x).resume = .next ((s.advance n).rescheduled is (.actions n) x) := by
  cases hp : s.phase with
  | idle =>
    rw [State.advance_idle hp]
    exact State.resume_idle hp
  | run r => exact State.resume_rescheduled hp (h r hp) is _ x

/-- A read takes its input and answers; then the command makes its actions. -/
theorem step_read {o : BitVec 8} {k n : Nat} (hr : s.rstN = true) (hi : s.inputs = ⟨.regRead o k, .actions n⟩ :: is) :
    ∃ x, step s = .next ((s.advance n).rescheduled is (.actions n) x) :=
  ⟨_, (step_anyRead hr hi).trans (h.resume_actions is n _)⟩

end

/-- Settles O44: the engine does not see the schedule, and `m` actions and then `n` are `m + n`. -/
theorem pausesDoNotMatter : Obligations.PausesDoNotMatter := by
  intro s r o o' k k' m n is hrun hr hd hi
  have hclear := State.clear_of_run hrun hd
  obtain ⟨x, hfirst⟩ := step_read hclear _ hr hi
  obtain ⟨y, hsecond⟩ := step_read (s := (s.advance m).rescheduled (⟨.regRead o' k', .actions n⟩ :: is) (.actions m) x)
    (hclear.advance m) is ((s.advance_rstN m).trans hr) rfl
  obtain ⟨z, honce⟩ := step_read (s := { s with inputs := ⟨.regRead o k, .actions (m + n)⟩ :: is }) hclear is hr rfl
  refine ⟨_, _, _, hfirst, hsecond, honce, ?_⟩
  have honce_advance : State.advance (m + n) { s with inputs := ⟨.regRead o k, .actions (m + n)⟩ :: is } =
      (s.advance (m + n)).rescheduled (⟨.regRead o k, .actions (m + n)⟩ :: is) s.progress s.response :=
    State.advance_rescheduled s _ _ _ _
  rw [State.advance_rescheduled, honce_advance, State.advance_add]
  rfl

/-! ### `wait` (R109) -/

/-- The last poll finds no command running. -/
theorem step_wait_idle {s : State} {ps : List Pause} {p : Progress} {is : List Input} (hr : s.rstN = true)
    (hi : s.inputs = ⟨.wait ps, p⟩ :: is) (hidle : s.phase = .idle) :
    step s = .next (s.rescheduled is p (.data s.statusWord)) := by
  rw [step_wait hr hi, if_neg (by simp [State.busy_of_idle hidle])]
  exact State.resume_idle hidle

/-- A poll while a command runs puts the next one behind its pause. -/
theorem step_wait_run {s : State} {r : Run} {ps : List Pause} {p : Progress} {is : List Input} (hr : s.rstN = true)
    (hi : s.inputs = ⟨.wait ps, p⟩ :: is) (hrun : s.phase = .run r) :
    step s = (s.rescheduled (State.pollAgain { s with inputs := is } ps) p (.data s.statusWord)).resume := by
  rw [step_wait hr hi, if_pos (State.busy_of_run hrun)]

/-- Polls between which the command makes no action read the same word. -/
theorem run_wait_replicate {n : Nat} {s : State} {is : List Input} (hr : s.rstN = true) {r : Run} (hrun : s.phase = .run r)
    (hclear : s.Clear) (hi : s.inputs = ⟨.wait (List.replicate (n + 1) ⟨0, .actions 0⟩), .actions 0⟩ :: is) :
    core.run (n + 1) s =
      .next (s.rescheduled (⟨.wait [], .actions 0⟩ :: is) (.actions 0) (.data s.statusWord)) := by
  induction n generalizing s with
  | zero =>
    have hstep := step_wait_run hr hi hrun
    rw [hclear.resume_actions] at hstep
    exact core_run_succ 0 hstep
  | succ n ih =>
    have hstep := step_wait_run hr hi hrun
    rw [hclear.resume_actions] at hstep
    rw [core_run_succ (n + 1) hstep]
    exact ih (s := s.rescheduled _ _ _) hr hrun hclear rfl

/-- After `k` steps the inputs are used up, no command runs, and the last answer was STATUS. -/
def State.WaitOver (k : Nat) (s : State) : Prop :=
  ∃ t, core.run k s = .next t ∧ t.inputs = [] ∧ t.phase = .idle ∧ t.response = .data (t.readReg .status)

theorem State.WaitOver.of_step {k : Nat} {s t : State} (hs : step s = .next t) (h : t.WaitOver k) : s.WaitOver (k + 1) := by
  obtain ⟨u, hrun, hu⟩ := h
  exact ⟨u, (core_run_succ k hs).trans hrun, hu⟩

/-- The machine waits for its running command, if any: nothing else is to land, and every request is answered. -/
structure State.Waiting (s : State) (ps : List Pause) (p : Progress) : Prop where
  rstN : s.rstN = true
  inputs : s.inputs = [⟨.wait ps, p⟩]
  clear : s.Clear
  answers : s.platform.Answers

/-- The next poll of a `wait` with these pauses. -/
def nextPoll : List Pause → Input
  | [] => ⟨.wait [], .toEnd⟩
  | q :: qs => ⟨.wait qs, q.progress⟩

theorem State.pollAgain_alone {s : State} (h : s.inputs = []) (ps : List Pause) : s.pollAgain ps = [nextPoll ps] := by
  rw [State.pollAgain_last h]
  cases ps <;> rfl

section
variable {s : State} {ps : List Pause} {p : Progress} (h : s.Waiting ps p)
include h

theorem State.Waiting.over_of_idle (hidle : s.phase = .idle) : s.WaitOver 1 :=
  .of_step (step_wait_idle h.rstN h.inputs hidle) ⟨_, rfl, rfl, hidle, rfl⟩

/-- After any actions the machine waits with the next pause. -/
theorem State.Waiting.advance (n : Nat) (qs : List Pause) (q p' : Progress) (x : Response) :
    ((s.advance n).rescheduled [⟨.wait qs, q⟩] p' x).Waiting qs q :=
  ⟨(s.advance_rstN n).trans h.rstN, rfl, h.clear.advance n, (s.advance_platform n).symm ▸ h.answers⟩

theorem State.Waiting.step_run {r : Run} (hrun : s.phase = .run r) :
    step s = (s.rescheduled [nextPoll ps] p (.data s.statusWord)).resume := by
  rw [step_wait_run h.rstN h.inputs hrun, State.pollAgain_alone rfl]

end

/-- When no pause is left, the command goes on to its end before the next poll. -/
theorem State.Waiting.over_toEnd {s : State} (h : s.Waiting [] .toEnd) : ∃ k ≤ 2, s.WaitOver k := by
  cases hp : s.phase with
  | idle => exact ⟨1, by decide, h.over_of_idle hp⟩
  | run r =>
    have hstep := h.step_run hp
    rw [State.resume_rescheduled hp (h.clear r hp)] at hstep
    exact ⟨2, Nat.le_refl 2,
      .of_step hstep ((h.advance _ [] .toEnd .toEnd _).over_of_idle (State.advance_actions_ends hp h.answers).1)⟩

theorem State.Waiting.over {ps : List Pause} {p : Progress} {s : State} (h : s.Waiting ps p) :
    ∃ k ≤ ps.length + 3, s.WaitOver k := by
  induction ps generalizing s p with
  | nil =>
    cases hp : s.phase with
    | idle => exact ⟨1, by decide, h.over_of_idle hp⟩
    | run r =>
      obtain ⟨n, hresume⟩ := h.clear.resume_rescheduled [⟨.wait [], .toEnd⟩] p (.data s.statusWord)
      obtain ⟨k, hk, hover⟩ := (h.advance n [] .toEnd p (.data s.statusWord)).over_toEnd
      exact ⟨k + 1, Nat.succ_le_succ hk, .of_step ((h.step_run hp).trans hresume) hover⟩
  | cons q qs ih =>
    cases hp : s.phase with
    | idle => exact ⟨1, by omega, h.over_of_idle hp⟩
    | run r =>
      obtain ⟨n, hresume⟩ := h.clear.resume_rescheduled [⟨.wait qs, q.progress⟩] p (.data s.statusWord)
      obtain ⟨k, hk, hover⟩ := ih (h.advance n qs q.progress p (.data s.statusWord))
      exact ⟨k + 1, by rw [List.length_cons]; omega, .of_step ((h.step_run hp).trans hresume) hover⟩

/-- Settles O60: each poll takes one pause; after the last pause the command goes on to its end. -/
theorem waitPollsUntilIdle : Obligations.WaitPollsUntilIdle := by
  intro s ps p is hr hi
  refine ⟨fun hidle => step_wait_idle hr hi hidle, fun r q qs hrun hps => ?_, fun r q p' qs e is' hrun hps his he => ?_,
    fun r n hrun hd hps hp => ?_, fun r hrun hd ha his => ?_⟩
  · subst hps
    exact step_wait_run hr hi hrun
  · subst hps his
    have hpoll : State.pollAgain { s with inputs := ⟨e, p'⟩ :: is' } (⟨1, q⟩ :: qs) = ⟨e, p'⟩ :: ⟨.wait qs, q⟩ :: is' := by
      simp [State.pollAgain, putBack, takeOff, he]
    rw [step_wait_run hr hi hrun, hpoll]
    rfl
  · subst hps hp
    exact run_wait_replicate hr hrun (State.clear_of_run hrun hd) hi
  · subst his
    obtain ⟨k, hk, t, hover⟩ := State.Waiting.over ⟨hr, hi, State.clear_of_run hrun hd, ha⟩
    exact ⟨k, t, hk, hover⟩

end Sys2Proof.Machine
end

section
/-! The lanes (R154, R156, R170 to R183): the order of operands, the formulas, and black. -/

namespace Sys2Proof.Machine

/-! ### The order of operands (R154, R172) -/

theorem fmul_comm (d : Nat) (a b : Word) : fmul d a b = fmul d b a := by
  have hzero : (isZero a && isInf b || isInf a && isZero b) = (isZero b && isInf a || isInf b && isZero a) := by
    rw [Bool.or_comm, Bool.and_comm (isInf a), Bool.and_comm (isZero a)]
  rw [fmul, fmul, Bool.or_comm (isNaN a), hzero, Bool.or_comm (isInf a), Bool.xor_comm, Nat.mul_comm]

/-- Two infinities that are added give a NaN or are the same (R22). -/
theorem fadd_comm (d : Nat) (a b : Word) : fadd d a b = fadd d b a := by
  have hopposite : (isInf a && isInf b && fsign a != fsign b) = (isInf b && isInf a && fsign b != fsign a) := by
    rw [Bool.and_comm (isInf a), bne_comm]
  have hzero : (isZero a && isZero b && fsign a && fsign b) = (isZero b && isZero a && fsign b && fsign a) := by ac_rfl
  rw [fadd, fadd, Bool.or_comm (isNaN a), hopposite, hzero, Int.add_comm]
  split
  · rfl
  · split
    · rfl
    · rename_i hsame
      by_cases ha : isInf a = true <;> by_cases hb : isInf b = true
      · have hsign : fsign b = fsign a := by simpa [ha, hb] using hsame
        rw [if_pos ha, if_pos hb, hsign]
      · rw [if_pos ha, if_neg hb, if_pos ha]
      · rw [if_neg ha, if_pos hb, if_pos hb]
      · rw [if_neg ha, if_neg hb, if_neg hb, if_neg ha]

/-- Settles O55: every branch of either operation is symmetric. -/
theorem operandOrderDoesNotMatter : Obligations.OperandOrderDoesNotMatter :=
  fun d a b => ⟨fmul_comm d a b, fadd_comm d a b⟩

/-! ### The formulas (R156, R171, R172, R181) -/

/-- Settles O56: the definitions, operation by operation. -/
theorem lanesFollowTheirFormulas : Obligations.LanesFollowTheirFormulas :=
  ⟨fun _ _ _ _ => ⟨rfl, rfl⟩, fun _ _ _ _ _ => ⟨rfl, rfl, rfl⟩, fun _ _ _ _ _ _ => ⟨rfl, rfl, rfl⟩⟩

/-! ### Black: operations on zeros -/

/-- The zero of this sign. -/
def signedZero (neg : Bool) : Word := if neg then 0x80000000 else 0

theorem signedZero_facts (neg : Bool) : fexp (signedZero neg) ≠ 255 ∧ fsign (signedZero neg) = neg ∧
    isZero (signedZero neg) = true ∧ fmag (signedZero neg) = 0 ∧ fval (signedZero neg) = 0 := by
  cases neg <;> decide

theorem fneg_signedZero (neg : Bool) : fneg (signedZero neg) = signedZero (!neg) := by cases neg <;> rfl

theorem roundInt_zero (q : Nat) (neg : Bool) : roundInt 0 q neg = signedZero neg := by
  rw [roundInt_eq, if_pos rfl, signedZero]

theorem fadd_signedZero (d : Nat) (s t : Bool) : fadd d (signedZero s) (signedZero t) = signedZero (s && t) := by
  obtain ⟨hs, hss, hsz, -, hsv⟩ := signedZero_facts s
  obtain ⟨ht, hts, htz, -, htv⟩ := signedZero_facts t
  rw [fadd_of_finite d hs ht, hsv, htv, hsz, htz, hss, hts]
  exact roundInt_zero 149 _

section
variable {k : Word} (hk : fexp k ≠ 255)
include hk

theorem fmul_signedZero (d : Nat) (s : Bool) : fmul d (signedZero s) k = signedZero (s ^^ fsign k) := by
  obtain ⟨hs, hss, -, hsm, -⟩ := signedZero_facts s
  rw [fmul_of_finite d hs hk, hsm, hss, Nat.zero_mul, round32_zero, signedZero]

theorem ffma_signedZero (d : Nat) (s t : Bool) :
    ffma d (signedZero s) k (signedZero t) = signedZero ((s ^^ fsign k) && t) := by
  obtain ⟨hs, hss, hsz, -, hsv⟩ := signedZero_facts s
  obtain ⟨ht, hts, htz, -, htv⟩ := signedZero_facts t
  rw [ffma_of_finite d hs hk ht, hsv, htv, hsz, htz, hss, hts, Bool.true_or, Bool.true_and, Bool.and_true]
  simp only [Int.zero_mul, Int.add_zero]
  exact roundInt_zero 298 _

/-- Both forms of the multiply-add give the same zero. -/
theorem madd_signedZero (d : Nat) (s t : Bool) (f : Bool) :
    madd d (signedZero t) (signedZero s) k f = signedZero ((s ^^ fsign k) && t) := by
  cases f with
  | true => exact ffma_signedZero hk d s t
  | false =>
    show fadd (d + 1) (fmul d (signedZero s) k) (signedZero t) = _
    rw [fmul_signedZero hk, fadd_signedZero]

end

/-! ### Black: HALF and zeros -/

theorem fexp_halfWord (p : BitVec 6) : fexp (halfWord p) ≠ 255 := by
  rw [halfWord_eq]
  split
  · decide
  · have := p.isLt
    rw [fexp_ofNat (by omega)]
    omega

/-- HALF is its own rounding. -/
theorem fadd_halfWord_signedZero (d : Nat) (p : BitVec 6) (t : Bool) : fadd d (halfWord p) (signedZero t) = halfWord p := by
  obtain ⟨ht, -, -, -, htv⟩ := signedZero_facts t
  have hsign : fsign (halfWord p) = false := fsign_round32 false _ _
  have hround := roundInt_signed false (halfInt p * 2 ^ 149) 149
  rw [fadd_of_finite d (fexp_halfWord p) ht, htv, Int.add_zero, fval_halfWord, hsign, Bool.and_false, Bool.false_and]
  rw [if_neg Bool.false_ne_true] at hround
  push_cast at hround
  exact hround

/-! ### Black: the lanes -/

/-- The constants of R13. -/
def coefficients : List Word := [kYR, kYG, kYB, kCBR, kCBG, kH, kCRG, kCRB]

theorem coefficients_positive : ∀ k ∈ coefficients, fexp k ≠ 255 ∧ fsign k = false := by
  intro k hk
  fin_cases hk <;> decide

section
variable {k : Word} (hk : k ∈ coefficients) (d : Nat)
include hk

theorem fmul_zero_coefficient : fmul d (signedZero false) k = signedZero false := by
  obtain ⟨hfin, hpos⟩ := coefficients_positive k hk
  rw [fmul_signedZero hfin, hpos, Bool.xor_false]

theorem fmul_coefficient_zero : fmul d k (signedZero false) = signedZero false := by
  rw [fmul_comm, fmul_zero_coefficient hk]

theorem fmul_zero_fneg_coefficient : fmul d (signedZero false) (fneg k) = signedZero true := by
  obtain ⟨hfin, hpos⟩ := coefficients_positive k hk
  rw [fmul_signedZero (by rwa [fexp_fneg]), fsign_fneg, hpos, Bool.not_false, Bool.false_xor]

theorem madd_zero_coefficient (t f : Bool) : madd d (signedZero t) (signedZero false) k f = signedZero false := by
  obtain ⟨hfin, hpos⟩ := coefficients_positive k hk
  rw [madd_signedZero hfin, hpos, Bool.xor_false, Bool.false_and]

theorem madd_zero_fneg_coefficient (t f : Bool) :
    madd d (signedZero t) (signedZero false) (fneg k) f = signedZero t := by
  obtain ⟨hfin, hpos⟩ := coefficients_positive k hk
  rw [madd_signedZero (by rwa [fexp_fneg]), fsign_fneg, hpos, Bool.not_false, Bool.false_xor, Bool.true_and]

end

theorem scalarLane_black (d : Nat) (p : BitVec 6) :
    scalarLane d (signedZero false) (signedZero false) (signedZero false) (halfWord p) =
      ⟨signedZero false, halfWord p, halfWord p⟩ := by
  have hmem : ∀ k ∈ coefficients, ∀ d, fmul d k (signedZero false) = signedZero false :=
    fun k hk d => fmul_coefficient_zero hk d
  simp only [coefficients, List.forall_mem_cons] at hmem
  simp only [scalarLane, fsub, hmem, fneg_signedZero, fadd_signedZero, fadd_halfWord_signedZero, Bool.and_self]

/-- With a selector of either value. -/
theorem vecLane_black (d : Nat) (p : BitVec 6) (f : Bool) :
    vecLane d (signedZero false) (signedZero false) (signedZero false) (halfWord p) f =
      ⟨signedZero false, halfWord p, halfWord p⟩ := by
  have hY : ∀ d, fmul d (signedZero false) kYB = signedZero false := fmul_zero_coefficient (by decide)
  have hCb : ∀ d, fmul d (signedZero false) kH = signedZero false := fmul_zero_coefficient (by decide)
  have hCr : ∀ d, fmul d (signedZero false) (fneg kCRB) = signedZero true := fmul_zero_fneg_coefficient (by decide)
  have hplus : ∀ k ∈ coefficients, ∀ d t, madd d (signedZero t) (signedZero false) k f = signedZero false :=
    fun k hk d t => madd_zero_coefficient hk d t f
  have hminus : ∀ k ∈ coefficients, ∀ d t, madd d (signedZero t) (signedZero false) (fneg k) f = signedZero t :=
    fun k hk d t => madd_zero_fneg_coefficient hk d t f
  simp only [coefficients, List.forall_mem_cons] at hplus hminus
  simp only [vecLane, hY, hCb, hCr, hplus, hminus, fadd_halfWord_signedZero]

/-- Settles O58: every product and every sum of zeros is a zero, and HALF keeps its value beside one. -/
theorem blackGivesZeroAndHalf : Obligations.BlackGivesZeroAndHalf :=
  fun d p f => ⟨scalarLane_black d p, vecLane_black d p f⟩

end Sys2Proof.Machine
end

section
/-! What a conversion may touch (R70, R73, R193, R197): its requests, the bytes that it writes from a unit on, and its frame. -/

namespace Sys2Proof.Machine

/-! ### Requests (R73) -/

/-- A running command's stage is one of its plan's. -/
theorem Run.readSoFar.stage_mem {r : Run} (h : r.readSoFar) : r.stage ∈ r.plan.stages := by
  rw [Plan.mem_stages]
  unfold Run.readSoFar at h
  cases hs : r.stage <;> simp only [hs] at h
  case writeCb | writeCr =>
    intro hgray
    rw [hgray] at h
    cases h.1
  all_goals exact fun _ => ⟨Stage.noConfusion, Stage.noConfusion⟩

theorem Run.readSoFar.unit_le {r : Run} (h : r.readSoFar) : r.unit ≤ r.plan.units := by
  unfold Run.readSoFar at h
  cases hs : r.stage <;> simp only [hs] at h <;> omega

theorem Plan.stageBase_mem {p : Plan} {st : Stage} (h : st ∈ p.stages) : p.stageBase st ∈ p.accessBases := by
  rw [Plan.mem_stages] at h
  unfold Plan.accessBases
  cases hg : p.gray <;> cases st <;> simp [Plan.stageBase, hg] at h ⊢

/-- A unit's request lies in its plane's range (R70). -/
theorem Plan.request_within (p : Plan) {u : Nat} (hu : u < p.units) (st : Stage) :
    (p.request u st).addr + (p.request u st).bytes ≤ p.stageBase st + 4 * p.samples := by
  have := p.unitStart_succ_le hu
  simp only [Plan.request]
  omega

theorem alignedPlan_accessBases (s : State) (w : Nat) (f : Bool) :
    (alignedPlan s w f).accessBases = s.usedBases.map (roundup · (4 * w)) := by
  unfold Plan.accessBases State.usedBases
  cases hg : s.gray <;> simp [alignedPlan, hg]

/-- Every access base is a multiple of 4: an unrounded one was checked, a rounded one is a multiple of 4·W. -/
theorem accessBases_aligned {s : State} {i : Instr} {p : Plan} (hp : planOf i s = some p) (hv : s.validate p = none) :
    ∀ a ∈ p.accessBases, a % 4 = 0 := by
  obtain ⟨-, -, -, hused, -⟩ := (s.validate_none_iff p).1 hv
  have hrounded : ∀ w f, ∀ a ∈ (alignedPlan s w f).accessBases, a % 4 = 0 := fun w f a ha => by
    rw [alignedPlan_accessBases, List.mem_map] at ha
    obtain ⟨b, -, rfl⟩ := ha
    exact Nat.mod_eq_zero_of_dvd ((Nat.dvd_mul_right 4 w).trans (dvd_roundup b _))
  cases i <;> simp only [planOf, Option.some.injEq, reduceCtorEq] at hp <;> subst hp
  case cvtNa | cvtWa => exact hrounded _ _
  all_goals exact hused

/-- A chunk of an alignment-forced command lies on a multiple of its width. -/
theorem alignedPlan_request_mod (s : State) (w : Nat) (f : Bool) {u : Nat} (hu : u < (alignedPlan s w f).units) (st : Stage) :
    ((alignedPlan s w f).request u st).addr % (4 * w) = 0 := by
  have hbase : 4 * w ∣ (alignedPlan s w f).stageBase st := by cases st <;> exact dvd_roundup _ _
  have hstart : (alignedPlan s w f).unitStart u = w * u := if_pos hu
  refine Nat.mod_eq_zero_of_dvd (Nat.dvd_add hbase ?_)
  rw [hstart, ← Nat.mul_assoc]
  exact Nat.dvd_mul_right _ _

/-- What a stage's request does, and the range of its plane. -/
def Plan.ownPlane (p : Plan) : Stage → AccessKind × Option Region
  | .readR => (.read, p.readRegions[0]?)
  | .readG => (.read, p.readRegions[1]?)
  | .readB => (.read, p.readRegions[2]?)
  | .writeY => (.write, p.writeRegions[0]?)
  | .writeCb => (.write, p.writeRegions[1]?)
  | .writeCr => (.write, p.writeRegions[2]?)

theorem Plan.ownPlane_eq {p : Plan} {st : Stage} (h : st ∈ p.stages) :
    p.ownPlane st = (st.kind, some ⟨p.stageBase st, 4 * p.samples⟩) := by
  rw [Plan.mem_stages] at h
  cases hg : p.gray <;> cases st <;> 
    simp [Plan.ownPlane, Plan.readRegions, Plan.writeRegions, Plan.stageBase, Stage.kind, hg] at h ⊢

theorem Plan.request_bytes_chunk {p : Plan} {u : Nat} (h : u < p.chunks) (st : Stage) :
    (p.request u st).bytes = 4 * p.lanes := congrArg (4 * ·) (if_pos h)

theorem Plan.request_bytes_tail {p : Plan} {u : Nat} (h : p.chunks ≤ u) (st : Stage) : (p.request u st).bytes = 4 :=
  congrArg (4 * ·) (if_neg (Nat.not_lt.2 h))

/-- With a tail, the units below the chunk count have the width of a chunk, the others of a sample. -/
theorem naturalPlan_request_bytes_tail (s : State) (w : Nat) (f : Bool) (u : Nat) (st : Stage) :
    if u < s.len / w then ((naturalPlan s w f true).request u st).bytes = 4 * w
    else ((naturalPlan s w f true).request u st).bytes = 4 := by
  split
  case isTrue h => exact Plan.request_bytes_chunk (p := naturalPlan s w f true) h st
  case isFalse h => exact Plan.request_bytes_tail (p := naturalPlan s w f true) (Nat.not_lt.1 h) st

/-- Settles O29: the width is the unit's lane count, and the plane is the stage's. -/
theorem requestsHaveTheStatedWidths : Obligations.RequestsHaveTheStatedWidths := by
  intro s r _ hok hrun hu q narrow wide own
  obtain ⟨hplan, hchecks, hread⟩ := hok r hrun
  have hstage := hread.stage_mem
  have hown : own = (r.stage.kind, some ⟨r.plan.stageBase r.stage, 4 * r.plan.samples⟩) := Plan.ownPlane_eq hstage
  refine ⟨?aligned, ?width, ?kind, ?range⟩
  case aligned =>
    have hbase := accessBases_aligned hplan hchecks _ (Plan.stageBase_mem hstage)
    show (r.plan.stageBase r.stage + 4 * r.plan.unitStart r.unit) % 4 = 0
    omega
  case width =>
    obtain ⟨cmd, plan, unit, stage, rv, gv, bv, raced⟩ := r
    cases cmd <;> simp only [planOf, Option.some.injEq, reduceCtorEq] at hplan <;> subst hplan
    case cvtS => exact Plan.request_bytes_tail (p := scalarPlan s) (Nat.zero_le _) _
    case cvtNn | cvtWn => exact Plan.request_bytes_chunk (p := naturalPlan s _ _ false) hu _
    case cvtNnT | cvtWnT => exact naturalPlan_request_bytes_tail s _ _ _ _
    case cvtNa | cvtWa =>
      exact ⟨Plan.request_bytes_chunk (p := alignedPlan s _ _) hu _, alignedPlan_request_mod s _ _ hu _⟩
  case kind =>
    rw [hown]
    rfl
  case range =>
    rw [hown]
    exact ⟨_, rfl, Nat.le_add_right _ _, r.plan.request_within hu r.stage⟩

/-! ### The bytes that a command writes from a unit on -/

/-- The access bases of the output planes. -/
def Plan.outs (p : Plan) : List Nat := p.a0 :: (if p.gray then [] else [p.a1, p.a2])

theorem Plan.forall_outs {p : Plan} {P : Nat → Prop} (h0 : P p.a0) (h12 : p.gray = false → P p.a1 ∧ P p.a2) :
    ∀ e ∈ p.outs, P e := by
  unfold Plan.outs
  cases hg : p.gray with
  | true => simpa using h0
  | false => simpa using ⟨h0, h12 hg⟩

theorem Plan.writeRegions_eq (p : Plan) : p.writeRegions = p.outs.map (⟨·, 4 * p.samples⟩) := by
  unfold Plan.writeRegions Plan.outs
  cases p.gray <;> rfl

theorem Plan.stageBase_mem_outs {p : Plan} {st : Stage} (h : st ∈ p.stages) (hk : st.kind = .write) :
    p.stageBase st ∈ p.outs := by
  rw [Plan.mem_stages] at h
  cases hg : p.gray <;> cases st <;> simp [Plan.stageBase, Plan.outs, Stage.kind, hg] at h hk ⊢

/-- The destination bytes of unit `u` and of the units after it. -/
def Plan.writesFrom (p : Plan) (u : Nat) : List Region := p.writeRegions.map (·.dropBytes (4 * p.unitStart u))

theorem Plan.writesFrom_zero (p : Plan) : p.writesFrom 0 = p.writeRegions := by
  simp [Plan.writesFrom, Region.dropBytes_zero]

theorem Plan.holds_writesFrom_iff (p : Plan) (u a : Nat) :
    regionsHold (p.writesFrom u) a = true ↔ ∃ e ∈ p.outs, e + 4 * p.unitStart u ≤ a ∧ a < e + 4 * p.samples := by
  simp only [regionsHold_iff, Plan.writesFrom, Plan.writeRegions_eq, List.map_map, List.mem_map, Function.comp_apply,
    exists_exists_and_eq_and, Region.holds_iff, Region.dropBytes]
  refine exists_congr fun e => and_congr_right fun _ => ?_
  omega

theorem Plan.unitStart_mono (p : Plan) : Monotone p.unitStart :=
  monotone_nat_of_le_succ fun u => p.unitStart_succ u ▸ Nat.le_add_right _ _

/-- A write request of unit `u` or a later one reaches only those bytes. -/
theorem Plan.request_in_writesFrom {p : Plan} {u v : Nat} {st : Stage} (hu : u ≤ v) (hv : v < p.units) (hs : st ∈ p.stages)
    (hk : st.kind = .write) {a : Nat} (h : (p.request v st).addr ≤ a)
    (h' : a < (p.request v st).addr + (p.request v st).bytes) : regionsHold (p.writesFrom u) a = true := by
  have hstart := p.unitStart_mono hu
  have hwithin := p.request_within hv st
  refine (p.holds_writesFrom_iff u a).2 ⟨_, Plan.stageBase_mem_outs hs hk, ?_, Nat.lt_of_lt_of_le h' hwithin⟩
  simp only [Plan.request] at h
  omega

theorem Run.anyRegions_congr {r r' : Run} (hp : r'.plan = r.plan) (hr : r'.raced = r.raced) (pf : Platform) (u : Nat) :
    r'.anyRegions pf u = r.anyRegions pf u := by
  unfold Run.anyRegions
  rw [hp, hr]

/-- The command `r` has come to unit `u` or further, or has ended, and memory is `m` but for what it writes from there. -/
structure State.Beyond (r : Run) (u : Nat) (pf : Platform) (m : Memory) (t : State) : Prop where
  platform : t.platform = pf
  run : ∀ q, t.phase = .run q → q.plan = r.plan ∧ q.raced = r.raced ∧ q.readSoFar ∧ u ≤ q.unit
  mem : ∀ a, regionsHold (r.plan.writesFrom u) a = false → t.mem.read a = m.read a

/-- What a command that stops draws, it draws from this unit on. -/
def Run.DrawsFrom (r : Run) (u : Nat) (pf : Platform) : Prop :=
  ∀ v, u ≤ v → ∀ a, regionsHold (r.anyRegions pf v) a = true → regionsHold (r.plan.writesFrom u) a = true

theorem Run.drawsFrom_zero (r : Run) (pf : Platform) : r.DrawsFrom 0 pf := fun _ _ _ h => by
  rw [Plan.writesFrom_zero]
  exact Run.writes_of_anyRegions h

theorem State.Beyond.engineStep_mem {r : Run} {u : Nat} {pf : Platform} {m : Memory} {t : State} (hdraw : r.DrawsFrom u pf)
    (h : t.Beyond r u pf m) {a : Nat} (ha : regionsHold (r.plan.writesFrom u) a = false) :
    t.engineStep.mem.read a = m.read a := by
  have hkept := h.mem a ha
  rcases t.engineStep_mem with he | ⟨q, hq, hcase⟩
  · rw [he, hkept]
  · obtain ⟨hplan, hraced, hread, hu⟩ := h.run q hq
    rcases hcase with ⟨f, hunit, -, hk, he⟩ | ⟨v, hv, he⟩ <;> rw [he]
    · have hbytes : q.request.bytes = 4 * q.plan.unitLanes q.unit := rfl
      have hrange : ¬ (q.request.addr ≤ a ∧ a < q.request.addr + q.request.bytes) := fun ⟨h1, h2⟩ => by
        rw [← hplan, Plan.request_in_writesFrom hu hunit hread.stage_mem hk h1 h2] at ha
        cases ha
      rw [Memory.read_writeLanes_outside, hkept]
      rw [List.length_map, Run.results_length_of_readSoFar hread hk]
      omega
    · have hle : u ≤ v := by
        have := hread.unit_le
        omega
      have hdrawn : regionsHold (q.anyRegions t.platform v) a = false := Bool.eq_false_iff.2 fun hin => by
        rw [h.platform, Run.anyRegions_congr hplan hraced] at hin
        rw [hdraw v hle a hin] at ha
        cases ha
      rw [Memory.read_anyAt_outside _ _ hdrawn, hkept]

theorem State.Beyond.engineStep {r : Run} {u : Nat} {pf : Platform} {m : Memory} {t : State} (hdraw : r.DrawsFrom u pf)
    (h : t.Beyond r u pf m) : t.engineStep.Beyond r u pf m := by
  refine ⟨t.engineStep_platform.trans h.platform, fun q hq => ?_, fun a ha => h.engineStep_mem hdraw ha⟩
  rcases t.engineStep_cases with ⟨-, he⟩ | ⟨q₀, hq₀, ⟨-, he⟩ | ⟨hu, -, he⟩ | ⟨-, -, he⟩ | ⟨-, -, he⟩⟩ <;> rw [he] at hq
  · exact h.run q hq
  · cases hq
  · obtain ⟨hplan, hraced, hread, hle⟩ := h.run q₀ hq₀
    obtain ⟨q', hq', hplan', -, hraced', hle', -, hread'⟩ := t.perform_run hu
    rw [hq'] at hq
    cases hq
    exact ⟨hplan'.trans hplan, hraced'.trans hraced, hread' hread, hle.trans hle'⟩
  · cases hq
  · exact h.run q hq

/-- A running command writes no byte but those from its unit on, however far it gets. -/
theorem State.advance_beyond {s : State} {r : Run} {u : Nat} (hrun : s.phase = .run r) (hread : r.readSoFar) (hu : u ≤ r.unit)
    (hdraw : r.DrawsFrom u s.platform) (n : Nat) : (s.advance n).Beyond r u s.platform s.mem := by
  refine State.advance_keeps (P := State.Beyond r u s.platform s.mem) (fun t h => h.engineStep hdraw) ?_ n
  refine ⟨rfl, fun q hq => ?_, fun a _ => rfl⟩
  rw [hrun] at hq
  cases hq
  exact ⟨rfl, rfl, hread, hu⟩

/-! ### The frame of a conversion (R70, R31, R135) -/

theorem freshRun_readSoFar (i : Instr) {p : Plan} {u : Nat} (hu : u ≤ p.units) (rc : Bool) : (freshRun i p u rc).readSoFar :=
  ⟨hu, rfl, rfl, rfl⟩

/-- What a conversion can do when it is issued while no command runs: end with an error, or run. -/
theorem exec_conversion_next {s t : State} {i : Instr} {p : Plan} (hp : planOf i s = some p) (hidle : s.phase = .idle)
    (h : exec i s = .next t) :
    (∃ c a, t = s.endedWith c a) ∨ (s.clearedForIssue.start i p).resume = .next t := by
  rw [exec_convert hp] at h
  rcases State.convert_next h with ⟨hb, -⟩ | ⟨-, e, -, rfl⟩ | ⟨-, -, hr⟩
  · rw [State.busy_of_idle hidle] at hb
    cases hb
  · exact .inl ⟨e.1, e.2, State.raiseError_clearedForIssue hidle _ _⟩
  · exact .inr hr

/-- Only the marks of other instances' commands change on the outside. -/
theorem exec_conversion_same {s t : State} {i : Instr} {p : Plan} (hp : planOf i s = some p) (hidle : s.phase = .idle)
    (h : exec i s = .next t) :
    ∃ ps, (ps = s.peers ∨ ps = s.peersMarked p.readRegions p.writeRegions) ∧
      State.sameButCommand { s with peers := ps } t := by
  rcases exec_conversion_next hp hidle h with ⟨c, a, rfl⟩ | hr
  · exact ⟨_, .inl rfl, rfl⟩
  · have hstart : State.sameButCommand { s with peers := s.peersMarked p.readRegions p.writeRegions }
        (s.clearedForIssue.start i p) := rfl
    exact ⟨_, .inr rfl, State.sameButCommand_trans hstart (State.resume_same hr)⟩

theorem State.start_resume_mem {s t : State} {i : Instr} {p : Plan} (h : (s.start i p).resume = .next t) {a : Nat}
    (ha : regionsHold p.writeRegions a = false) : t.mem.read a = s.mem.read a := by
  rcases State.resume_next h with ⟨hidle, -⟩ | ⟨r, hr, -, rfl⟩
  · cases hidle
  · have hbeyond : State.Beyond (freshRun i p 0 _) 0 _ s.mem ((s.start i p).advance ((s.start i p).due r)) :=
      State.advance_beyond (s.start_phase i p) (freshRun_readSoFar i (Nat.zero_le _) _) (Nat.le_refl 0)
        (Run.drawsFrom_zero _ _) _
    exact hbeyond.mem a (by rwa [Plan.writesFrom_zero])

theorem exec_conversion_mem {s t : State} {i : Instr} {p : Plan} (hp : planOf i s = some p) (hidle : s.phase = .idle)
    (h : exec i s = .next t) {a : Nat} (ha : regionsHold p.writeRegions a = false) : t.mem.read a = s.mem.read a := by
  rcases exec_conversion_next hp hidle h with ⟨c, e, rfl⟩ | hr
  · rfl
  · exact State.start_resume_mem hr ha

/-- The registers that a running command leaves alone. -/
theorem State.sameButCommand_readReg {s t : State} (h : s.sameButCommand t) {r : Reg} (h1 : r ≠ .status)
    (h2 : r ≠ .faultAddrLo) (h3 : r ≠ .faultAddrHi) : t.readReg r = s.readReg r := by
  rw [h]
  cases r
  case status => exact absurd rfl h1
  case faultAddrLo => exact absurd rfl h2
  case faultAddrHi => exact absurd rfl h3
  all_goals rfl

theorem State.peersMarked_map (s : State) (rs ws : List Region) :
    (s.peersMarked rs ws).map (fun q => (q.block, q.reads, q.writes)) = s.peers.map (fun q => (q.block, q.reads, q.writes)) := by
  simp [State.peersMarked]

/-- Settles O30: an error changes STATUS and FAULT_ADDR only, and a running command writes in its output ranges. -/
theorem conversionsWriteOnlyTheirOutputs : Obligations.ConversionsWriteOnlyTheirOutputs := by
  intro s t i p hp hidle h
  obtain ⟨ps, hps, hsame⟩ := exec_conversion_same hp hidle h
  refine ⟨fun a ha => exec_conversion_mem hp hidle h ha, fun reg h1 h2 h3 => State.sameButCommand_readReg hsame h1 h2 h3, ?_⟩
  rw [hsame]
  refine ⟨rfl, rfl, rfl, rfl, rfl, rfl, ?_⟩
  rcases hps with rfl | rfl
  · rfl
  · exact s.peersMarked_map _ _

/-! ### The remainder (R193) -/

/-- The output bases of a natural command are the view's. -/
theorem naturalPlan_outs (s : State) (w : Nat) (f t : Bool) :
    (naturalPlan s w f t).outs = s.eff0 :: (if s.count = 1 then [] else [s.eff1, s.eff2]) := by
  simp only [Plan.outs, naturalPlan, s.gray_iff]

/-- Output planes of `L` samples that do not overlap keep their samples from `C·W` on. -/
theorem naturalPlan_remainder {s t : State} {i : Instr} {w : Nat} {f : Bool} (hp : planOf i s = some (naturalPlan s w f false))
    (hidle : s.phase = .idle) (h : exec i s = .next t)
    (hapart : (naturalPlan s w f false).outs.Pairwise (fun a b => a + 4 * s.len ≤ b ∨ b + 4 * s.len ≤ a)) {e j : Nat}
    (he : e ∈ (naturalPlan s w f false).outs) (hj : s.len / w * w ≤ j) (hlt : j < s.len) :
    t.mem.readWord (e + 4 * j) = s.mem.readWord (e + 4 * j) := by
  refine Memory.readWord_congr fun a h1 h2 => exec_conversion_mem hp hidle h ?_
  rw [← Plan.writesFrom_zero, Bool.eq_false_iff, ne_eq, Plan.holds_writesFrom_iff, naturalPlan_samples]
  rintro ⟨e', he', hge, ha⟩
  by_cases hee : e = e'
  · omega
  · have hsymm : Std.Symm (fun a b : Nat => a + 4 * s.len ≤ b ∨ b + 4 * s.len ≤ a) := ⟨fun _ _ => Or.symm⟩
    have := hapart.forall he he' hee
    omega

/-- Settles O31: a natural plan without a tail accesses the first `C·W` samples. -/
theorem remainderIsUntouched : Obligations.RemainderIsUntouched := by
  intro s t i p hi hp hidle h w outs hapart
  have hnatural : ∃ f, p = naturalPlan s w f false := by
    rcases hi with rfl | rfl <;> simp only [planOf, Option.some.injEq] at hp <;> exact ⟨_, hp.symm⟩
  obtain ⟨f, rfl⟩ := hnatural
  have houts : outs = (naturalPlan s w f false).outs := (naturalPlan_outs s w f false).symm
  rw [houts] at hapart ⊢
  exact ⟨fun e he j hj hlt => naturalPlan_remainder hp hidle h hapart he hj hlt,
    fun u hu st _ => (naturalPlan s w f false).request_within hu st⟩

end Sys2Proof.Machine
end

section
/-! How else a conversion ends (R88, R91, R138, R229, R230): the first request answered ERROR, and destinations that hold any
value. -/

namespace Sys2Proof.Machine

/-! ### The first request answered ERROR (R229) -/

theorem State.advance_succ' (s : State) (n : Nat) : s.advance (n + 1) = (s.advance n).engineStep := by
  rw [State.advance_add, State.advance_succ, State.advance_zero]

/-- The stage before a stage of the plan is one of its stages. -/
theorem Plan.stage_before {p : Plan} {st : Stage} {k : Nat} (hst : st ∈ p.stages) (hk : st.ctorIdx = k + 1) :
    ∃ st' ∈ p.stages, st'.ctorIdx = k := by
  rw [Plan.mem_stages] at hst
  cases st <;> cases hk
  · exact ⟨.readR, by simp [Plan.mem_stages], rfl⟩
  · exact ⟨.readG, by simp [Plan.mem_stages], rfl⟩
  · exact ⟨.readB, by simp [Plan.mem_stages], rfl⟩
  · exact ⟨.writeY, by simp [Plan.mem_stages], rfl⟩
  · exact ⟨.writeCb, Plan.mem_stages.2 fun hg => absurd rfl (hst hg).2, rfl⟩

/-- A performed request leads to the next stage of its unit, if the plan has one. -/
theorem State.perform_next_stage (s : State) {r : Run} {st : Stage} (hst : st ∈ r.plan.stages)
    (hnext : st.ctorIdx = r.stage.ctorIdx + 1) :
    ∃ r', (s.perform r).phase = .run r' ∧ r'.plan = r.plan ∧ r'.unit = r.unit ∧ r'.raced = r.raced ∧ r'.stage = st := by
  unfold State.perform
  cases hs : r.stage <;> rw [hs] at hnext <;> cases st <;> cases hnext
  case writeY.writeCb.refl =>
    have hgray : r.plan.gray = false := by
      by_contra hg
      exact (Plan.mem_stages.1 hst (Bool.not_eq_false _ ▸ hg)).1 rfl
    simp only [hgray]
    exact ⟨_, rfl, rfl, rfl, rfl, rfl⟩
  all_goals exact ⟨_, rfl, rfl, rfl, rfl, rfl⟩

/-- A unit comes to a stage when the requests before it are answered OK. -/
theorem State.advance_to_stage {s : State} {r : Run} (hrun : s.phase = .run r) (hfresh : r.stage = .readR)
    (hu : r.unit < r.plan.units) {st : Stage} (hst : st ∈ r.plan.stages)
    (hok : ∀ st' ∈ r.plan.stages, st'.ctorIdx < st.ctorIdx →
      answer s.params s.platform (r.plan.request r.unit st') = .ok) :
    ∃ r', (s.advance st.ctorIdx).phase = .run r' ∧ r'.plan = r.plan ∧ r'.unit = r.unit ∧ r'.raced = r.raced ∧
      r'.stage = st := by
  generalize hk : st.ctorIdx = k at hok
  induction k generalizing st with
  | zero =>
    have hreadR : st = .readR := by cases st <;> cases hk; rfl
    exact ⟨r, hrun, rfl, rfl, rfl, hfresh.trans hreadR.symm⟩
  | succ k ih =>
    obtain ⟨st', hst', hk'⟩ := Plan.stage_before hst hk
    obtain ⟨q, hq, hplan, hunit, hraced, hstage⟩ := ih hst' hk' (fun st₀ h₀ hlt => hok st₀ h₀ (by omega))
    have hsame := s.advance_same k
    have hanswer : answer (s.advance k).params (s.advance k).platform q.request = .ok := by
      rw [show (s.advance k).params = s.params by rw [hsame], State.advance_platform, Run.request, hplan, hunit, hstage]
      exact hok st' hst' (by omega)
    obtain ⟨r', hr', hplan', hunit', hraced', hstage'⟩ := (s.advance k).perform_next_stage (r := q) (st := st)
      (hplan ▸ hst) (by rw [hstage]; omega)
    refine ⟨r', ?_, hplan'.trans hplan, hunit'.trans hunit, hraced'.trans hraced, hstage'⟩
    rw [State.advance_succ', State.engineStep_ok hq (by rwa [hplan, hunit]) hanswer, hr']

/-- While a command runs STATUS stays as it is. -/
theorem State.advance_status {s : State} {n : Nat} (h : (s.advance n).busy = true) : (s.advance n).status = s.status := by
  refine State.advance_keeps (P := fun t => t.busy = true → t.status = s.status) (fun t ht hbusy => ?_) (fun _ => rfl) n h
  rcases t.engineStep_status with ⟨hstatus, hb⟩ | ⟨-, hidle, -⟩
  · rw [hstatus, ht (hb ▸ hbusy)]
  · rw [State.busy_of_idle hidle] at hbusy
    cases hbusy

/-- The first error in a unit ends the command, however much longer it is given. -/
theorem State.advance_bus_error {s : State} {r : Run} (hrun : s.phase = .run r) (hfresh : r.stage = .readR)
    (hu : r.unit < r.plan.units) {st : Stage} (hst : st ∈ r.plan.stages)
    (hok : ∀ st' ∈ r.plan.stages, st'.ctorIdx < st.ctorIdx →
      answer s.params s.platform (r.plan.request r.unit st') = .ok)
    (herr : answer s.params s.platform (r.plan.request r.unit st) = .error) {n : Nat} (hn : 6 ≤ n) :
    ∃ r', (s.advance st.ctorIdx).phase = .run r' ∧ r'.plan = r.plan ∧ r'.unit = r.unit ∧ r'.raced = r.raced ∧
      s.advance n = (s.advance st.ctorIdx).busError r' ∧ (s.advance n).status = s.status.failed .busError ∧
      (s.advance n).faultAddr = AddrPair.ofNat (r.plan.request r.unit st).addr := by
  obtain ⟨r', hr', hplan, hunit, hraced, hstage⟩ := State.advance_to_stage hrun hfresh hu hst hok
  have hrequest : r'.request = r.plan.request r.unit st := by rw [Run.request, hplan, hunit, hstage]
  have hend : s.advance n = (s.advance st.ctorIdx).busError r' := by
    have hidx : st.ctorIdx < 6 := by cases st <;> decide
    obtain ⟨k, rfl⟩ : ∃ k, n = st.ctorIdx + (k + 1) := ⟨n - st.ctorIdx - 1, by omega⟩
    have herr' : answer (s.advance st.ctorIdx).params (s.advance st.ctorIdx).platform r'.request = .error := by
      rw [State.advance_platform, show (s.advance st.ctorIdx).params = s.params by rw [s.advance_same _], hrequest, herr]
    have hstep : (s.advance st.ctorIdx).engineStep = (s.advance st.ctorIdx).busError r' := by
      have hlt : ¬ r'.plan.units ≤ r'.unit := by
        rw [hplan, hunit]
        omega
      simp only [State.engineStep, hr', hlt, if_false, herr']
    rw [State.advance_add, State.advance_succ, hstep]
    exact State.advance_idle rfl k
  refine ⟨r', hr', hplan, hunit, hraced, hend, ?_, ?_⟩
  · rw [hend, ← State.advance_status (State.busy_of_run hr')]
    rfl
  · rw [hend, ← hrequest]
    rfl

/-- The checks passed and no device is met: the command starts, and is given as many actions as it can need. -/
theorem exec_advances {s : State} {i : Instr} {p : Plan} (hp : planOf i s = some p) (hc : s.Convertible p)
    (hd : regionsMeet s.platform.devices p.regions = false) (hend : s.progress = .toEnd) :
    exec i s = .next ((s.clearedForIssue.start i p).advance p.actions) := by
  rw [exec_starts hp hc, State.resume_run (s.clearedForIssue.start_phase i p) hd, State.due, State.start_progress,
    State.clearedForIssue_progress, hend]

/-! ### The samples before the failing unit (R230) -/

/-- Without aliasing, a race or foreign memory, a command that stops draws nothing before its unit. -/
theorem Run.drawsFrom_of_owned {r : Run} {pf : Platform} (hapart : r.plan.aliased = false) (hraced : r.raced = false)
    (howned : regionsMeet pf.foreign r.plan.writeRegions = false) (u : Nat) : r.DrawsFrom u pf := by
  intro v hv a ha
  simp only [Run.anyRegions, hapart, hraced, Bool.or_self, Bool.false_eq_true, if_false, regionsHold_iff, List.mem_append,
    List.mem_flatMap, List.mem_map] at ha
  obtain ⟨-, ⟨g, hg, rfl⟩ | ⟨g, hg, f, hf, rfl⟩, ha⟩ := ha
  · have hlater := (r.plan.holds_writesFrom_iff v a).1 ((regionsHold_iff _ _).2 ⟨_, List.mem_map.2 ⟨g, hg, rfl⟩, ha⟩)
    obtain ⟨e, he, hge, hlt⟩ := hlater
    have hstart := r.plan.unitStart_mono hv
    exact (r.plan.holds_writesFrom_iff u a).2 ⟨e, he, by omega, hlt⟩
  · have hsize := Region.inter_size_zero (regionsMeet_false howned hf hg)
    rw [Region.holds_iff, hsize] at ha
    omega

theorem regionsOverlap_eq_false_iff (gs : List Region) :
    regionsOverlap gs = false ↔ gs.Pairwise (fun g h => g.meets h = false) := by
  induction gs with
  | nil => simp [regionsOverlap]
  | cons g gs ih => simp [regionsOverlap, ih]

/-- The output planes of a command without aliasing share no sample. -/
theorem Plan.outs_apart {p : Plan} (h : p.aliased = false) :
    p.outs.Pairwise (fun a b => a + 4 * p.samples ≤ b ∨ b + 4 * p.samples ≤ a) := by
  simp only [Plan.aliased, Bool.or_eq_false_iff, regionsOverlap_eq_false_iff, Plan.writeRegions_eq, List.pairwise_map,
    Region.meets_false_iff] at h
  obtain ⟨⟨-, houts⟩, -⟩ := h
  exact houts.imp fun h => by omega

/-- The bytes written from unit `u` on belong to no sample before it. -/
theorem Plan.writesFrom_not_before {p : Plan} (hapart : p.aliased = false) {u j a e : Nat} (hj : j < p.unitStart u)
    (he : e ∈ p.outs) (h1 : e + 4 * j ≤ a) (h2 : a < e + 4 * j + 4) :
    regionsHold (p.writesFrom u) a = false := by
  rw [Bool.eq_false_iff, ne_eq, Plan.holds_writesFrom_iff]
  rintro ⟨e', he', hge, hlt⟩
  by_cases hee : e = e'
  · omega
  · have hsymm : Std.Symm (fun a b : Nat => a + 4 * p.samples ≤ b ∨ b + 4 * p.samples ≤ a) := ⟨fun _ _ => Or.symm⟩
    have := (Plan.outs_apart hapart).forall he he' hee
    omega

/-- What the units before `u` left is still there when memory has changed from unit `u` on only. -/
theorem Plan.doneTo.sampleDone_of_beyond {p : Plan} {m0 m m' : Memory} {u : Nat} (hapart : p.aliased = false)
    (h : p.doneTo m0 m (p.unitStart u))
    (hsame : ∀ a, regionsHold (p.writesFrom u) a = false → m'.read a = m.read a) :
    ∀ j < p.unitStart u, p.sampleDone m0 m' j := by
  intro j hj
  have hword : ∀ e ∈ p.outs, m'.readWord (e + 4 * j) = m.readWord (e + 4 * j) := fun e he =>
    Memory.readWord_congr fun a h1 h2 => hsame a (Plan.writesFrom_not_before hapart hj he h1 h2)
  obtain ⟨k, hy, hcbcr⟩ := h.results j hj
  refine ⟨k, ?_, fun hg => ?_⟩
  · rw [hword _ (by simp [Plan.outs]), hy]
  · obtain ⟨hcb, hcr⟩ := hcbcr hg
    rw [hword _ (by simp [Plan.outs, hg]), hword _ (by simp [Plan.outs, hg])]
    exact ⟨hcb, hcr⟩

theorem Plan.doneTo.outside_of_beyond {p : Plan} {m0 m m' : Memory} {u : Nat} (hu : p.unitStart u ≤ p.samples)
    (h : p.doneTo m0 m (p.unitStart u)) (hsame : ∀ a, regionsHold (p.writesFrom u) a = false → m'.read a = m.read a) {a : Nat}
    (ha : ∀ e ∈ p.outs, ¬ (e ≤ a ∧ a < e + 4 * p.samples)) : m'.read a = m0.read a := by
  have hfree : regionsHold (p.writesFrom u) a = false := by
    rw [Bool.eq_false_iff, ne_eq, Plan.holds_writesFrom_iff]
    rintro ⟨e, he, hge, hlt⟩
    exact ha e he ⟨by omega, hlt⟩
  have hout : ∀ e ∈ p.outs, ¬ (e ≤ a ∧ a < e + 4 * p.unitStart u) := fun e he hin => ha e he ⟨hin.1, by omega⟩
  rw [hsame a hfree]
  exact h.outside a (hout _ (by simp [Plan.outs])) fun hg =>
    ⟨hout _ (by simp [Plan.outs, hg]), hout _ (by simp [Plan.outs, hg])⟩

/-- Settles O39: the units before the failing one run through, and the rest of the command draws from its unit on only. -/
theorem busErrorKeepsEarlierUnits : Obligations.BusErrorKeepsEarlierUnits := by
  intro s i p u st hp hc hd howned hapart halone hend hwf hu hst herr hbefore hok
  obtain ⟨m, d, hdone, hrun⟩ := State.units_run s.clearedForIssue i hapart false hwf s.nanDraws u hu.le hbefore
  obtain ⟨k, hk, hk6⟩ := p.unitActions_le u hu.le
  let v : State := s.clearedForIssue.running (freshRun i p u false) m d
  have hexec : exec i s = .next (v.advance (k + 1)) := by
    rw [exec_advances hp hc hd hend, State.start_alone (s := s.clearedForIssue) halone, hk]
    exact congrArg _ (hrun (k + 1))
  obtain ⟨r', hr', hplan, hunit, hraced, hbus, hstatus, hfault⟩ := State.advance_bus_error (s := v) rfl rfl hu hst hok herr
    (n := k + 1) (by have := hk6 hu; omega)
  have hdraws : (freshRun i p u false).DrawsFrom u s.platform :=
    Run.drawsFrom_of_owned (r := freshRun i p u false) hapart rfl howned u
  have hbeyond := State.advance_beyond (s := v) (r := freshRun i p u false) rfl (freshRun_readSoFar i hu.le false)
    (Nat.le_refl u) hdraws (k + 1)
  have hstart : p.unitStart u ≤ p.samples := (Nat.le_add_right _ _).trans (p.unitStart_succ_le hu)
  have hgray := planOf_gray hp
  refine ⟨_, hexec, by rw [hbus]; rfl, hstatus, hfault, fun j hj => ?samples, fun a ha => ?drawn, fun a h0 h12 => ?outside⟩
  case samples =>
    obtain ⟨x, hy, hcbcr⟩ := hdone.sampleDone_of_beyond hapart hbeyond.mem j hj
    exact ⟨x, hy, fun hg => hcbcr (hgray.trans hg)⟩
  case drawn =>
    have hwf' : (v.advance st.ctorIdx).mem.wf = true :=
      State.advance_keeps (P := fun t => t.mem.wf = true) (fun _ h => canonicalMemoryKept.engineStep h) hdone.wf _
    have hregions : regionsHold (r'.anyRegions (v.advance st.ctorIdx).platform r'.unit) a = true := by
      rw [Run.anyRegions_congr (r := freshRun i p u false) hplan hraced, hunit]
      simp only [Run.anyRegions, freshRun, hapart, Bool.or_self, Bool.false_eq_true, if_false]
      rw [regionsHold, List.any_append, Bool.or_eq_true]
      exact .inl ha
    rw [hbus]
    exact Memory.read_anyAt_inside hwf' _ hregions
  case outside =>
    exact hdone.outside_of_beyond hstart hbeyond.mem (Plan.forall_outs h0 fun hg => h12 (hgray.symm.trans hg))

/-! ### Destinations that hold any value (R88, R90, R91, R138) -/

theorem Run.anyRegions_open {r : Run} (h : r.plan.aliased = true ∨ r.raced = true) (pf : Platform) (u : Nat) :
    r.anyRegions pf u = r.plan.writeRegions := by
  unfold Run.anyRegions
  exact if_pos (by simpa using h)

/-- However an aliased or raced command ends, every destination byte is drawn. -/
theorem State.engineStep_ends_drawn {s : State} {r : Run} (hrun : s.phase = .run r) (hwf : s.mem.wf = true)
    (hopen : r.plan.aliased = true ∨ r.raced = true) (hidle : s.engineStep.phase = .idle) {a : Nat}
    (ha : regionsHold r.plan.writeRegions a = true) : IsDrawn (s.engineStep.mem.read a) := by
  have hdrawn : ∀ u, IsDrawn ((s.mem.anyAt s.byteDraws (r.anyRegions s.platform u)).read a) := fun u => by
    rw [Run.anyRegions_open hopen]
    exact Memory.read_anyAt_inside hwf _ ha
  rcases s.engineStep_cases with ⟨hidle', -⟩ | ⟨q, hq, hcase⟩
  · rw [hrun] at hidle'
    cases hidle'
  · rw [hrun] at hq
    cases hq
    rcases hcase with ⟨-, he⟩ | ⟨hu, -, he⟩ | ⟨-, -, he⟩ | ⟨-, -, he⟩ <;> rw [he] at hidle ⊢
    · exact hdrawn _
    · obtain ⟨r', hr', -⟩ := s.perform_run hu
      rw [hr'] at hidle
      cases hidle
    · exact hdrawn _
    · rw [hrun] at hidle
      cases hidle

/-- A running command keeps its mark. -/
theorem State.engineStep_keeps_mark {s : State} {r r' : Run} (hrun : s.phase = .run r) (h : s.engineStep.phase = .run r') :
    r'.raced = r.raced := by
  rcases s.engineStep_cases with ⟨hidle, -⟩ | ⟨q, hq, hcase⟩
  · rw [hrun] at hidle
    cases hidle
  · rw [hrun] at hq
    cases hq
    rcases hcase with ⟨-, he⟩ | ⟨hu, -, he⟩ | ⟨-, -, he⟩ | ⟨-, -, he⟩ <;> rw [he] at h
    · cases h
    · obtain ⟨q, hq, -, -, hraced, -⟩ := s.perform_run hu
      rw [hq] at h
      cases h
      exact hraced
    · cases h
    · rw [hrun] at h
      cases h
      rfl

/-- The command `r` goes on in canonical memory, or has ended with every destination byte drawn. -/
structure State.OpenEnded (r : Run) (t : State) : Prop where
  wf : t.mem.wf = true
  run : ∀ q, t.phase = .run q → q.plan = r.plan ∧ q.raced = r.raced
  drawn : t.phase = .idle → ∀ a, regionsHold r.plan.writeRegions a = true → IsDrawn (t.mem.read a)

theorem State.OpenEnded.engineStep {r : Run} (hopen : r.plan.aliased = true ∨ r.raced = true) {t : State}
    (h : t.OpenEnded r) : t.engineStep.OpenEnded r := by
  cases hp : t.phase with
  | idle =>
    have he : t.engineStep = t := State.canAct_eq_false (by simp [State.canAct, hp])
    rwa [he]
  | run q =>
    obtain ⟨hplan, hraced⟩ := h.run q hp
    refine ⟨canonicalMemoryKept.engineStep h.wf, fun q' hq' => ?_, fun hidle a ha => ?_⟩
    · exact ⟨(State.engineStep_plan hp hq').trans hplan, (State.engineStep_keeps_mark hp hq').trans hraced⟩
    · exact State.engineStep_ends_drawn hp h.wf (by rwa [hplan, hraced]) hidle (by rwa [hplan])

theorem State.advance_openEnded {s : State} {r : Run} (hrun : s.phase = .run r) (hwf : s.mem.wf = true)
    (hopen : r.plan.aliased = true ∨ r.raced = true) (n : Nat) : (s.advance n).OpenEnded r := by
  refine State.advance_keeps (P := State.OpenEnded r) (fun _ h => h.engineStep hopen) ⟨hwf, fun q hq => ?_, fun hidle => ?_⟩ n
  · rw [hrun] at hq
    cases hq
    exact ⟨rfl, rfl⟩
  · rw [hrun] at hidle
    cases hidle

/-! ### The ending status of an aliased command -/

/-- The first `u` units, whose requests are all answered OK, run through, whatever they leave in memory. -/
theorem State.units_pass (s : State) (i : Instr) {p : Plan} (rc : Bool) (m0 : Memory) (d0 u : Nat) (hu : u ≤ p.units)
    (hok : ∀ u' < u, ∀ st ∈ p.stages, answer s.params s.platform (p.request u' st) = .ok) :
    ∃ m d, ∀ n, (s.running (freshRun i p 0 rc) m0 d0).advance (u * p.unitActions + n) =
      (s.running (freshRun i p u rc) m d).advance n := by
  induction u with
  | zero => exact ⟨m0, d0, fun n => by rw [Nat.zero_mul, Nat.zero_add]⟩
  | succ u ih =>
    obtain ⟨m, d, hrun⟩ := ih (Nat.le_of_lt hu) (fun u' h => hok u' (Nat.lt_succ_of_lt h))
    refine ⟨unitMem p m u d, d + drawsPerLane * p.unitLanes u, fun n => ?_⟩
    rw [Nat.succ_mul, Nat.add_assoc, hrun, State.unit_runs s i p u m d rc hu (hok u (Nat.lt_succ_self u))]

/-- After its last unit a command ends with DONE. -/
theorem State.advance_finish {s : State} {r : Run} (hrun : s.phase = .run r) (hu : r.plan.units ≤ r.unit) (n : Nat) :
    s.advance (n + 1) = s.finish r := by
  have hstep : s.engineStep = s.finish r := by simp only [State.engineStep, hrun, hu, if_true]
  rw [State.advance_succ, hstep]
  exact State.advance_idle rfl n

section
variable {s : State} {i : Instr} {p : Plan} (hp : planOf i s = some p) (hc : s.Convertible p)
  (hd : regionsMeet s.platform.devices p.regions = false) (hend : s.progress = .toEnd)
include hp hc hd hend

/-- The start of unit `u`, after units whose requests are all answered OK. -/
theorem exec_comes_to_unit {u : Nat} (hu : u ≤ p.units)
    (hok : ∀ u' < u, ∀ st ∈ p.stages, answer s.params s.platform (p.request u' st) = .ok) :
    ∃ (v : State) (k : Nat), exec i s = .next (v.advance (k + 1)) ∧ (u < p.units → 6 ≤ k) ∧
      v.phase = .run (freshRun i p u (s.peersMeet p.readRegions p.writeRegions)) ∧ v.params = s.params ∧
      v.platform = s.platform ∧ v.status = ⟨false, false, s.status.ovr, .none⟩ ∧ v.faultAddr = ⟨0, 0⟩ := by
  let w : State := { s.clearedForIssue with peers := s.peersMarked p.readRegions p.writeRegions }
  obtain ⟨m, d, hrun⟩ := State.units_pass w i (s.peersMeet p.readRegions p.writeRegions) s.mem s.nanDraws u hu hok
  obtain ⟨k, hk, hk6⟩ := p.unitActions_le u hu
  refine ⟨w.running (freshRun i p u _) m d, k, ?_, hk6, rfl, rfl, rfl, rfl, rfl⟩
  rw [exec_advances hp hc hd hend, hk, ← hrun (k + 1)]
  rfl

theorem exec_ends_done (hok : ∀ u, u < p.units → ∀ st ∈ p.stages, answer s.params s.platform (p.request u st) = .ok) :
    ∃ t, exec i s = .next t ∧ t.phase = .idle ∧ t.status = ⟨true, false, s.status.ovr, .none⟩ ∧ t.faultAddr = ⟨0, 0⟩ := by
  obtain ⟨v, k, hexec, -, hrun, -, -, hstatus, hfault⟩ := exec_comes_to_unit hp hc hd hend (Nat.le_refl p.units) hok
  have hfinish := State.advance_finish hrun (Nat.le_refl p.units) k
  refine ⟨_, hexec, by rw [hfinish]; rfl, ?_, by rw [hfinish]; exact hfault⟩
  rw [hfinish]
  show v.status.succeeded = _
  rw [hstatus]
  rfl

theorem exec_ends_bus_error {u : Nat} {st : Stage} (hu : u < p.units) (hst : st ∈ p.stages)
    (herr : answer s.params s.platform (p.request u st) = .error)
    (hbefore : ∀ u' < u, ∀ st' ∈ p.stages, answer s.params s.platform (p.request u' st') = .ok)
    (hok : ∀ st' ∈ p.stages, st'.ctorIdx < st.ctorIdx → answer s.params s.platform (p.request u st') = .ok) :
    ∃ t, exec i s = .next t ∧ t.phase = .idle ∧ t.status = ⟨false, true, s.status.ovr, .busError⟩ ∧
      t.faultAddr = AddrPair.ofNat (p.request u st).addr := by
  obtain ⟨v, k, hexec, hk, hrun, hparams, hplatform, hstatus, -⟩ := exec_comes_to_unit hp hc hd hend hu.le hbefore
  obtain ⟨r', -, -, -, -, hbus, hstatus', hfault⟩ := State.advance_bus_error hrun rfl hu hst
    (by rwa [hparams, hplatform]) (by rwa [hparams, hplatform]) (n := k + 1) (by have := hk hu; omega)
  refine ⟨_, hexec, by rw [hbus]; rfl, ?_, hfault⟩
  rw [hstatus', hstatus]
  rfl

end

/-! ### What makes a command's destinations hold any value -/

theorem regionsOverlap_of_holds {gs : List Region} {x y a : Nat} {g h : Region} (hxy : x < y) (hg : gs[x]? = some g)
    (hh : gs[y]? = some h) (hga : g.holds a = true) (hha : h.holds a = true) : regionsOverlap gs = true := by
  by_contra hno
  have hpairwise := (regionsOverlap_eq_false_iff gs).1 (Bool.not_eq_true _ ▸ hno)
  obtain ⟨hx, rfl⟩ := List.getElem?_eq_some_iff.1 hg
  obtain ⟨hy, rfl⟩ := List.getElem?_eq_some_iff.1 hh
  have hapart := List.pairwise_iff_getElem.1 hpairwise x y hx hy hxy
  rw [(Region.meets_iff _ _).2 ⟨a, hga, hha⟩] at hapart
  cases hapart

theorem State.peersMeet_iff (s : State) (rs ws : List Region) :
    s.peersMeet rs ws = true ↔ ∃ q ∈ s.peers, ByteSetsMeet q.reads q.writes rs ws := by
  simp only [State.peersMeet, PeerRun.meets, List.any_eq_true, setsMeet_iff]

theorem State.mem_peersMarked {s : State} {rs ws : List Region} {q : PeerRun} (hq : q ∈ s.peers)
    (h : ByteSetsMeet q.reads q.writes rs ws) : { q with raced := true } ∈ s.peersMarked rs ws := by
  have hmeets : q.meets rs ws = true := (setsMeet_iff _ _ _ _).2 h
  exact List.mem_map.2 ⟨q, hq, by rw [hmeets, Bool.or_true]⟩

/-- The three kinds of aliasing of a command's own ranges (R88, R138). -/
theorem Plan.aliased_of {s : State} {i : Instr} {p : Plan} (hp : planOf i s = some p)
    (h : (∃ a, (regionsHold p.readRegions a = true ∧ regionsHold p.writeRegions a = true) ∨
        ∃ (x y : Nat) (g h : Region), x < y ∧ p.writeRegions[x]? = some g ∧ p.writeRegions[y]? = some h ∧
          g.holds a = true ∧ h.holds a = true) ∨
      (s.count ≠ 1 ∧ ∃ (x y e f a : Nat), x < y ∧ [s.eff0, s.eff1, s.eff2][x]? = some e ∧
        [s.eff0, s.eff1, s.eff2][y]? = some f ∧ e ≤ a ∧ a < e + 4 * s.len ∧ f ≤ a ∧ a < f + 4 * s.len)) :
    p.aliased = true := by
  simp only [Plan.aliased, Bool.or_eq_true]
  rcases h with ⟨a, h | ⟨x, y, g, h, hxy, hg, hh, hga, hha⟩⟩ | ⟨hc, x, y, e, f, a, hxy, he, hf, he1, he2, hf1, hf2⟩
  · exact .inl (.inl ((regionsMeet_iff _ _).2 ⟨a, h⟩))
  · exact .inl (.inr (regionsOverlap_of_holds hxy hg hh hga hha))
  · have hspans : p.viewSpans = [s.eff0, s.eff1, s.eff2].map (⟨·, 4 * s.len⟩) := planOf_viewSpans hp hc
    refine .inr (regionsOverlap_of_holds (g := ⟨e, 4 * s.len⟩) (h := ⟨f, 4 * s.len⟩) hxy ?_ ?_
      ((Region.holds_iff _ _).2 ⟨he1, he2⟩) ((Region.holds_iff _ _).2 ⟨hf1, hf2⟩))
    · rw [hspans, List.getElem?_map, he]
      rfl
    · rw [hspans, List.getElem?_map, hf]
      rfl

/-- Settles O40: the command starts aliased or marked, and its requests do not depend on what it leaves in memory. -/
theorem aliasingLeavesAnyValue : Obligations.AliasingLeavesAnyValue := by
  intro s i p hp hc hwf hend hd halias
  have hopen : p.aliased = true ∨ s.peersMeet p.readRegions p.writeRegions = true := by
    rcases halias with h | h | h
    · exact .inl (Plan.aliased_of hp (.inl h))
    · exact .inl (Plan.aliased_of hp (.inr h))
    · exact .inr ((s.peersMeet_iff _ _).2 h)
  have hexec := exec_advances hp hc hd hend
  refine ⟨fun t ht q hq hmeet => ?marked, fun t ht hidle => ⟨fun a ha => ?drawn, fun a ha => ?outside⟩,
    fun hok => exec_ends_done hp hc hd hend hok,
    fun u st hu hst herr hbefore hok => exec_ends_bus_error hp hc hd hend hu hst herr hbefore hok⟩
  case marked =>
    rw [hexec] at ht
    cases ht
    rw [State.advance_same (s.clearedForIssue.start i p) p.actions]
    exact State.mem_peersMarked hq hmeet
  case drawn =>
    rw [hexec] at ht
    cases ht
    exact (State.advance_openEnded (s.clearedForIssue.start_phase i p) hwf hopen p.actions).drawn hidle a ha
  case outside => exact exec_conversion_mem hp hc.idle ht ha

end Sys2Proof.Machine
end

section
/-! Races (R84, R90, R91): other agents' accesses while a command runs, and the commands of other instances. -/

namespace Sys2Proof.Machine

/-! ### Other agents' accesses (R90) -/

section
variable {s : State} {r : Run} (hrun : s.phase = .run r) {a : Nat}
include hrun

/-- A write to a byte that the command reads or writes marks the command. -/
theorem State.agentWrite_races {bs : List Byte} (hfit : a + bs.length ≤ addrSpace s.params)
    (hd : regionsMeet s.platform.devices [⟨a, bs.length⟩] = false)
    (hrace : regionsMeet [⟨a, bs.length⟩] r.plan.regions = true) :
    s.agentWrite a bs =
      State.resume { s with response := .ok, mem := s.mem.writeBytes a bs, phase := .run { r with raced := true } } := by
  have hraces : s.phase.writeRaces ⟨a, bs.length⟩ = true := by rwa [hrun]
  rw [State.agentWrite, State.agentTouches_ordinary _ (by simpa using hfit) hd, if_pos hraces, hrun]
  rfl

/-- A read of a byte that the command writes marks the command, and returns drawn bytes. -/
theorem State.agentRead_races {n : Nat} (hfit : a + n ≤ addrSpace s.params)
    (hd : regionsMeet s.platform.devices [⟨a, n⟩] = false) (hrace : regionsMeet [⟨a, n⟩] r.plan.writeRegions = true) :
    s.agentRead a n =
      State.resume
        { s with
          response := .bytes (anyBytes s.byteDraws n)
          byteDraws := s.byteDraws + n
          phase := .run { r with raced := true } } := by
  have hraces : s.phase.readRaces ⟨a, n⟩ = true := by rwa [hrun]
  rw [State.agentRead, State.agentTouches_ordinary _ (by simpa using hfit) hd, if_pos hraces, hrun]
  rfl

end

theorem anyBytes_isDrawn (d n : Nat) : ∀ b ∈ anyBytes d n, IsDrawn b := by
  intro b hb
  obtain ⟨i, hi, rfl⟩ := List.getElem_of_mem hb
  exact ⟨_, anyBytes_getElem d n i hi⟩

/-- A reset leaves every destination byte drawn. -/
theorem State.resetNow_drawn {s : State} {r : Run} (hrun : s.phase = .run r) (hwf : s.mem.wf = true) {a : Nat}
    (ha : regionsHold r.plan.writeRegions a = true) : IsDrawn (s.resetNow.mem.read a) := by
  rw [State.resetNow_mem_of_run hrun]
  exact Memory.read_anyAt_inside hwf _ ((r.regionsHold_anyRegions_zero _ a).trans ha)

/-! ### Commands of other instances (R91) -/

theorem Phase.meets_run_iff (r : Run) (rs ws : List Region) :
    (Phase.run r).meets rs ws = true ↔ ByteSetsMeet rs ws r.plan.readRegions r.plan.writeRegions :=
  (setsMeet_iff _ _ _ _).trans ⟨ByteSetsMeet.symm, ByteSetsMeet.symm⟩

/-- No running command with these byte sets is met. -/
theorem Phase.meets_eq_false {ph : Phase} {rs ws : List Region}
    (h : ∀ r, ph = .run r → ¬ ByteSetsMeet rs ws r.plan.readRegions r.plan.writeRegions) : ph.meets rs ws = false := by
  cases ph with
  | idle => rfl
  | run r => exact Bool.eq_false_iff.2 (mt (Phase.meets_run_iff r rs ws).1 (h r rfl))

/-- The running command after a command with these byte sets has started elsewhere (R91). -/
def Phase.afterPeerStart (ph : Phase) (rs ws : List Region) : Phase := if ph.meets rs ws then ph.markRaced else ph

theorem State.peerStart_new {s : State} {b : Nat} {rs ws : List Region}
    (hfit : ∀ g ∈ rs ++ ws, g.base + g.size ≤ addrSpace s.params) (hd : regionsMeet s.platform.devices (rs ++ ws) = false)
    (hnew : ∀ q ∈ s.peers, q.block ≠ b) :
    s.peerStart b rs ws =
      State.resume
        { s with
          phase := s.phase.afterPeerStart rs ws
          peers := ⟨b, rs, ws, s.phase.meets rs ws || s.peersMeet rs ws⟩ :: s.peersMarked rs ws } := by
  have hnone : ¬ s.peers.any (fun q => q.block == b) = true := by simpa using hnew
  rw [State.peerStart, State.agentTouches_ordinary _ hfit hd, if_neg hnone]
  rfl

/-- What a peer's command leaves in memory when it ends, and the draws after it. -/
def State.peerEndMem (s : State) (q : PeerRun) : Memory × Nat :=
  if q.raced then (s.mem.anyAt s.byteDraws q.writes, s.byteDraws + regionsSize q.writes) else (s.mem, s.byteDraws)

theorem State.peerEnd_of_find {s : State} {q : PeerRun} (hq : s.peers.find? (fun q' => q'.block == q.block) = some q)
    (hfit : ∀ g ∈ q.writes, g.base + g.size ≤ addrSpace s.params) (hd : regionsMeet s.platform.devices q.writes = false) :
    s.peerEnd q.block =
      State.resume
        { s with
          peers := s.peers.filter (fun q' => q'.block != q.block)
          mem := (s.peerEndMem q).1
          byteDraws := (s.peerEndMem q).2 } := by
  simp only [State.peerEnd, hq, State.peerEndMem]
  cases q.raced
  · rfl
  · exact State.agentTouches_ordinary _ hfit hd

/-- Settles O41: an access that races marks the command, whose destination bytes are drawn at any end; two commands whose byte
sets meet are both marked. -/
theorem racesLeaveAnyValue : Obligations.RacesLeaveAnyValue := by
  refine ⟨fun s r hrun => ⟨fun a bs p is hr hi hfit hd hrace => ?write, fun a n p is hr hi hfit hd hrace => ?read,
    fun hraced hwf => ⟨fun r' hr' => ?keeps, fun hidle a ha => ?ends, fun a ha => ?reset⟩⟩,
    fun s b rs ws p is hr hi hfit hd hnew => ?peerStart, fun s q p is hr hwf hi hq hfit hd => ?peerEnd⟩
  case write =>
    exact (step_input hr hi).trans (State.agentWrite_races (s := { s with inputs := is, progress := p }) hrun hfit hd hrace)
  case read =>
    exact ⟨_, anyBytes_length _ _, anyBytes_isDrawn _ _,
      (step_input hr hi).trans (State.agentRead_races (s := { s with inputs := is, progress := p }) hrun hfit hd hrace)⟩
  case keeps => exact ⟨(State.engineStep_keeps_mark hrun hr').trans hraced, State.engineStep_plan hrun hr'⟩
  case ends => exact State.engineStep_ends_drawn hrun hwf (.inr hraced) hidle ha
  case reset => exact State.resetNow_drawn hrun hwf ha
  case peerStart =>
    have hstep := (step_input hr hi).trans (State.peerStart_new (s := { s with inputs := is, progress := p }) hfit hd hnew)
    refine ⟨s.phase.afterPeerStart rs ws, ⟨b, rs, ws, s.phase.meets rs ws || s.peersMeet rs ws⟩, s.peersMarked rs ws, hstep,
      rfl, rfl, rfl, fun r hrun hmeet => ?_, fun q' hq' hmeet => ?_, fun hphase => ?_⟩
    · have hmeets : s.phase.meets rs ws = true := by rwa [hrun, Phase.meets_run_iff]
      refine ⟨?_, by rw [hmeets]; rfl⟩
      rw [Phase.afterPeerStart, if_pos hmeets, hrun]
      rfl
    · have hmeets : s.peersMeet rs ws = true := (s.peersMeet_iff rs ws).2 ⟨q', hq', hmeet.symm⟩
      exact ⟨State.mem_peersMarked hq' hmeet.symm, by rw [hmeets, Bool.or_true]⟩
    · have hmeets : s.phase.meets rs ws = false := Phase.meets_eq_false hphase
      refine ⟨by rw [Phase.afterPeerStart, hmeets]; rfl, fun hpeers => ?_⟩
      have halone : s.peersMeet rs ws = false := by
        rw [Bool.eq_false_iff, ne_eq, State.peersMeet_iff]
        rintro ⟨q', hq', hmeet⟩
        exact hpeers q' hq' hmeet.symm
      exact ⟨by rw [hmeets, halone]; rfl, State.peersMarked_alone halone⟩
  case peerEnd =>
    have hstep := (step_input hr hi).trans (State.peerEnd_of_find (s := { s with inputs := is, progress := p }) hq hfit hd)
    refine ⟨(s.peerEndMem q).1, (s.peerEndMem q).2, hstep, fun hraced a ha => ?_, fun a ha => ?_⟩
    · rw [State.peerEndMem, if_pos hraced]
      exact Memory.read_anyAt_inside hwf _ ha
    · cases hraced : q.raced with
      | false => rw [State.peerEndMem, hraced]; rfl
      | true =>
        rw [State.peerEndMem, if_pos hraced]
        exact Memory.read_anyAt_outside _ _ (ha.resolve_left (by simp [hraced]))

end Sys2Proof.Machine
end
